-- ==== Sys2Proof/Word.lean ====
section
/-! DEFINITION. The two word types of the miniseg framing engine (MFE): the byte every memory cell holds
(20_memory.md R50) and the 16-bit declared length (10_state.md R30). Offsets and pointers are naturals:
the spec computes offsets on naturals and proves them in range (R65), and HRQ pointers have a width that
is a build parameter (R101), so their wrap-around is written out where it happens. -/

namespace Sys2Proof

/-- One cell of any of the five spaces (R50): 8 bits. -/
abbrev Byte := BitVec 8

/-- `message_length` (R30): 16 bits. -/
abbrev Len16 := BitVec 16

end Sys2Proof
end

