-- ==== Sys2Proof/Config.lean ====
section
/-! DEFINITION. What is fixed when the hardware is built: the parameters of 00_scope.md R7 with their ranges
(R7, R8), the feed drive mode (R9), and the payload codec, uninterpreted functions (R12, R199).
The codec's functions are the model's only opaque constants. -/

namespace Sys2Proof

/-- The opaque type `Record` of R6 and R12. DESIGN CHOICE (log 3): plain data, a byte string whose contents
no operation of the MFE reads. -/
structure Record where
  body : List Byte
deriving DecidableEq, Repr, Inhabited

/-- A value of the codec's `DecodeError` (R12, D23): opaque to the MFE, told apart by a number. -/
structure DecodeError where
  code : Nat
deriving DecidableEq, Repr, Inhabited

/-- What `encode` answers (R12): bytes, "did not fit scratch capacity", or an `EncodeError` that no source
describes (the operation that meets one is refused). -/
inductive EncodeResult where
  | ok (payload : List Byte)
  | didNotFit
  | other (code : Nat)
deriving DecidableEq, Repr, Inhabited

/-- What `decode` answers (R12). -/
inductive DecodeResult where
  | ok (r : Record)
  | err (e : DecodeError)
deriving DecidableEq, Repr, Inhabited

/-- `FEED_MODE` (R9, R37): whether a timer tick or the receive poll drives the feeder. -/
inductive FeedMode where
  | poll
  | interrupt
deriving DecidableEq, Repr

/-- Which codec the build carries: `encode` and `decode` (R12) and `diag_record` (R199), fixed by the configuration. -/
inductive Codec where
  /-- Any codec: the three functions are opaque constants, so that nothing can be proved of their values. -/
  | platform
  /-- The codec that 95_test_vectors.md section 0 gives for its vectors. -/
  | vectors
  /-- A codec that is known on finitely many inputs, and is the platform's on every other (log 4). -/
  | table (enc : List (Record × EncodeResult)) (dec : List (List Byte × DecodeResult)) (diag : List (List Byte × Record))
deriving DecidableEq, Repr

/-- The parameters of R7 (and D4's `BUS_MAP`), fixed for a machine. No operation writes them (R9, R37, R254). -/
structure Build where
  /-- `START_TOKEN` -/
  startToken : Byte
  /-- `RX_CAP`: bytes of `rx_buf` -/
  rxCap : Nat
  /-- `TX_CAP`: bytes of `tx_buf` -/
  txCap : Nat
  /-- `HRQ_AW`: address width of HRQ; the depth is `2 ^ HRQ_AW` -/
  hrqAw : Nat
  /-- `HRQ_WATERMARK` -/
  hrqWatermark : Nat
  /-- `SINK_CAP`: bytes of the sink's write buffer -/
  sinkCap : Nat
  /-- `ENC_SCRATCH_CAP`: bytes of the codec's scratch buffer -/
  encScratchCap : Nat
  /-- `DIAG_CAP`: bytes of the diagnostic text buffer -/
  diagCap : Nat
  /-- `TRUNC_MARKER` -/
  truncMarker : List Byte
  /-- `FEED_MODE` -/
  feedMode : FeedMode
  /-- the codec (R12, R199) -/
  codec : Codec
  /-- `BUS_MAP` (D4, R58): the platform's register addresses for the command port; read by no rule. -/
  busMap : List Nat
deriving DecidableEq, Repr

/-- `HRQ_DEPTH = 2 ^ HRQ_AW` (R7). -/
def Build.hrqDepth (b : Build) : Nat := 2 ^ b.hrqAw

/-- Every parameter lies in the range that R7 and R8 give; outside it the model is not defined (U7). -/
def Build.wf (b : Build) : Bool :=
  decide (1 ≤ b.rxCap) && decide (1 ≤ b.txCap) && decide (1 ≤ b.hrqAw) &&
  decide (1 ≤ b.hrqWatermark) && decide (b.hrqWatermark ≤ b.hrqDepth) &&
  decide (1 ≤ b.sinkCap) && decide (b.encScratchCap ≤ 65535) &&
  decide (b.truncMarker.length ≤ b.diagCap) && decide (b.hrqDepth < b.rxCap)

namespace Config

/-- FREE VALUE (log 4): `encode` of a codec the spec leaves open (R12, U15). -/
opaque platformEncode : Record → EncodeResult

/-- FREE VALUE (log 4): `decode` of a codec the spec leaves open (R12, U15). -/
opaque platformDecode : List Byte → DecodeResult

/-- FREE VALUE (log 4): `diag_record` of a codec the spec leaves open (R199). -/
opaque platformDiagRecord : List Byte → Record

/-- `Err(BadTag)` of the vectors' codec (95_test_vectors.md section 0). -/
def badTag : DecodeError := ⟨0⟩

/-- The vectors' `encode`: `Ok(r)` if the record has at most 16 bytes, else `Err(DidNotFit)`. -/
def vectorsEncode (r : Record) : EncodeResult :=
  if r.body.length ≤ 16 then .ok r.body else .didNotFit

/-- The vectors' `decode`: `Err(BadTag)` if the first byte is FF, else `Ok`. -/
def vectorsDecode (p : List Byte) : DecodeResult :=
  if p.head? = some 0xFF#8 then .err badTag else .ok ⟨p⟩

/-- The vectors' `diag_record`: the text behind the byte 01. -/
def vectorsDiagRecord (t : List Byte) : Record := ⟨0x01#8 :: t⟩

/-- The build of the state after reset. DESIGN CHOICE (log 2): the spec leaves every parameter OPEN, and one
`State.reset` needs one build; this is the spec's own test configuration `CFG_T` (R10) with the
`DIAG_CAP`, `TRUNC_MARKER` and codec that 95_test_vectors.md fixes for its vectors. -/
def resetBuild : Build where
  startToken := 0xA5#8
  rxCap := 16
  txCap := 16
  hrqAw := 2
  hrqWatermark := 3
  sinkCap := 4
  encScratchCap := 16
  diagCap := 8
  truncMarker := [0x7E#8]
  feedMode := .poll
  codec := .vectors
  busMap := []

end Config

end Sys2Proof
end

