-- ==== Sys2Proof/Syntax.lean ====
section
/-! DEFINITION. The operations of the MFE as syntax (R17, R88): one constructor for each of the 25 rows of
spec/opcode_table.json, with the operands that row's rule gives the operation; and the two enumerations
that decoding needs. -/

namespace Sys2Proof

/-- `rx_state` (R29, R78): the class of the next byte to be consumed. -/
inductive RxState where
  | awaitStart
  | lengthHigh
  | lengthLow
  | body
deriving DecidableEq, Repr

/-- The operations of the MFE. -/
inductive Instr where
  /-- `NOP`, command 0 (R85) -/
  | nop
  /-- `FEED`, command 1 (R120) -/
  | feed
  /-- `POLL_RECEIVE`, command 2 (R140) -/
  | pollReceive
  /-- `ENQUEUE r`, command 3 (R170) -/
  | enqueue (r : Record)
  /-- `DRAIN`, command 4 (R175) -/
  | drain
  /-- `DIAG_APPEND t`, command 5 (R192) -/
  | diagAppend (t : List Byte)
  /-- `DIAG_ENQUEUE`, command 6 (R194) -/
  | diagEnqueue
  /-- `EMIT_NOW t`, command 7 (R195) -/
  | emitNow (t : List Byte)
  /-- `RXB.TOKEN` (R144): the inspected byte is the start token -/
  | rxbToken
  /-- `RXB.SKIP` (R145): the inspected byte `b`, no frame open -/
  | rxbSkip (b : Byte)
  /-- `RXB.LENH` (R146): the inspected byte `h` is the length's high byte -/
  | rxbLenH (h : Byte)
  /-- `RXB.LENL` (R147): the inspected byte `l` is the length's low byte -/
  | rxbLenL (l : Byte)
  /-- `RXB.BODY` (R148): the inspected byte `p` is payload -/
  | rxbBody (p : Byte)
  /-- `HRQ.PUSH b` (R105) -/
  | hrqPush (b : Byte)
  /-- `HRQ.WSYNC` (R111) -/
  | hrqWsync
  /-- `HRQ.RSYNC` (R109) -/
  | hrqRsync
  /-- `HRQ.AVAIL` (R107) -/
  | hrqAvail
  /-- `HRQ.POP` (R108) -/
  | hrqPop
  /-- `TICK` (R214) -/
  | tick
  /-- `FEED.TICK`, a `FEED` started by the tick (R121) -/
  | feedTick
  /-- `SINK.SPACE` (R182) -/
  | sinkSpace
  /-- `SINK.WRITE bytes` (R183) -/
  | sinkWrite (bytes : List Byte)
  /-- `SINK.POP` (R184) -/
  | sinkPop
  /-- `RESET` (R240) -/
  | reset
  /-- `FRAME`, the one wire format (R70), with its payload -/
  | frame (payload : List Byte)
deriving DecidableEq, Repr

end Sys2Proof
end

