-- ==== Sys2Proof/WellFormed.lean ====
section
/-! DEFINITION. Which operations can be shown at the ports at all. A byte class is well formed only beside the
framing state and the inspected byte that R82 pairs it with, and a frame only with a payload whose
length fits the 16-bit length field (R70). -/

namespace Sys2Proof

/-- What decoding needs beside the port's bits: the build's start token and the framing state (R82). -/
structure DecodeCtx where
  token : Byte
  rxState : RxState
deriving DecidableEq, Repr

/-- An operation that the ports can show in the context `c`. -/
def Instr.wf (c : DecodeCtx) : Instr → Bool
  | .nop => true
  | .feed => true
  | .pollReceive => true
  | .enqueue _ => true
  | .drain => true
  | .diagAppend _ => true
  | .diagEnqueue => true
  | .emitNow _ => true
  | .rxbToken => true
  | .rxbSkip b => b != c.token && c.rxState == .awaitStart
  | .rxbLenH h => h != c.token && c.rxState == .lengthHigh
  | .rxbLenL l => l != c.token && c.rxState == .lengthLow
  | .rxbBody p => p != c.token && c.rxState == .body
  | .hrqPush _ => true
  | .hrqWsync => true
  | .hrqRsync => true
  | .hrqAvail => true
  | .hrqPop => true
  | .tick => true
  | .feedTick => true
  | .sinkSpace => true
  | .sinkWrite _ => true
  | .sinkPop => true
  | .reset => true
  | .frame payload => payload.length ≤ 65535

end Sys2Proof
end

