-- ==== Sys2Proof/Decode.lean ====
section
/-! DEFINITION. Decoding what stands at the MFE's ports to an operation, and encoding an operation back.

The MFE fetches no instruction words (R21): an operation is started by the command port (R84), by a byte
class of the framing state machine (R82), by an event's trigger (R87), or is the frame itself (R70). A
port word of this model is a byte string: first the model's number for the port (DESIGN CHOICE, log 7), then
the row's own encoding from the spec, then the operand bytes. -/

namespace Sys2Proof

/-- Why a port word starts no operation. -/
inductive DecodeReject where
  /-- the port word is empty -/
  | noPort
  /-- the first byte is no port's number -/
  | unknownPort (port : Byte)
  /-- the port's bits are missing -/
  | truncated
  /-- `cmd[2:0]` is three bits wide; a bit above them is set (R84) -/
  | commandTooWide (bits : Byte)
  /-- the trigger of the event does not stand at its active level (R87) -/
  | notTriggered (bits : Byte)
  /-- bits above `{w_valid, w_data}` are set (R86) -/
  | writePortTooWide (bits : Byte)
  /-- not `START_TOKEN`, two length bytes and exactly that many payload bytes (R70) -/
  | notAFrame
deriving DecidableEq, Repr

/-- `{hi, lo}` (R72): the length assembled from its two bytes, as a natural. -/
def lengthOf (hi lo : Byte) : Nat := hi.toNat * 256 + lo.toNat

/-- `L[15:8]` (R72). -/
def lengthHi (n : Nat) : Byte := BitVec.ofNat 8 (n / 256)

/-- `L[7:0]` (R72). -/
def lengthLo (n : Nat) : Byte := BitVec.ofNat 8 n

/-- The port numbers of this model (log 7). -/
def portCmd : Byte := 0#8
def portRxb : Byte := 1#8
def portClkW : Byte := 2#8
def portWsync : Byte := 3#8
def portRsync : Byte := 4#8
def portAvail : Byte := 5#8
def portPop : Byte := 6#8
def portTick : Byte := 7#8
def portFeedTick : Byte := 8#8
def portSpace : Byte := 9#8
def portWrite : Byte := 10#8
def portSinkPop : Byte := 11#8
def portRstN : Byte := 12#8
def portFrame : Byte := 13#8

/-- R82, the byte-class decode table: the token row first, then the framing state. -/
def classify (c : DecodeCtx) (b : Byte) : Instr :=
  if b = c.token then .rxbToken
  else match c.rxState with
    | .awaitStart => .rxbSkip b
    | .lengthHigh => .rxbLenH b
    | .lengthLow => .rxbLenL b
    | .body => .rxbBody b

/-- R84, the command table: `cmd[2:0]` and `cmd_arg`. A command without an argument leaves `cmd_arg` unused. -/
def decodeCmd (cmd : Byte) (arg : List Byte) : Except DecodeReject Instr :=
  if cmd = 0#8 then .ok .nop
  else if cmd = 1#8 then .ok .feed
  else if cmd = 2#8 then .ok .pollReceive
  else if cmd = 3#8 then .ok (.enqueue ⟨arg⟩)
  else if cmd = 4#8 then .ok .drain
  else if cmd = 5#8 then .ok (.diagAppend arg)
  else if cmd = 6#8 then .ok .diagEnqueue
  else if cmd = 7#8 then .ok (.emitNow arg)
  else .error (.commandTooWide cmd)

/-- R86, R105, R111: a `clk_w` edge with `w_valid = 1` is a push of `w_data`, one with `w_valid = 0` only
refreshes the write domain's view. -/
def decodeClkW (data valid : Byte) : Except DecodeReject Instr :=
  if valid = 1#8 then .ok (.hrqPush data)
  else if valid = 0#8 then .ok .hrqWsync
  else .error (.writePortTooWide valid)

/-- R87: an event whose trigger stands at `level` when the operation starts. -/
def decodeLevel (level bits : Byte) (i : Instr) : Except DecodeReject Instr :=
  if bits = level then .ok i else .error (.notTriggered bits)

/-- R70: token, two length bytes, and exactly `{h, l}` payload bytes. -/
def decodeFrame (c : DecodeCtx) (t h l : Byte) (payload : List Byte) : Except DecodeReject Instr :=
  if t = c.token && payload.length == lengthOf h l then .ok (.frame payload) else .error .notAFrame

/-- The decoder: total on every byte string, each rejection by name. -/
def decode (c : DecodeCtx) : List Byte → Except DecodeReject Instr
  | [] => .error .noPort
  | port :: w =>
    if port = portCmd then
      match w with
      | [] => .error .truncated
      | cmd :: arg => decodeCmd cmd arg
    else if port = portClkW then
      match w with
      | data :: valid :: _ => decodeClkW data valid
      | _ => .error .truncated
    else if port = portFrame then
      match w with
      | t :: h :: l :: payload => decodeFrame c t h l payload
      | _ => .error .truncated
    else
      match w with
      | [] => if port.toNat < 14 then .error .truncated else .error (.unknownPort port)
      | b :: rest =>
        if port = portRxb then .ok (classify c b)
        else if port = portWsync then decodeLevel 1#8 b .hrqWsync
        else if port = portRsync then decodeLevel 1#8 b .hrqRsync
        else if port = portAvail then decodeLevel 1#8 b .hrqAvail
        else if port = portPop then decodeLevel 1#8 b .hrqPop
        else if port = portTick then decodeLevel 1#8 b .tick
        else if port = portFeedTick then decodeLevel 0xC#8 b .feedTick
        else if port = portSpace then decodeLevel 1#8 b .sinkSpace
        else if port = portWrite then decodeLevel 1#8 b (.sinkWrite rest)
        else if port = portSinkPop then decodeLevel 1#8 b .sinkPop
        else if port = portRstN then decodeLevel 0#8 b .reset
        else .error (.unknownPort port)

/-- `FRAME(p)` (R70, R89): `START_TOKEN, |p|[15:8], |p|[7:0], p`. -/
def frameBytes (token : Byte) (payload : List Byte) : List Byte :=
  token :: lengthHi payload.length :: lengthLo payload.length :: payload

/-- The encoder: the port word of an operation, from the encodings of R70, R82, R84 and R87. -/
def encode (c : DecodeCtx) : Instr → List Byte
  | .nop => [portCmd, 0#8]
  | .feed => [portCmd, 1#8]
  | .pollReceive => [portCmd, 2#8]
  | .enqueue r => portCmd :: 3#8 :: r.body
  | .drain => [portCmd, 4#8]
  | .diagAppend t => portCmd :: 5#8 :: t
  | .diagEnqueue => [portCmd, 6#8]
  | .emitNow t => portCmd :: 7#8 :: t
  | .rxbToken => [portRxb, c.token]
  | .rxbSkip b => [portRxb, b]
  | .rxbLenH h => [portRxb, h]
  | .rxbLenL l => [portRxb, l]
  | .rxbBody p => [portRxb, p]
  | .hrqPush b => [portClkW, b, 1#8]
  | .hrqWsync => [portWsync, 1#8]
  | .hrqRsync => [portRsync, 1#8]
  | .hrqAvail => [portAvail, 1#8]
  | .hrqPop => [portPop, 1#8]
  | .tick => [portTick, 1#8]
  | .feedTick => [portFeedTick, 0xC#8]
  | .sinkSpace => [portSpace, 1#8]
  | .sinkWrite bytes => portWrite :: 1#8 :: bytes
  | .sinkPop => [portSinkPop, 1#8]
  | .reset => [portRstN, 0#8]
  | .frame payload => portFrame :: frameBytes c.token payload

/-- The port word for a word of spec/opcode_table.json (log 8). The table gives a row no port, so a word that several
rows share goes to the first of: the commands (0 to 7), `FEED.TICK` (1100), and the byte classes in `AwaitStart`;
16 bits are `{w_valid, w_data}` and 24 bits are a frame's header, with its payload all zeros. -/
def tablePortWord (nbits w : Nat) : List Byte :=
  if nbits ≤ 8 then
    if w < 8 then [portCmd, BitVec.ofNat 8 w]
    else if w = 0xC then [portFeedTick, BitVec.ofNat 8 w]
    else [portRxb, BitVec.ofNat 8 w]
  else if nbits ≤ 16 then [portClkW, BitVec.ofNat 8 w, BitVec.ofNat 8 (w / 256)]
  else
    portFrame :: BitVec.ofNat 8 (w / 65536) :: BitVec.ofNat 8 (w / 256) :: BitVec.ofNat 8 w ::
      List.replicate (w % 65536) 0#8

/-- The instruction that the decoder reads from a word of spec/opcode_table.json, in the context of the
state after reset; none where it refuses or where `w` has more than `nbits` bits. -/
def decodeTableWord (nbits w : Nat) : Option Instr :=
  if w < 2 ^ nbits then
    match decode ⟨Config.resetBuild.startToken, .awaitStart⟩ (tablePortWord nbits w) with
    | .ok i => some i
    | .error _ => none
  else none

end Sys2Proof
end

