-- ==== Sys2Proof/Machine/State.lean ====
section
/-! DEFINITION. The state of the MFE (10_state.md R20 to R46) as plain data, one group of fields for each
unit, the reasons a step can stop, and the state after reset (R47, R241).

Fields of the model's own, named here and in INVENTORY.md: `Ctl.main`, `State.callResult`,
`State.agenda`, `State.slice`, `Boundary.results` and `Boundary.recordLog` (the last two are R45's observation). -/

namespace Sys2Proof.Machine

/-- A byte-addressed space (R50): the cells written so far, at strictly rising offsets. A cell that is not listed
has no value to read (log 5): its contents are unspecified (R47, U1), so a read of it faults. -/
abbrev Memory := List Host.Cell

/-- The canonical form: strictly rising offsets. (An unlisted cell reads as no value, so no entry equals it.) -/
def Memory.wf : Memory → Bool
  | [] => true
  | (a, _) :: rest => rest.all (fun c => decide (a < c.1)) && Memory.wf rest

/-- The indexed spaces of R50, as a fault names them. -/
inductive Space where
  | hrqMem
  | rxBuf
  | txBuf
  | encScratch
deriving DecidableEq, Repr

/-- The hardware receive queue (R22 to R24). Pointers are naturals below `2 ^ (HRQ_AW + 1)`. -/
structure Hrq where
  /-- `hrq_mem` (R22) -/
  mem : Memory
  /-- `hrq_wbin` (R23): binary write pointer -/
  wbin : Nat
  /-- `hrq_wgray` (R23): its registered gray code -/
  wgray : Nat
  /-- `hrq_wq1_rgray` (R23): first synchroniser stage of the write domain -/
  wq1Rgray : Nat
  /-- `hrq_wq2_rgray` (R23): second stage -/
  wq2Rgray : Nat
  /-- `hrq_lost` (R23): sticky, a byte was dropped -/
  lost : Bool
  /-- `hrq_rbin` (R24): binary read pointer -/
  rbin : Nat
  /-- `hrq_rgray` (R24): its registered gray code -/
  rgray : Nat
  /-- `hrq_rq1_wgray` (R24): first synchroniser stage of the read domain -/
  rq1Wgray : Nat
  /-- `hrq_rq2_wgray` (R24): second stage -/
  rq2Wgray : Nat
deriving DecidableEq, Repr

/-- The receive buffer and the framing state (R26 to R33). -/
structure Rx where
  /-- `rx_buf` (R26) -/
  buf : Memory
  /-- `rx_tail` (R27): next byte to consume -/
  tail : Nat
  /-- `rx_head` (R27): one past the last byte written -/
  head : Nat
  /-- `rx_state` (R29) -/
  state : RxState
  /-- `message_length` (R30) -/
  messageLength : Len16
  /-- `message_start` (R31) -/
  messageStart : Nat
  /-- `rx_active` (R32) -/
  active : Bool
  /-- `rx_record` (R33) -/
  record : Option Record
deriving DecidableEq, Repr

/-- The transmit buffer and the codec's scratch buffer (R34 to R36). -/
structure Tx where
  /-- `tx_buf` (R34) -/
  buf : Memory
  /-- `tx_tail` (R35): next byte to send -/
  tail : Nat
  /-- `tx_head` (R35): end of buffered but unsent data -/
  head : Nat
  /-- `enc_scratch` (R36) -/
  encScratch : Memory
deriving DecidableEq, Repr

/-- Where the control loop's command in progress stands (R39: a model that splits operations into
micro-steps); each value names the line of R120, R151 or R196 that comes next. -/
inductive MainPhase where
  /-- no command in progress -/
  | idle
  /-- a `FEED` command waits for `rx_lock = 0` and `feed_active = 0` (R121 case c) -/
  | feedWait
  /-- the `FEED` of a `FEED` command runs -/
  | feedRun
  /-- a `POLL_RECEIVE` waits for `feed_active = 0` (R141 (1)) -/
  | pollWait
  /-- the inner `FEED` of a `POLL`-mode `POLL_RECEIVE` runs (R141 (2)) -/
  | pollFeed
  /-- the no-data test of `POLL_RECEIVE` comes next (R141 (3)) -/
  | pollTest
  /-- the loop of `POLL_RECEIVE` (R143) -/
  | pollScan
  /-- `EMIT_NOW` phase 1, with the packet to be sent (R196) -/
  | emitDrain (packet : List Byte)
  /-- `EMIT_NOW` phase 2, with the bytes of the packet that the sink has not taken (R196) -/
  | emitSend (rest : List Byte)
deriving DecidableEq, Repr

/-- The control state (R38, R39). -/
structure Ctl where
  /-- `feed_ie` (R38) -/
  feedIe : Bool
  /-- `feed_pending` (R38) -/
  feedPending : Bool
  /-- `rx_lock` (R39) -/
  rxLock : Bool
  /-- `feed_active` (R39) -/
  feedActive : Bool
  /-- `main_busy` (R39) -/
  mainBusy : Bool
  /-- the line at which the command in progress stands -/
  main : MainPhase
deriving DecidableEq, Repr

/-- A diagnostic event, code and data (R81, R190). -/
inductive DiagEvent where
  /-- `INCOMING_DATA_RATE_TOO_FAST` -/
  | incomingDataRateTooFast
  /-- `INSUFFICIENT_RECEIVE_RATE` -/
  | insufficientReceiveRate
  /-- `PREVIOUS_PACKET_INCOMPLETE` -/
  | previousPacketIncomplete
  /-- `DESERIALIZATION_FAILED`, with the codec's error and the raw payload -/
  | deserializationFailed (e : DecodeError) (raw : List Byte)
deriving DecidableEq, Repr

/-- `ReceiveCode` (R79). -/
inductive ReceiveCode where
  | noDataAvailable
  | packetReceived
  | inProgress
  | messageExceedsBufferSize
  | deserializationFailed
deriving DecidableEq, Repr

/-- `EnqueueCode` (R80). -/
inductive EnqueueCode where
  | success
  | docOverflow
  | insufficientTransmitRate
  | packetExceedsBufferSize
deriving DecidableEq, Repr

/-- A command and the response it returned (R84, R45); the commands of R84 that return nothing are not here. -/
inductive Response where
  /-- `POLL_RECEIVE`: `rsp_code` -/
  | pollReceive (c : ReceiveCode)
  /-- `ENQUEUE`: `rsp_code` -/
  | enqueue (c : EnqueueCode)
  /-- `DRAIN`: `rsp_count`, the bytes still pending -/
  | drain (pending : Nat)
  /-- `DIAG_APPEND`: `rsp_flag`, the whole text fit -/
  | diagAppend (fit : Bool)
  /-- `DIAG_ENQUEUE`: `rsp_code` -/
  | diagEnqueue (c : EnqueueCode)
deriving DecidableEq, Repr

/-- The boundary, the environment and the observation traces (R41 to R45). -/
structure Boundary where
  /-- `diag_log` (R41) -/
  diagLog : List DiagEvent
  /-- `diag_buf` (R42) -/
  diagBuf : List Byte
  /-- `sink_q` (R43), front first -/
  sinkQ : List Byte
  /-- `wire_tx` (R44) -/
  wireTx : List Byte
  /-- `wire_rx_count` (R44) -/
  wireRxCount : Nat
  /-- the (command, result) pairs returned to the control loop (R45), oldest first -/
  results : List Response
  /-- the value of `rx_record` after each `POLL_RECEIVE` (R45), oldest first -/
  recordLog : List (Option Record)
deriving DecidableEq, Repr

/-- What a call of the serial device's interface answered (R57), when the call is a step of its own. -/
inductive CallResult where
  /-- `available_to_read() -> count` (R107) -/
  | avail (count : Nat)
  /-- `read_byte() -> byte` (R108) -/
  | byte (b : Byte)
  /-- `available_to_write() -> count` (R182) -/
  | space (count : Nat)
  /-- `write(bytes) -> count_written` (R183) -/
  | written (count : Nat)
deriving DecidableEq, Repr

/-- One turn of the schedule of agents (R11, R48), which is an input of the machine: what stands at a port, or the agent
whose operation in progress goes on; and how many lines the operation may take before the next turn (none: as many as it
needs to its end). -/
inductive Turn where
  /-- a port word is offered (Decode.lean) -/
  | offer (word : List Byte) (slice : Option Nat)
  /-- `A_MAIN` goes on with its command in progress -/
  | resumeMain (slice : Option Nat)
  /-- `A_FEED` goes on with the tick-started `FEED` in progress -/
  | resumeFeed (slice : Option Nat)
deriving DecidableEq, Repr

/-- The state of the machine. -/
structure State where
  /-- the build's parameters (R7): no step writes them -/
  build : Build
  /-- HRQ (R22 to R24) -/
  hrq : Hrq
  /-- receive buffer and framing state (R26 to R33) -/
  rx : Rx
  /-- transmit buffer and encode scratch (R34 to R36) -/
  tx : Tx
  /-- control state (R38, R39) -/
  ctl : Ctl
  /-- boundary, environment, traces (R41 to R45) -/
  bnd : Boundary
  /-- the answer of the last bare device call (log 12) -/
  callResult : Option CallResult
  /-- the turns still to come (R48; log 9) -/
  agenda : List Turn
  /-- the lines that the running operation may take (R48; log 10) -/
  slice : Option Nat
deriving DecidableEq, Repr

/-- Why a step stops with a fault. The MFE has no traps (R210): both are departures of the model from "any value" (U1)
and from "prove the bound, or check it and refuse" (R56), and no state that a run from reset reaches raises one. Safe. -/
inductive Fault where
  /-- a read of a cell that nothing has written (R47, U1); raised by the memory operations. Safe. -/
  | unwrittenCell (space : Space) (addr : Nat)
  /-- an access at or beyond the capacity of its space (R50, R56); raised by the memory operations. Safe. -/
  | outsideSpace (space : Space) (addr : Nat)
deriving DecidableEq, Repr

/-- Why a step has no meaning. -/
inductive Refusal where
  /-- the instruction has no meaning yet; raised by Dispatch.lean alone. Safe. -/
  | notModelled (mnemonic : String)
  /-- `HRQ.POP` with `hrq_empty_r = 1` (R108, U2); raised by `HRQ.POP`, and by `FEED` in states that no run reaches. Safe. -/
  | popOnEmpty
  /-- `encode` returned an error other than "did not fit" (R12, R171, U3); raised by `ENQUEUE` and `DIAG_ENQUEUE`. Safe. -/
  | encodeErrorNotDescribed (code : Nat)
  /-- `encode` failed inside `EMIT_NOW` (R196, U4). Safe. -/
  | emitNowEncodeFailed
  /-- a build parameter is out of its range (R7, R8, U7); raised by the step before anything else. Safe. -/
  | parameterOutOfRange
  /-- the port word starts no operation (Decode.lean); raised by the step. Safe. -/
  | notAnOperation (why : DecodeReject)
deriving DecidableEq, Repr

/-- The state right after reset of a machine built with the parameters `b` (R47, R241): exactly R47's table; the model's own
fields say that nothing is scheduled and nothing has been called (log 14). -/
def State.resetOf (b : Build) : State where
  build := b
  hrq := { mem := [], wbin := 0, wgray := 0, wq1Rgray := 0, wq2Rgray := 0, lost := false,
           rbin := 0, rgray := 0, rq1Wgray := 0, rq2Wgray := 0 }
  rx := { buf := [], tail := 0, head := 0, state := .awaitStart, messageLength := 0#16,
          messageStart := 0, active := false, record := none }
  tx := { buf := [], tail := 0, head := 0, encScratch := [] }
  ctl := { feedIe := true, feedPending := false, rxLock := false, feedActive := false,
           mainBusy := false, main := .idle }
  bnd := { diagLog := [], diagBuf := [], sinkQ := [], wireTx := [], wireRxCount := 0,
           results := [], recordLog := [] }
  callResult := none
  agenda := []
  slice := none

/-- The machine right after reset (R47, R241), of the build of log 2. -/
def State.reset : State := State.resetOf Config.resetBuild

end Sys2Proof.Machine
end

