-- ==== Sys2Proof/Machine/Mem.lean ====
section
/-! DEFINITION. The named operations over memory (R16 `MemRead`, `MemWrite`; R50, R56): one byte or a run of bytes in
ascending offset order (R57), each checked against the capacity of its space; and the sequencing of operations
that can stop. -/

namespace Sys2Proof.Machine

/-- An operation that answers an `α` or stops. -/
abbrev Out (α : Type) := Host.Outcome α Fault Refusal

/-- First `o`, then `f` on what it answers; a stop stays a stop. -/
def andThen {α β : Type} (o : Out α) (f : α → Out β) : Out β :=
  match o with
  | .next a => f a
  | .fault r => .fault r
  | .refused r => .refused r

/-- The byte at offset `a`, none if nothing has written it. -/
def memGet : Memory → Nat → Option Byte
  | [], _ => none
  | (x, v) :: rest, a => if a = x then some v else memGet rest a

/-- The memory with `b` at offset `a`, in canonical form if it was. -/
def memSet : Memory → Nat → Byte → Memory
  | [], a, b => [(a, b)]
  | (x, v) :: rest, a, b =>
    if a < x then (a, b) :: (x, v) :: rest
    else if a = x then (a, b) :: rest
    else (x, v) :: memSet rest a b

/-- `MemRead(space, a, 1)` (R16, R56). -/
def memRead (sp : Space) (cap : Nat) (m : Memory) (a : Nat) : Out Byte :=
  if a < cap then
    match memGet m a with
    | some b => .next b
    | none => .fault (.unwrittenCell sp a)
  else .fault (.outsideSpace sp a)

/-- `MemRead(space, a, n)`: the `n` bytes from offset `a`, lowest offset first (R16, R56). -/
def memReadRun (sp : Space) (cap : Nat) (m : Memory) (a : Nat) : Nat → Out (List Byte)
  | 0 => .next []
  | n + 1 =>
    andThen (memRead sp cap m a) fun b =>
      andThen (memReadRun sp cap m (a + 1) n) fun bs => .next (b :: bs)

/-- `MemWrite(space, a, 1, b)` (R16, R56). -/
def memWrite (sp : Space) (cap : Nat) (m : Memory) (a : Nat) (b : Byte) : Out Memory :=
  if a < cap then .next (memSet m a b) else .fault (.outsideSpace sp a)

/-- `MemWrite(space, a, |bs|, bs)`, lowest offset first (R16, R56). -/
def memWriteRun (sp : Space) (cap : Nat) (m : Memory) (a : Nat) : List Byte → Out Memory
  | [] => .next m
  | b :: bs => andThen (memWrite sp cap m a b) fun m' => memWriteRun sp cap m' (a + 1) bs

end Sys2Proof.Machine
end

