-- ==== Sys2Proof/Machine/Flags.lean ====
section
/-! DEFINITION. The combinational signals and flag computations: the gray code and the HRQ's full, empty and count
(40_hrq_async_fifo.md R101 to R107), the sink's space (R182), the trigger of a tick-started `FEED` (R87, R121), and
the numeric codes of the enumerations (R78 to R81). -/

namespace Sys2Proof.Machine

/-- R102: `gray(p) = p XOR (p >> 1)`. -/
def gray (p : Nat) : Nat := p ^^^ (p >>> 1)

/-- R102: the inverse of the gray code on `n` bits, `b[n-1] = g[n-1]` and `b[i] = b[i+1] XOR g[i]`; that is
`b = g XOR (b >> 1)`, unrolled `n` times. -/
def grayBin : Nat → Nat → Nat
  | 0, _ => 0
  | n + 1, g => g ^^^ grayBin n (g >>> 1)

/-- R101: `(p + 1) mod 2^n`. -/
def wrapSucc (n p : Nat) : Nat := (p + 1) % 2 ^ n

/-- R101: `(a - b) mod 2^n`. -/
def wrapSub (n a b : Nat) : Nat := (a + (2 ^ n - b % 2 ^ n)) % 2 ^ n

/-- R101: the true occupancy `(hrq_wbin - hrq_rbin) mod 2^N`. -/
def hrqOcc (aw : Nat) (h : Hrq) : Nat := wrapSub (aw + 1) h.wbin h.rbin

/-- R104: full, as the write domain sees it. -/
def hrqFull (aw : Nat) (h : Hrq) : Bool := h.wgray == h.wq2Rgray ^^^ (3 <<< (aw - 1))

/-- R106: empty, as the read domain sees it. -/
def hrqEmpty (h : Hrq) : Bool := h.rgray == h.rq2Wgray

/-- R107: the count of `available_to_read()`. -/
def hrqAvail (aw : Nat) (h : Hrq) : Nat := wrapSub (aw + 1) (grayBin (aw + 1) h.rq2Wgray) h.rbin

/-- R182: `SINK_CAP - |sink_q|`. -/
def sinkSpace (s : State) : Nat := s.build.sinkCap - s.bnd.sinkQ.length

/-- R84: `cmd_ready` is 0 while a command is in progress. -/
def cmdReady (s : State) : Bool := !s.ctl.mainBusy

/-- R121 (a), R87: the trigger of a tick-started `FEED`. -/
def feedTickEnabled (s : State) : Bool :=
  s.build.feedMode == .interrupt && s.ctl.feedPending && s.ctl.feedIe && !s.ctl.rxLock && !s.ctl.feedActive

/-- The `FEED` in progress is the control loop's own (a `FEED` command, or the inner one of `POLL_RECEIVE`). -/
def feedIsMains (s : State) : Bool := s.ctl.main == .feedRun || s.ctl.main == .pollFeed

/-- R108, "called by `FEED` only": a `FEED` is in progress, and the next thing it does is to pop a byte (R120, R124), not the
overflow's reset (R125). -/
def popIsNext (s : State) : Bool :=
  s.ctl.feedActive && hrqAvail s.build.hrqAw s.hrq != 0 && s.rx.head != s.build.rxCap

/-- What byte classes are decoded beside (R82): the build's token and the framing state. -/
def decodeCtx (s : State) : DecodeCtx := ⟨s.build.startToken, s.rx.state⟩

/-- R82, R87: the iteration of `POLL_RECEIVE` that comes next is of the byte class `i`. -/
def rxbEnabled (i : Instr) (s : State) : Bool :=
  s.ctl.main == .pollScan && decide (s.rx.tail < s.rx.head) &&
  (match memGet s.rx.buf s.rx.tail with
   | some b => classify (decodeCtx s) b == i
   | none => false)

/-- R78. -/
def rxStateCode : RxState → BitVec 2
  | .awaitStart => 0#2
  | .lengthHigh => 1#2
  | .lengthLow => 2#2
  | .body => 3#2

/-- R79. -/
def receiveCodeNumber : ReceiveCode → BitVec 3
  | .noDataAvailable => 0#3
  | .packetReceived => 1#3
  | .inProgress => 2#3
  | .messageExceedsBufferSize => 3#3
  | .deserializationFailed => 4#3

/-- R80. -/
def enqueueCodeNumber : EnqueueCode → BitVec 3
  | .success => 0#3
  | .docOverflow => 1#3
  | .insufficientTransmitRate => 2#3
  | .packetExceedsBufferSize => 3#3

/-- R81. -/
def diagCodeNumber : DiagEvent → BitVec 2
  | .incomingDataRateTooFast => 0#2
  | .insufficientReceiveRate => 1#2
  | .previousPacketIncomplete => 2#2
  | .deserializationFailed _ _ => 3#2

/-- R190: the data of a diagnostic event, none but for `DESERIALIZATION_FAILED`. -/
def diagData : DiagEvent → Option (DecodeError × List Byte)
  | .incomingDataRateTooFast => none
  | .insufficientReceiveRate => none
  | .previousPacketIncomplete => none
  | .deserializationFailed e raw => some (e, raw)

/-- R84: `rsp_code`, for the commands that return a code. -/
def rspCode : Response → Option (BitVec 3)
  | .pollReceive c => some (receiveCodeNumber c)
  | .enqueue c => some (enqueueCodeNumber c)
  | .drain _ => none
  | .diagAppend _ => none
  | .diagEnqueue c => some (enqueueCodeNumber c)

/-- R84: `rsp_count`, of `DRAIN`. -/
def rspCount : Response → Option Nat
  | .pollReceive _ => none
  | .enqueue _ => none
  | .drain n => some n
  | .diagAppend _ => none
  | .diagEnqueue _ => none

/-- R84: `rsp_flag`, of `DIAG_APPEND`. -/
def rspFlag : Response → Option Bool
  | .pollReceive _ => none
  | .enqueue _ => none
  | .drain _ => none
  | .diagAppend f => some f
  | .diagEnqueue _ => none

/-- R86 lists the pin `rx_record_valid` and gives it no meaning. DESIGN CHOICE (log 25): its level says that `rx_record` holds a
record; it is no strobe for a new one. -/
def rxRecordValid (s : State) : Bool := s.rx.record.isSome

end Sys2Proof.Machine
end

