-- ==== Sys2Proof/Machine/Operands.lean ====
section
/-! DEFINITION. The operand forms: the codec's functions as the build fixes them (R12, R199), and the two named steps in which the
receiver assembles the 16-bit length (R72, R146, R147). A frame's bytes are `frameBytes` of Decode.lean (R70). -/

namespace Sys2Proof.Machine

/-- R12: `encode` as the build's codec gives it, before the contract on its length. -/
def encodeRaw (b : Build) (r : Record) : EncodeResult :=
  match b.codec with
  | .platform => Config.platformEncode r
  | .vectors => Config.vectorsEncode r
  | .table enc _ _ => (enc.lookup r).getD (Config.platformEncode r)

/-- R12: `encode`; a returned byte string has at most `ENC_SCRATCH_CAP` bytes, and one that would be longer "did not
fit its own scratch capacity" (R171; log 4). -/
def encodeRecord (b : Build) (r : Record) : EncodeResult :=
  match encodeRaw b r with
  | .ok p => if p.length ≤ b.encScratchCap then .ok p else .didNotFit
  | .didNotFit => .didNotFit
  | .other c => .other c

/-- R12: `decode`. -/
def decodePayload (b : Build) (p : List Byte) : DecodeResult :=
  match b.codec with
  | .platform => Config.platformDecode p
  | .vectors => Config.vectorsDecode p
  | .table _ dec _ => (dec.lookup p).getD (Config.platformDecode p)

/-- R199: `diag_record`. -/
def diagRecord (b : Build) (t : List Byte) : Record :=
  match b.codec with
  | .platform => Config.platformDiagRecord t
  | .vectors => Config.vectorsDiagRecord t
  | .table _ _ diag => (diag.lookup t).getD (Config.platformDiagRecord t)

/-- R146: `message_length[15:8] <- b`, the low byte as it was. -/
def setLengthHigh (old : Len16) (b : Byte) : Len16 := b ++ old.extractLsb' 0 8

/-- R147: `message_length[7:0] <- b`, the high byte as it was. -/
def setLengthLow (old : Len16) (b : Byte) : Len16 := old.extractLsb' 8 8 ++ b

end Sys2Proof.Machine
end

