-- ==== Sys2Proof/Machine/Ops.lean ====
section
/-! DEFINITION. The shared operations of the MFE's units, from which every meaning is built: the HRQ's edges, the feeder's lines, the
byte classes, `ENQUEUE`, `DRAIN`, the sink, the diagnostic buffer, and the lines of the control loop's command in
progress. What takes the place of an exception (R210, R218, R219) is here once: raising a diagnostic event, returning a
result code, and the start and end of a `FEED`. -/

namespace Sys2Proof.Machine

/-! ### Diagnostic events, results, the command in progress -/

/-- R190: `diag(code, data)` appends the event to `diag_log` and changes nothing else. -/
def raiseDiag (e : DiagEvent) (s : State) : State :=
  { s with bnd := { s.bnd with diagLog := s.bnd.diagLog ++ [e] } }

/-- R84, R45: the response of a command is returned to the control loop. -/
def respond (r : Response) (s : State) : State :=
  { s with bnd := { s.bnd with results := s.bnd.results ++ [r] } }

/-- R84, R39: a command is accepted and stands at its first line. -/
def acceptCommand (m : MainPhase) (s : State) : State :=
  { s with ctl := { s.ctl with mainBusy := true, main := m } }

/-- The command in progress stands at another of its lines. -/
def setMain (m : MainPhase) (s : State) : State := { s with ctl := { s.ctl with main := m } }

/-- R84, R39: the command in progress is complete. -/
def commandDone (s : State) : State :=
  { s with ctl := { s.ctl with mainBusy := false, main := .idle } }

/-! ### HRQ (40_hrq_async_fifo.md) -/

/-- R111: a `clk_w` edge: the write domain samples the read pointer. -/
def wsyncEdge (h : Hrq) : Hrq := { h with wq2Rgray := h.wq1Rgray, wq1Rgray := h.rgray }

/-- R109: a `clk` edge: the read domain samples the write pointer. -/
def rsyncEdge (h : Hrq) : Hrq := { h with rq2Wgray := h.rq1Wgray, rq1Wgray := h.wgray }

/-- R105: a byte arrives at a `clk_w` edge; all writes simultaneous, together with R111. -/
def pushEdge (aw : Nat) (b : Byte) (h : Hrq) : Hrq :=
  if hrqFull aw h then { wsyncEdge h with lost := true }
  else
    { wsyncEdge h with
      mem := memSet h.mem (h.wbin % 2 ^ aw) b
      wbin := wrapSucc (aw + 1) h.wbin
      wgray := gray (wrapSucc (aw + 1) h.wbin) }

/-- R108: a byte is popped at a `clk` edge; all writes simultaneous, together with R109. Refused when the read side
sees the queue empty (U2). -/
def popEdge (aw : Nat) (h : Hrq) : Out (Byte × Hrq) :=
  if hrqEmpty h then .refused .popOnEmpty
  else
    andThen (memRead .hrqMem (2 ^ aw) h.mem (h.rbin % 2 ^ aw)) fun b =>
      .next (b, { rsyncEdge h with
                  rbin := wrapSucc (aw + 1) h.rbin
                  rgray := gray (wrapSucc (aw + 1) h.rbin) })

/-- R105: the push as a step of the machine; `wire_rx_count` counts every arrival (R44). -/
def wirePush (b : Byte) (s : State) : State :=
  { s with
    hrq := pushEdge s.build.hrqAw b s.hrq
    bnd := { s.bnd with wireRxCount := s.bnd.wireRxCount + 1 } }

/-- Bytes that arrive back to back, one at each `clk_w` edge (R70, R105). -/
def wirePushAll : List Byte → State → State
  | [], s => s
  | b :: bs, s => wirePushAll bs (wirePush b s)

/-! ### FEED (41_rx_feeder.md) -/

/-- R120, R123, R218: the start of a `FEED`: `feed_active <- 1` and the watermark test, once. -/
def feedStart (s : State) : State :=
  let s1 := { s with ctl := { s.ctl with feedActive := true } }
  if s.build.hrqWatermark ≤ hrqAvail s.build.hrqAw s.hrq then raiseDiag .insufficientReceiveRate s1 else s1

/-- R120, R219: the end of a `FEED`. -/
def feedEnd (s : State) : State := { s with ctl := { s.ctl with feedActive := false } }

/-- R125: overflow, tested before each byte: the event, both offsets to 0, the framing state and the indicator reset. -/
def feedMakeRoom (s : State) : State :=
  if s.rx.head = s.build.rxCap then
    let s1 := raiseDiag .incomingDataRateTooFast s
    { s1 with rx := { s1.rx with tail := 0, head := 0, state := .awaitStart, active := false } }
  else s

/-- R124: one byte moves from HRQ to `rx_buf[rx_head]`. -/
def feedMove (s : State) : Out State :=
  andThen (popEdge s.build.hrqAw s.hrq) fun p =>
    andThen (memWrite .rxBuf s.build.rxCap s.rx.buf s.rx.head p.1) fun m =>
      .next { s with hrq := p.2, rx := { s.rx with buf := m, head := s.rx.head + 1 } }

/-- One line of a `FEED` in progress (R120, R126): the loop test, and either one byte moved or the end. -/
def feedLine (s : State) : Out State :=
  if hrqAvail s.build.hrqAw s.hrq = 0 then .next (feedEnd s) else feedMove (feedMakeRoom s)

/-- R108, "called by `FEED` only": a pop as a step of its own is the next line of the `FEED` in progress, whichever agent runs it,
if that line does nothing but pop and store, and answers the byte; it is refused on an empty queue, and otherwise no such step
takes place (log 11, log 12). So it raises no event (R191): the overflow's is raised by the line of the `FEED` itself. -/
def onPop (s : State) : Out State :=
  if hrqEmpty s.hrq then .refused .popOnEmpty
  else if popIsNext s then
    andThen (popEdge s.build.hrqAw s.hrq) fun p =>
      andThen (feedMove s) fun t => .next { t with callResult := some (.byte p.1) }
  else .next s

/-- At most `n` lines of the `FEED` in progress. -/
def feedLines : Nat → State → Out State
  | 0, s => .next s
  | n + 1, s => if s.ctl.feedActive then andThen (feedLine s) (feedLines n) else .next s

/-! ### POLL_RECEIVE (42_rx_framing.md) -/

/-- R141 (1): the lock is taken; in `INTERRUPT` mode the feed interrupt is disabled. -/
def pollLock (s : State) : State :=
  { s with ctl := { s.ctl with
      rxLock := true
      feedIe := if s.build.feedMode = .interrupt then false else s.ctl.feedIe } }

/-- R142: every return of `POLL_RECEIVE`: the lock is released, in `INTERRUPT` mode the feed interrupt is enabled, and the
code is returned. -/
def pollReturn (c : ReceiveCode) (s : State) : State :=
  respond (.pollReceive c)
    { s with
      ctl := { s.ctl with
        rxLock := false
        feedIe := if s.build.feedMode = .interrupt then true else s.ctl.feedIe
        mainBusy := false
        main := .idle }
      bnd := { s.bnd with recordLog := s.bnd.recordLog ++ [s.rx.record] } }

/-- R144 `RXB.TOKEN`. -/
def rxToken (s : State) : State :=
  let s1 := if s.rx.state = .awaitStart then s else raiseDiag .previousPacketIncomplete s
  { s1 with rx := { s1.rx with state := .lengthHigh, active := true, tail := s1.rx.tail + 1 } }

/-- R145 `RXB.SKIP`. -/
def rxSkip (s : State) : State := { s with rx := { s.rx with tail := s.rx.tail + 1 } }

/-- R146 `RXB.LENH`. -/
def rxLenH (b : Byte) (s : State) : State :=
  { s with rx := { s.rx with
      messageLength := setLengthHigh s.rx.messageLength b
      state := .lengthLow
      tail := s.rx.tail + 1 } }

/-- R147 `RXB.LENL`: the length is complete; a length above `RX_CAP` discards everything and returns. -/
def rxLenL (b : Byte) (s : State) : State :=
  let len := setLengthLow s.rx.messageLength b
  if s.build.rxCap < len.toNat then
    pollReturn .messageExceedsBufferSize
      { s with rx := { s.rx with messageLength := len, tail := 0, head := 0, state := .awaitStart, active := false } }
  else
    { s with rx := { s.rx with
        messageLength := len
        tail := s.rx.tail + 1
        messageStart := s.rx.tail + 1
        state := .body } }

/-- R149: recycle if drained, then decode the payload window and return. -/
def rxDeliver (payload : List Byte) (s : State) : State :=
  let rx1 := { s.rx with state := .awaitStart, active := false }
  let rx2 := if rx1.tail = rx1.head then { rx1 with tail := 0, head := 0 } else rx1
  match decodePayload s.build payload with
  | .ok r => pollReturn .packetReceived { s with rx := { rx2 with record := some r } }
  | .err e =>
    pollReturn .deserializationFailed (raiseDiag (.deserializationFailed e payload) { s with rx := rx2 })

/-- R148: the end of the payload, `message_start + message_length`, a natural that may exceed `RX_CAP` (R65). -/
def payloadEnd (s : State) : Nat := s.rx.messageStart + s.rx.messageLength.toNat

/-- R148 `RXB.BODY`: `rx_tail` jumps to the end of the payload or of the buffered bytes; a complete frame is
delivered (R149). -/
def rxBody (s : State) : Out State :=
  let s1 := { s with rx := { s.rx with tail := min (payloadEnd s) s.rx.head } }
  if s1.rx.tail < payloadEnd s then .next (pollReturn .inProgress s1)
  else
    andThen (memReadRun .rxBuf s.build.rxCap s.rx.buf s.rx.messageStart s.rx.messageLength.toNat)
      fun payload => .next (rxDeliver payload s1)

/-- R82, R151: one iteration on the inspected byte. -/
def rxIterate (b : Byte) (s : State) : Out State :=
  if b = s.build.startToken then .next (rxToken s)
  else match s.rx.state with
    | .awaitStart => .next (rxSkip s)
    | .lengthHigh => .next (rxLenH b s)
    | .lengthLow => .next (rxLenL b s)
    | .body => rxBody s

/-- R143, R151: one line of the loop: the loop test, then the byte at `rx_tail`; a loop that ends returns `InProgress`. -/
def scanLine (s : State) : Out State :=
  if s.rx.tail < s.rx.head then
    andThen (memRead .rxBuf s.build.rxCap s.rx.buf s.rx.tail) fun b => rxIterate b s
  else .next (pollReturn .inProgress s)

/-- R87, R82: a byte class as a step of its own: the next iteration of the `POLL_RECEIVE` in progress, if it is of that
class; otherwise no such step takes place (log 11). -/
def onIteration (i : Instr) (act : State → Out State) (s : State) : Out State :=
  if rxbEnabled i s then act s else .next s

/-! ### ENQUEUE, DRAIN, the sink (43_tx_queue.md) -/

/-- R50, R170: `encode` leaves the payload in `enc_scratch`. -/
def scratchPayload (p : List Byte) (s : State) : Out State :=
  andThen (memWriteRun .encScratch s.build.encScratchCap s.tx.encScratch 0 p) fun m =>
    .next { s with tx := { s.tx with encScratch := m } }

/-- R36, R171 (log 15): after an `encode` that did not fit, the contents of `enc_scratch` are unspecified. -/
def scratchUnspecified (s : State) : State := { s with tx := { s.tx with encScratch := [] } }

/-- R172, R173: the space test and the frame written at `tx_head`, its payload copied from `enc_scratch` (R50); `n` is the
payload's length. -/
def enqueuePayload (n : Nat) (s : State) : Out (State × EnqueueCode) :=
  if s.build.txCap - s.tx.head < n + 3 then
    if s.tx.tail < s.tx.head then .next (s, .insufficientTransmitRate)
    else .next (s, .packetExceedsBufferSize)
  else
    andThen (memReadRun .encScratch s.build.encScratchCap s.tx.encScratch 0 n) fun p =>
      andThen (memWriteRun .txBuf s.build.txCap s.tx.buf s.tx.head (frameBytes s.build.startToken p)) fun m =>
        .next ({ s with tx := { s.tx with buf := m, head := s.tx.head + (n + 3) } }, .success)

/-- R170: the whole of `ENQUEUE r`. -/
def enqueueRecord (r : Record) (s : State) : Out (State × EnqueueCode) :=
  match encodeRecord s.build r with
  | .didNotFit => .next (scratchUnspecified s, .docOverflow)
  | .other c => .refused (.encodeErrorNotDescribed c)
  | .ok p => andThen (scratchPayload p s) (enqueuePayload p.length)

/-- R183: `write(bytes) -> count_written` of the sink. -/
def sinkAccept (bytes : List Byte) (s : State) : State × Nat :=
  let k := min bytes.length (sinkSpace s)
  ({ s with bnd := { s.bnd with sinkQ := s.bnd.sinkQ ++ bytes.take k } }, k)

/-- R177: `tx_tail` advances by what the sink took; both offsets return to 0 when the buffer is drained. -/
def txAdvance (w : Nat) (s : State) : State :=
  if s.tx.tail + w = s.tx.head then { s with tx := { s.tx with tail := 0, head := 0 } }
  else { s with tx := { s.tx with tail := s.tx.tail + w } }

/-- R175: the whole of `DRAIN`, with the count of bytes still pending. -/
def drainOnce (s : State) : Out (State × Nat) :=
  let n := min (sinkSpace s) (s.tx.head - s.tx.tail)
  andThen (memReadRun .txBuf s.build.txCap s.tx.buf s.tx.tail n) fun bytes =>
    let r := sinkAccept bytes s
    let s2 := txAdvance r.2 r.1
    .next (s2, s2.tx.head - s2.tx.tail)

/-! ### The diagnostic channel (44_diag_boundary.md) -/

/-- R192, R193: the stored text after `append`. -/
def appendText (cap : Nat) (marker old t : List Byte) : List Byte :=
  if old.length + t.length ≤ cap then old ++ t else (old ++ t).take (cap - marker.length) ++ marker

/-- R192: the whole of `DIAG_APPEND t`, with the fit flag. -/
def diagAppendText (t : List Byte) (s : State) : State × Bool :=
  ({ s with bnd := { s.bnd with
      diagBuf := appendText s.build.diagCap s.build.truncMarker s.bnd.diagBuf t } },
   decide (s.bnd.diagBuf.length + t.length ≤ s.build.diagCap))

/-- R194, R196: the pending message is cleared. -/
def diagClear (s : State) : State := { s with bnd := { s.bnd with diagBuf := [] } }

/-- R194: the whole of `DIAG_ENQUEUE`; the buffer is cleared whatever the code. -/
def diagEnqueueRecord (s : State) : Out (State × EnqueueCode) :=
  andThen (enqueueRecord (diagRecord s.build s.bnd.diagBuf) s) fun p => .next (diagClear p.1, p.2)

/-- R196: the first lines of `EMIT_NOW t`, up to the packet; refused when `encode` fails (U4). -/
def emitPrepare (t : List Byte) (s : State) : Out State :=
  let s1 := (diagAppendText t s).1
  match encodeRecord s1.build (diagRecord s1.build s1.bnd.diagBuf) with
  | .ok p =>
    andThen (scratchPayload p (diagClear s1)) fun s2 =>
      .next (acceptCommand (.emitDrain (frameBytes s2.build.startToken p)) s2)
  | .didNotFit => .refused .emitNowEncodeFailed
  | .other _ => .refused .emitNowEncodeFailed

/-- R196, one iteration of phase 2: as many of the packet's bytes as the sink takes now. -/
def emitWrite (rest : List Byte) (s : State) : State :=
  let r := sinkAccept (rest.take (min (sinkSpace s) rest.length)) s
  setMain (.emitSend (rest.drop r.2)) r.1

/-! ### The control loop's command in progress (R11 `A_MAIN`, R39, R227) -/

/-- One line of the command in progress: of `FEED` (R120), `POLL_RECEIVE` (R151) or `EMIT_NOW` (R196). A command that waits
or spins stays as it is. -/
def mainLine (s : State) : Out State :=
  match s.ctl.main with
  | .idle => .next s
  | .feedWait =>
    if s.ctl.feedActive || s.ctl.rxLock then .next s else .next (setMain .feedRun (feedStart s))
  | .feedRun =>
    andThen (feedLine s) fun s1 => .next (if s1.ctl.feedActive then s1 else commandDone s1)
  | .pollWait =>
    if s.ctl.feedActive then .next s
    else if s.build.feedMode = .poll then .next (setMain .pollFeed (feedStart (pollLock s)))
    else .next (setMain .pollTest (pollLock s))
  | .pollFeed =>
    andThen (feedLine s) fun s1 => .next (if s1.ctl.feedActive then s1 else setMain .pollTest s1)
  | .pollTest =>
    if s.rx.tail = s.rx.head then .next (pollReturn .noDataAvailable s) else .next (setMain .pollScan s)
  | .pollScan => scanLine s
  | .emitDrain packet =>
    if s.tx.tail < s.tx.head then andThen (drainOnce s) fun p => .next p.1
    else .next (setMain (.emitSend packet) s)
  | .emitSend rest => if rest = [] then .next (commandDone s) else .next (emitWrite rest s)

/-- R183: the bytes that the `EMIT_NOW` in progress hands to `write` in its next line, in the `DRAIN` of phase 1 or in phase 2; none
where that line calls no `write`. -/
def nextWrite (s : State) : Option (List Byte) :=
  match s.ctl.main with
  | .emitDrain _ =>
    if s.tx.tail < s.tx.head then
      match memReadRun .txBuf s.build.txCap s.tx.buf s.tx.tail (min (sinkSpace s) (s.tx.head - s.tx.tail)) with
      | .next bytes => some bytes
      | .fault _ => none
      | .refused _ => none
    else none
  | .emitSend rest => if rest = [] then none else some (rest.take (min (sinkSpace s) rest.length))
  | .idle | .feedWait | .feedRun | .pollWait | .pollFeed | .pollTest | .pollScan => none

/-- R183, "Started by `DRAIN` and `EMIT_NOW` only": a write of `bytes` as a step of its own is the next line of the `EMIT_NOW` in
progress, if `bytes` are what that line writes; otherwise no such step takes place (log 11, log 12). The write of a `DRAIN`
command is inside that command's one line. -/
def onWrite (bytes : List Byte) (s : State) : Out State :=
  if nextWrite s = some bytes then
    andThen (mainLine s) fun t => .next { t with callResult := some (.written bytes.length) }
  else .next s

/-- At most `n` lines of the command in progress. -/
def mainLines : Nat → State → Out State
  | 0, s => .next s
  | n + 1, s => if s.ctl.mainBusy then andThen (mainLine s) (mainLines n) else .next s

/-- Lines that are enough for any `FEED` to reach its end: each line but the last pops a byte, and no pop makes more than
`2^N` bytes visible besides the two edges its samples take (R107, R109, R126). -/
def feedFuel (b : Build) : Nat := 2 ^ (b.hrqAw + 1) + 3

/-- Lines that are enough for a command to reach its end, or the point at which it waits for another agent (R227). -/
def mainFuel (s : State) : Nat := feedFuel s.build + s.build.rxCap + s.rx.head + 8

/-- The lines that the running operation may take: the schedule's, or `enough`. -/
def lines (s : State) (enough : Nat) : Nat := s.slice.getD enough

/-- R84: a command is taken only when `cmd_ready = 1`; otherwise nothing changes (log 11). -/
def whenReady (act : State → Out State) (s : State) : Out State := if cmdReady s then act s else .next s

/-- A command of several lines: accepted at `m`, then run for its lines. -/
def runCommand (m : MainPhase) (s : State) : Out State :=
  mainLines (lines s (mainFuel s)) (acceptCommand m s)

end Sys2Proof.Machine
end

