-- ==== Sys2Proof/Machine/Diag.lean ====
section
/-! DEFINITION. The meanings of the diagnostic boundary's family (44_diag_boundary.md): `DIAG_APPEND`, `DIAG_ENQUEUE`, `EMIT_NOW`. -/

namespace Sys2Proof.Machine

/-- `DIAG_APPEND t` (R192). -/
def execDiagAppend (t : List Byte) (s : State) : Out State :=
  whenReady (fun s => .next (respond (.diagAppend (diagAppendText t s).2) (diagAppendText t s).1)) s

/-- `DIAG_ENQUEUE` (R194). -/
def execDiagEnqueue (s : State) : Out State :=
  whenReady (fun s => andThen (diagEnqueueRecord s) fun p => .next (respond (.diagEnqueue p.2) p.1)) s

/-- `EMIT_NOW t` (R195, R196): up to the packet, then for its lines; while the sink is full the command stays in
progress (R197). -/
def execEmitNow (t : List Byte) (s : State) : Out State :=
  whenReady (fun s => andThen (emitPrepare t s) fun s1 => mainLines (lines s1 (mainFuel s1)) s1) s

end Sys2Proof.Machine
end

