-- ==== Sys2Proof/Machine/Feeder.lean ====
section
/-! DEFINITION. The meanings of the feeder family (41_rx_feeder.md): the `FEED` command and the tick-started `FEED`. -/

namespace Sys2Proof.Machine

/-- `FEED` as a command (R120, R121 case c): it waits for `rx_lock = 0` and `feed_active = 0`, then runs. -/
def execFeed (s : State) : Out State := whenReady (runCommand .feedWait) s

/-- R121 case a, R218: the start of a tick-started `FEED` clears `feed_pending`. -/
def feedTickStart (s : State) : State :=
  feedStart { s with ctl := { s.ctl with feedPending := false } }

/-- `FEED.TICK` (R121 case a): when its trigger stands, the `FEED` starts and runs; otherwise no `FEED` starts. -/
def execFeedTick (s : State) : Out State :=
  if feedTickEnabled s then feedLines (lines s (feedFuel s.build)) (feedTickStart s) else .next s

end Sys2Proof.Machine
end

