-- ==== Sys2Proof/Machine/Framing.lean ====
section
/-! DEFINITION. The meanings of the framing family (42_rx_framing.md): `POLL_RECEIVE` and the five byte classes, each of them one
iteration of the `POLL_RECEIVE` in progress. -/

namespace Sys2Proof.Machine

/-- `POLL_RECEIVE` (R140, R151). -/
def execPollReceive (s : State) : Out State := whenReady (runCommand .pollWait) s

/-- `RXB.TOKEN` (R144). -/
def execRxbToken (s : State) : Out State := onIteration .rxbToken (fun s => .next (rxToken s)) s

/-- `RXB.SKIP` (R145). -/
def execRxbSkip (b : Byte) (s : State) : Out State := onIteration (.rxbSkip b) (fun s => .next (rxSkip s)) s

/-- `RXB.LENH` (R146). -/
def execRxbLenH (h : Byte) (s : State) : Out State := onIteration (.rxbLenH h) (fun s => .next (rxLenH h s)) s

/-- `RXB.LENL` (R147). -/
def execRxbLenL (l : Byte) (s : State) : Out State := onIteration (.rxbLenL l) (fun s => .next (rxLenL l s)) s

/-- `RXB.BODY` (R148, R149). -/
def execRxbBody (p : Byte) (s : State) : Out State := onIteration (.rxbBody p) rxBody s

end Sys2Proof.Machine
end

