-- ==== Sys2Proof/Machine/Hrq.lean ====
section
/-! DEFINITION. The meanings of the HRQ family (40_hrq_async_fifo.md) and of the wire format `FRAME` (R70). -/

namespace Sys2Proof.Machine

/-- `HRQ.PUSH b` (R105), at a `clk_w` edge, with R111. -/
def execHrqPush (b : Byte) (s : State) : Out State := .next (wirePush b s)

/-- `HRQ.WSYNC` (R111). -/
def execHrqWsync (s : State) : Out State := .next { s with hrq := wsyncEdge s.hrq }

/-- `HRQ.RSYNC` (R109). -/
def execHrqRsync (s : State) : Out State := .next { s with hrq := rsyncEdge s.hrq }

/-- `HRQ.AVAIL` (R107) as a step of its own: reads only, and answers the count. -/
def execHrqAvail (s : State) : Out State :=
  .next { s with callResult := some (.avail (hrqAvail s.build.hrqAw s.hrq)) }

/-- `HRQ.POP` (R108) at a `clk` edge, with R109: the pop of the `FEED` in progress, with the byte stored (R124); refused on an
empty queue. -/
def execHrqPop (s : State) : Out State := onPop s

/-- `FRAME` (R70, log 13): the frame's bytes arrive at the write port in wire order, one at each `clk_w` edge. -/
def execFrame (payload : List Byte) (s : State) : Out State :=
  .next (wirePushAll (frameBytes s.build.startToken payload) s)

end Sys2Proof.Machine
end

