-- ==== Sys2Proof/Machine/System.lean ====
section
/-! DEFINITION. The meanings of `NOP` (R85), `TICK` (R214) and `RESET` (R240). -/

namespace Sys2Proof.Machine

/-- `NOP` (R85): accepted and completed, no response, no change of any state. -/
def execNop (s : State) : Out State := .next s

/-- `TICK` (R214): `feed_pending <- 1` in `INTERRUPT` mode; in `POLL` mode the pin is ignored. -/
def execTick (s : State) : Out State :=
  if s.build.feedMode = .interrupt then .next { s with ctl := { s.ctl with feedPending := true } } else .next s

/-- `RESET` (R240): the whole state is replaced by the reset state of the same build; the schedule, which is the
environment's and not the MFE's, goes on (log 16). -/
def execReset (s : State) : Out State :=
  .next { State.resetOf s.build with agenda := s.agenda, slice := s.slice }

end Sys2Proof.Machine
end

