-- ==== Sys2Proof/Machine/Transmit.lean ====
section
/-! DEFINITION. The meanings of the transmit family (43_tx_queue.md): `ENQUEUE`, `DRAIN` and the sink's three operations. -/

namespace Sys2Proof.Machine

/-- `ENQUEUE r` (R170). -/
def execEnqueue (r : Record) (s : State) : Out State :=
  whenReady (fun s => andThen (enqueueRecord r s) fun p => .next (respond (.enqueue p.2) p.1)) s

/-- `DRAIN` (R175). -/
def execDrain (s : State) : Out State :=
  whenReady (fun s => andThen (drainOnce s) fun p => .next (respond (.drain p.2) p.1)) s

/-- `SINK.SPACE` (R182) as a step of its own: reads only, and answers the space. -/
def execSinkSpace (s : State) : Out State := .next { s with callResult := some (.space (sinkSpace s)) }

/-- `SINK.WRITE bytes` (R183), the write that the `EMIT_NOW` in progress makes next; answers how many bytes the sink took. -/
def execSinkWrite (bytes : List Byte) (s : State) : Out State := onWrite bytes s

/-- `SINK.POP` (R184): the front byte leaves for the wire; with an empty queue no such step takes place. -/
def execSinkPop (s : State) : Out State :=
  match s.bnd.sinkQ with
  | [] => .next s
  | b :: rest => .next { s with bnd := { s.bnd with sinkQ := rest, wireTx := s.bnd.wireTx ++ [b] } }

end Sys2Proof.Machine
end

