-- ==== Sys2Proof/Machine/Dispatch.lean ====
section
/-! DEFINITION. exec: one arm for each operation, each a direct call of its meaning. -/

namespace Sys2Proof.Machine

def exec (i : Instr) (s : State) : Host.Outcome State Fault Refusal :=
  match i with
  | .nop => Sys2Proof.Machine.execNop s
  | .feed => Sys2Proof.Machine.execFeed s
  | .pollReceive => Sys2Proof.Machine.execPollReceive s
  | .enqueue r => Sys2Proof.Machine.execEnqueue r s
  | .drain => Sys2Proof.Machine.execDrain s
  | .diagAppend t => Sys2Proof.Machine.execDiagAppend t s
  | .diagEnqueue => Sys2Proof.Machine.execDiagEnqueue s
  | .emitNow t => Sys2Proof.Machine.execEmitNow t s
  | .rxbToken => Sys2Proof.Machine.execRxbToken s
  | .rxbSkip b => Sys2Proof.Machine.execRxbSkip b s
  | .rxbLenH h => Sys2Proof.Machine.execRxbLenH h s
  | .rxbLenL l => Sys2Proof.Machine.execRxbLenL l s
  | .rxbBody p => Sys2Proof.Machine.execRxbBody p s
  | .hrqPush b => Sys2Proof.Machine.execHrqPush b s
  | .hrqWsync => Sys2Proof.Machine.execHrqWsync s
  | .hrqRsync => Sys2Proof.Machine.execHrqRsync s
  | .hrqAvail => Sys2Proof.Machine.execHrqAvail s
  | .hrqPop => Sys2Proof.Machine.execHrqPop s
  | .tick => Sys2Proof.Machine.execTick s
  | .feedTick => Sys2Proof.Machine.execFeedTick s
  | .sinkSpace => Sys2Proof.Machine.execSinkSpace s
  | .sinkWrite bytes => Sys2Proof.Machine.execSinkWrite bytes s
  | .sinkPop => Sys2Proof.Machine.execSinkPop s
  | .reset => Sys2Proof.Machine.execReset s
  | .frame payload => Sys2Proof.Machine.execFrame payload s

end Sys2Proof.Machine
end

