-- ==== Sys2Proof/Machine/Schedule.lean ====
section
/-! DEFINITION. The schedule of agents (R11, R48) as the machine takes it: one turn at a time, what a turn does, and how a port
word is placed so that the next step takes it. -/

namespace Sys2Proof.Machine

/-- The state in which a turn is taken: the turn is gone from the schedule, and its lines are granted. -/
def takeTurn (rest : List Turn) (slice : Option Nat) (s : State) : State := { s with agenda := rest, slice := slice }

/-- A port word is decoded beside the token and the framing state (R82), and its operation runs. -/
def runWord (word : List Byte) (s : State) : Out State :=
  match decode (decodeCtx s) word with
  | .ok i => exec i s
  | .error why => .refused (.notAnOperation why)

/-- `A_MAIN` goes on with its command in progress (R11); with none, nothing happens. -/
def runMain (s : State) : Out State := mainLines (lines s (mainFuel s)) s

/-- `A_FEED` goes on with the tick-started `FEED` in progress (R11, R122); with none, nothing happens. -/
def runFeed (s : State) : Out State :=
  if feedIsMains s then .next s else feedLines (lines s (feedFuel s.build)) s

/-- One turn of the schedule; with none left, nothing happens (log 9). -/
def runTurn (s : State) : Out State :=
  match s.agenda with
  | [] => .next s
  | .offer word slice :: rest => runWord word (takeTurn rest slice s)
  | .resumeMain slice :: rest => runMain (takeTurn rest slice s)
  | .resumeFeed slice :: rest => runFeed (takeTurn rest slice s)

/-- The word stands at its port at the next turn, and its operation may run to its end. -/
def placeTurn (word : List Byte) (s : State) : State := { s with agenda := .offer word none :: s.agenda }

/-- What `FEED.TICK` needs (R121): the four trigger bits at the levels of its word, in `INTERRUPT` mode. -/
def armFeedTick (s : State) : State :=
  { s with
    build := { s.build with feedMode := .interrupt }
    ctl := { s.ctl with feedPending := true, feedIe := true, rxLock := false, feedActive := false } }

/-- What a byte class needs (R82): a `POLL_RECEIVE` in its loop, with `b` the one byte to inspect and no frame open. -/
def armByteClass (b : Byte) (s : State) : State :=
  pollLock (acceptCommand .pollScan
    { s with rx := { s.rx with
        buf := memSet s.rx.buf s.rx.tail b
        head := s.rx.tail + 1
        state := .awaitStart
        active := false } })

/-- A word of spec/opcode_table.json placed so that the next step takes it, with what its operation needs (log 8). -/
def placeTableWord (nbits w : Nat) (s : State) : State :=
  placeTurn (tablePortWord nbits w)
    (if nbits ≤ 8 then
      if w < 8 then s
      else if w = 0xC then armFeedTick s
      else armByteClass (BitVec.ofNat 8 w) s
    else s)

end Sys2Proof.Machine
end

