-- ==== Sys2Proof/Safety.lean ====
section
/-! DEFINITION. What counts as a safe state of the MFE (10_state.md R25, R49; 60_exceptions.md R216), and the views of a state in which
claims are stated: the bytes queued in HRQ, the bytes on their way to the wire, the abstract queue of R113, and a run that
polls after each piece of a frame (R160). -/

namespace Sys2Proof.Machine

/-! ### HRQ -/

/-- The counts behind the HRQ's registers (R25): how many bytes were ever popped and accepted (`r`, `w`), and the earlier values
of those counts that stand in the synchronisers (`r1`, `r2` in the write domain, `w1`, `w2` in the read domain). -/
structure HrqCounts where
  r2 : Nat
  r1 : Nat
  r : Nat
  w2 : Nat
  w1 : Nat
  w : Nat

/-- R25, R110: the registers are those counts modulo `2^N`, in gray code where R23 and R24 say so; a synchroniser's value is
not newer than what it samples; the queue holds at most its depth, as either side sees it; and every queued cell has
been written. -/
structure HrqMatches (aw : Nat) (h : Hrq) (c : HrqCounts) : Prop where
  r2_le : c.r2 ≤ c.r1
  r1_le : c.r1 ≤ c.r
  r_le : c.r ≤ c.w2
  w2_le : c.w2 ≤ c.w1
  w1_le : c.w1 ≤ c.w
  w_le : c.w ≤ c.r2 + 2 ^ aw
  wbin : h.wbin = c.w % 2 ^ (aw + 1)
  wgray : h.wgray = gray (c.w % 2 ^ (aw + 1))
  wq1 : h.wq1Rgray = gray (c.r1 % 2 ^ (aw + 1))
  wq2 : h.wq2Rgray = gray (c.r2 % 2 ^ (aw + 1))
  rbin : h.rbin = c.r % 2 ^ (aw + 1)
  rgray : h.rgray = gray (c.r % 2 ^ (aw + 1))
  rq1 : h.rq1Wgray = gray (c.w1 % 2 ^ (aw + 1))
  rq2 : h.rq2Wgray = gray (c.w2 % 2 ^ (aw + 1))
  written : ∀ j < c.w - c.r, (memGet h.mem ((c.r + j) % 2 ^ aw)).isSome
  memWf : Memory.wf h.mem = true
  memWithin : ∀ x ∈ h.mem, x.1 < 2 ^ aw

/-- R25: some counts stand behind the registers. -/
def HrqInv (aw : Nat) (h : Hrq) : Prop := ∃ c, HrqMatches aw h c

/-- The bytes accepted and not yet popped, oldest first (R60, R110). -/
def hrqContents (aw : Nat) (h : Hrq) : List Byte :=
  (List.range (hrqOcc aw h)).filterMap fun k => memGet h.mem ((h.rbin + k) % 2 ^ aw)

/-- The abstract HRQ of R113. -/
structure AbsHrq where
  q : List Byte
  rvis : Nat
  wfree : Nat
  lost : Bool
deriving DecidableEq, Repr

/-- R113: the abstract state of a register-level state. -/
def absHrq (aw : Nat) (h : Hrq) : AbsHrq where
  q := hrqContents aw h
  rvis := hrqAvail aw h
  wfree := 2 ^ aw - wrapSub (aw + 1) h.wbin (grayBin (aw + 1) h.wq2Rgray)
  lost := h.lost

/-- R113: the abstract push. -/
def absPush (b : Byte) (a : AbsHrq) : AbsHrq :=
  if 0 < a.wfree then { a with q := a.q ++ [b], wfree := a.wfree - 1 } else { a with lost := true }

/-- R113: the abstract `HRQ.RSYNC`, `rvis <- v` for any `v` with `rvis ≤ v ≤ |q|`. -/
def AbsRsync (a a' : AbsHrq) : Prop := ∃ v, a.rvis ≤ v ∧ v ≤ a.q.length ∧ a' = { a with rvis := v }

/-- R113: the abstract `HRQ.WSYNC`, `wfree <- v` for any `v` with `wfree ≤ v ≤ HRQ_DEPTH - |q|`. -/
def AbsWsync (aw : Nat) (a a' : AbsHrq) : Prop :=
  ∃ v, a.wfree ≤ v ∧ v ≤ 2 ^ aw - a.q.length ∧ a' = { a with wfree := v }

/-! ### Receive and transmit state, control, boundary -/

/-- R49 (a) to (d), with the bounds that R8 and R31 give: offsets in order and in range, every cell below `rx_head` written, the
payload's place while in `Body`, and the indicator. -/
structure RxInv (b : Build) (rx : Rx) : Prop where
  memWf : Memory.wf rx.buf = true
  memWithin : ∀ x ∈ rx.buf, x.1 < b.rxCap
  tail_le : rx.tail ≤ rx.head
  head_le : rx.head ≤ b.rxCap
  start_le : rx.messageStart ≤ b.rxCap
  written : ∀ a < rx.head, (memGet rx.buf a).isSome
  bodyStart : rx.state = .body → rx.messageStart ≤ rx.tail
  bodyEnd : rx.state = .body → rx.tail ≤ rx.messageStart + rx.messageLength.toNat
  bodyLength : rx.state = .body → rx.messageLength.toNat ≤ b.rxCap
  active : rx.active = (rx.state != .awaitStart)

/-- R49 (e), (f): offsets in order and in range, both 0 once equal, every cell below `tx_head` written. -/
structure TxInv (b : Build) (tx : Tx) : Prop where
  memWf : Memory.wf tx.buf = true
  memWithin : ∀ x ∈ tx.buf, x.1 < b.txCap
  tail_le : tx.tail ≤ tx.head
  head_le : tx.head ≤ b.txCap
  written : ∀ a < tx.head, (memGet tx.buf a).isSome
  recycled : tx.tail = tx.head → tx.head = 0
  scratchWf : Memory.wf tx.encScratch = true
  scratchWithin : ∀ x ∈ tx.encScratch, x.1 < b.encScratchCap

/-- The lines of `POLL_RECEIVE` at which it holds the lock (R39, R141, R142). -/
def pollHoldsLock (m : MainPhase) : Bool := m == .pollFeed || m == .pollTest || m == .pollScan

/-- R38, R39, R216: the control bits and the line of the command in progress agree; `feed_active` beside the lock only in the inner
`FEED` of a `POLL`-mode `POLL_RECEIVE`; the interrupt is disabled exactly while the lock is held; no tick is
latched in `POLL` mode (R214); and phase 2 of `EMIT_NOW` runs with the transmit buffer empty (R196). -/
structure CtlInv (s : State) : Prop where
  busy : s.ctl.mainBusy = (s.ctl.main != .idle)
  lock : s.ctl.rxLock = pollHoldsLock s.ctl.main
  mainFeeds : feedIsMains s = true → s.ctl.feedActive = true
  innerFeed : s.ctl.main = .pollFeed → s.build.feedMode = .poll
  scanning : s.ctl.main = .pollTest ∨ s.ctl.main = .pollScan → s.ctl.feedActive = false
  enable : s.ctl.feedIe = !(s.build.feedMode == .interrupt && s.ctl.rxLock)
  pollNoTick : s.build.feedMode = .poll → s.ctl.feedPending = false
  pollFeeds : s.build.feedMode = .poll → s.ctl.feedActive = true → feedIsMains s = true
  emitSends : ∀ rest, s.ctl.main = .emitSend rest → s.tx.tail = s.tx.head

/-- R42, R43: the bounded buffers of the boundary. -/
structure BoundaryInv (s : State) : Prop where
  sink : s.bnd.sinkQ.length ≤ s.build.sinkCap
  diag : s.bnd.diagBuf.length ≤ s.build.diagCap

/-- The invariant of the machine: R25, R49 and R216, for a build whose parameters are in range (R7, R8). -/
structure Inv (s : State) : Prop where
  build : s.build.wf = true
  hrq : HrqInv s.build.hrqAw s.hrq
  rx : RxInv s.build s.rx
  tx : TxInv s.build s.tx
  ctl : CtlInv s
  bnd : BoundaryInv s

/-- R49 (g), R58: `tx_buf` holds whole frames back to back from offset 0 up to `tx_head`. -/
def WholeFrames (s : State) : Prop :=
  ∃ ps : List (List Byte), (∀ p ∈ ps, p.length ≤ 65535) ∧
    memReadRun .txBuf s.build.txCap s.tx.buf 0 s.tx.head = .next (ps.flatMap (frameBytes s.build.startToken))

/-- No command and no `FEED` in progress, and the next operation may run to its end. -/
structure Quiet (s : State) : Prop where
  ready : s.ctl.mainBusy = false
  noFeed : s.ctl.feedActive = false
  toTheEnd : s.slice = none

/-! ### The transmit path as one byte stream (R59) -/

/-- `tx_buf[tx_tail .. tx_head - 1]`: buffered and not yet sent. -/
def txPending (s : State) : List Byte :=
  (List.range (s.tx.head - s.tx.tail)).filterMap fun k => memGet s.tx.buf (s.tx.tail + k)

/-- The bytes of an `EMIT_NOW` in progress that the sink has not taken. -/
def emitPending (s : State) : List Byte :=
  match s.ctl.main with
  | .emitDrain packet => packet
  | .emitSend rest => rest
  | .idle => []
  | .feedWait => []
  | .feedRun => []
  | .pollWait => []
  | .pollFeed => []
  | .pollTest => []
  | .pollScan => []

/-- R59: `wire_tx`, then `sink_q`, then what is still buffered, then the rest of an emergency packet. -/
def txStream (s : State) : List Byte := s.bnd.wireTx ++ s.bnd.sinkQ ++ txPending s ++ emitPending s

/-- The payload that an `ENQUEUE` of `r` would frame and buffer, if it succeeds (R170 to R173). -/
def enqueuedPayload (r : Record) (s : State) : List (List Byte) :=
  match encodeRecord s.build r with
  | .ok p => if p.length + 3 ≤ s.build.txCap - s.tx.head then [p] else []
  | .didNotFit => []
  | .other _ => []

/-- The diagnostic record of an `EMIT_NOW t` (R196). -/
def emitRecord (t : List Byte) (s : State) : Record :=
  diagRecord s.build (appendText s.build.diagCap s.build.truncMarker s.bnd.diagBuf t)

/-- The payloads of the frames that the operation `i` adds to the transmit path (R59). -/
def addedPayloads (i : Instr) (s : State) : List (List Byte) :=
  if s.ctl.mainBusy then []
  else match i with
    | .enqueue r => enqueuedPayload r s
    | .diagEnqueue => enqueuedPayload (diagRecord s.build s.bnd.diagBuf) s
    | .emitNow t =>
      match encodeRecord s.build (emitRecord t s) with
      | .ok p => [p]
      | .didNotFit => []
      | .other _ => []
    | _ => []

/-! ### The receive path as one byte stream (R60) -/

/-- R60: `rx_buf[0 .. rx_head - 1]`, then the bytes accepted by HRQ and not yet popped. -/
def rxStream (s : State) : List Byte :=
  (List.range s.rx.head).filterMap (memGet s.rx.buf) ++ hrqContents s.build.hrqAw s.hrq

/-- The bytes that the operation `i` brings to the write port (R105, R70). -/
def arrivingBytes (i : Instr) (s : State) : List Byte :=
  match i with
  | .hrqPush b => [b]
  | .frame p => frameBytes s.build.startToken p
  | _ => []

/-- R60, R125: the step has raised the overflow event, so that a `FEED` discarded every byte that was in `rx_buf`. -/
def Overflowed (s t : State) : Prop :=
  DiagEvent.incomingDataRateTooFast ∈ t.bnd.diagLog.drop s.bnd.diagLog.length

/-- R28, R147: `POLL_RECEIVE` has zeroed the offsets and returned: the frame's end was the end of the buffered bytes, or
its length was oversized. -/
def PollZeroed (s t : State) : Prop :=
  t.rx.head = 0 ∧ t.rx.tail = 0 ∧
  ∃ c, t.bnd.results = s.bnd.results ++ [.pollReceive c] ∧
    (c = .packetReceived ∨ c = .deserializationFailed ∨ c = .messageExceedsBufferSize)

/-! ### Reception in pieces (R160) -/

/-- The bytes `bs` at offsets `a`, `a + 1`, … of a memory. -/
def memSetRun (m : Memory) (a : Nat) : List Byte → Memory
  | [] => m
  | b :: bs => memSetRun (memSet m a b) (a + 1) bs

/-- What a `FEED` of the bytes `bs` leaves in the receive buffer (R124). -/
def arrive (bs : List Byte) (s : State) : State :=
  { s with rx := { s.rx with buf := memSetRun s.rx.buf s.rx.head bs, head := s.rx.head + bs.length } }

/-- Pieces of the byte stream arrive one after the other, with one `POLL_RECEIVE` after each. -/
def pollAfterEach : List (List Byte) → State → Out State
  | [], s => .next s
  | bs :: rest, s => andThen (exec .pollReceive (arrive bs s)) (pollAfterEach rest)

/-- The code with which a complete frame with the payload `p` is reported (R149). -/
def deliveryCode (b : Build) (p : List Byte) : ReceiveCode :=
  match decodePayload b p with
  | .ok _ => .packetReceived
  | .err _ => .deserializationFailed

/-- The record visible after a complete frame with the payload `p` (R149). -/
def deliveryRecord (b : Build) (p : List Byte) (old : Option Record) : Option Record :=
  match decodePayload b p with
  | .ok r => some r
  | .err _ => old

/-- The control state after `POLL_RECEIVE` has returned (R142). -/
def returnedCtl (s : State) : Ctl :=
  { s.ctl with
    rxLock := false
    feedIe := if s.build.feedMode = .interrupt then true else s.ctl.feedIe
    mainBusy := false
    main := .idle }

/-- The same machine built for `FEED_MODE = INTERRUPT`. -/
def asInterrupt (s : State) : State := { s with build := { s.build with feedMode := .interrupt } }

/-- The diagnostic event of a complete frame with the payload `p` (R149): none if it decodes. -/
def deliveryDiag (b : Build) (p : List Byte) : List DiagEvent :=
  match decodePayload b p with
  | .ok _ => []
  | .err e => [.deserializationFailed e p]

/-! ### Which unit an operation belongs to -/

/-- What one turn of the schedule may do, a `RESET` apart: an operation, or more lines of one in progress. -/
def Moves (s t : State) : Prop :=
  (∃ i : Instr, i ≠ .reset ∧ exec i s = .next t) ∨ runMain s = .next t ∨ runFeed s = .next t

/-- The lines of `EMIT_NOW` (44_diag_boundary.md). -/
def transmitPhase : MainPhase → Bool
  | .emitDrain _ | .emitSend _ => true
  | .idle | .feedWait | .feedRun | .pollWait | .pollFeed | .pollTest | .pollScan => false

/-- The lines of `FEED` and `POLL_RECEIVE` (41_rx_feeder.md, 42_rx_framing.md). -/
def receivePhase : MainPhase → Bool
  | .feedWait | .feedRun | .pollWait | .pollFeed | .pollTest | .pollScan => true
  | .idle | .emitDrain _ | .emitSend _ => false

/-- Operations of the transmit side (43_tx_queue.md, 44_diag_boundary.md). -/
def transmitSide : Instr → Bool
  | .enqueue _ => true
  | .drain => true
  | .diagAppend _ => true
  | .diagEnqueue => true
  | .emitNow _ => true
  | .sinkSpace => true
  | .sinkWrite _ => true
  | .sinkPop => true
  | _ => false

/-- Operations of the receive side (40_hrq_async_fifo.md, 41_rx_feeder.md, 42_rx_framing.md, and a frame's arrival). -/
def receiveSide : Instr → Bool
  | .feed => true
  | .pollReceive => true
  | .rxbToken => true
  | .rxbSkip _ => true
  | .rxbLenH _ => true
  | .rxbLenL _ => true
  | .rxbBody _ => true
  | .hrqPush _ => true
  | .hrqWsync => true
  | .hrqRsync => true
  | .hrqAvail => true
  | .hrqPop => true
  | .feedTick => true
  | .frame _ => true
  | _ => false

/-- The diagnostic events of `FEED` (R191). -/
def feedEvent : DiagEvent → Bool
  | .insufficientReceiveRate => true
  | .incomingDataRateTooFast => true
  | _ => false

/-- The diagnostic events of the state machine (R191). -/
def framingEvent : DiagEvent → Bool
  | .previousPacketIncomplete => true
  | .deserializationFailed _ _ => true
  | _ => false

/-- R191: which operation may raise which event, in a machine of the given feed drive mode. -/
def mayRaise (mode : FeedMode) (e : DiagEvent) : Instr → Bool
  | .feed => feedEvent e
  | .feedTick => feedEvent e
  | .pollReceive => framingEvent e || (mode == .poll && feedEvent e)
  | .rxbToken => e == .previousPacketIncomplete
  | .rxbBody _ => framingEvent e && e != .previousPacketIncomplete
  | _ => false

/-- R191, R123: which event may be raised by an operation that goes on from the line at which it stands. The watermark is tested
once, at the entry of a `FEED`, so a `FEED` that has started can raise only the overflow. -/
def mayRaiseFrom (mode : FeedMode) (e : DiagEvent) : MainPhase → Bool
  | .feedWait => feedEvent e
  | .feedRun => e == .incomingDataRateTooFast
  | .pollWait => framingEvent e || (mode == .poll && feedEvent e)
  | .pollFeed => framingEvent e || e == .incomingDataRateTooFast
  | .pollTest | .pollScan => framingEvent e
  | .idle | .emitDrain _ | .emitSend _ => false

end Sys2Proof.Machine
end

