-- ==== Sys2Proof/Certificates/Slice0/Obligations.lean ====
section
/-! DEFINITION. The statements for the provers, from the numbered rules of spec/. Each holds for every build of the machine
(00_scope.md R7): the parameters stand in `State.build`, and no statement fixes one but those about `State.reset`. -/

open Sys2Proof Sys2Proof.Machine

/-! ### Encoding and decoding -/

/-- Decoding the encoding of a well-formed operation gives it back, with every operand, in every context. The port
numbers are the model's (log 7). -/
def Obligations.DecodeEncodeRoundTrip : Prop :=
  ∀ (c : DecodeCtx) (i : Instr), i.wf c = true → decode c (encode c i) = .ok i

/-- What the decoder reads from any byte string is well formed. -/
def Obligations.DecodedIsWellFormed : Prop :=
  ∀ (c : DecodeCtx) (w : List Byte) (i : Instr), decode c w = .ok i → i.wf c = true

/-- Words written out from the encodings of R70, R82, R84 and R87, behind the model's port number (log 7). -/
def Obligations.DecodeReadsSpecWords : Prop :=
  decode ⟨0xA5#8, .awaitStart⟩ [0x00#8, 0b00000010#8] = .ok .pollReceive ∧
  decode ⟨0xA5#8, .awaitStart⟩ [0x00#8, 0b00000011#8, 0x68#8, 0x69#8] = .ok (.enqueue ⟨[0x68#8, 0x69#8]⟩) ∧
  decode ⟨0xA5#8, .lengthHigh⟩ [0x01#8, 0b00000001#8] = .ok (.rxbLenH 0x01#8) ∧
  decode ⟨0xA5#8, .body⟩ [0x01#8, 0b10100101#8] = .ok .rxbToken ∧
  decode ⟨0xA5#8, .awaitStart⟩ [0x02#8, 0b01000001#8, 0b00000001#8] = .ok (.hrqPush 0x41#8) ∧
  decode ⟨0xA5#8, .awaitStart⟩ [0x08#8, 0b00001100#8] = .ok .feedTick ∧
  decode ⟨0xA5#8, .awaitStart⟩ [0x0C#8, 0b00000000#8] = .ok .reset ∧
  decode ⟨0xA5#8, .awaitStart⟩ [0x0D#8, 0b10100101#8, 0b00000000#8, 0b00000010#8, 0x68#8, 0x69#8] =
    .ok (.frame [0x68#8, 0x69#8])

/-- R82: the byte-class decode table, row by row, the token's row first, and total. -/
def Obligations.ByteClassesAreDecoded : Prop :=
  ∀ (tok b : Byte) (st : RxState),
    (b = tok → classify ⟨tok, st⟩ b = .rxbToken) ∧
    (b ≠ tok → st = .awaitStart → classify ⟨tok, st⟩ b = .rxbSkip b) ∧
    (b ≠ tok → st = .lengthHigh → classify ⟨tok, st⟩ b = .rxbLenH b) ∧
    (b ≠ tok → st = .lengthLow → classify ⟨tok, st⟩ b = .rxbLenL b) ∧
    (b ≠ tok → st = .body → classify ⟨tok, st⟩ b = .rxbBody b)

/-- R78 to R81: the numeric codes of the four enumerations. -/
def Obligations.EnumerationCodes : Prop :=
  (rxStateCode .awaitStart = 0 ∧ rxStateCode .lengthHigh = 1 ∧ rxStateCode .lengthLow = 2 ∧ rxStateCode .body = 3) ∧
  (receiveCodeNumber .noDataAvailable = 0 ∧ receiveCodeNumber .packetReceived = 1 ∧
    receiveCodeNumber .inProgress = 2 ∧ receiveCodeNumber .messageExceedsBufferSize = 3 ∧
    receiveCodeNumber .deserializationFailed = 4 ∧ ∀ c, receiveCodeNumber c ≤ 4) ∧
  (enqueueCodeNumber .success = 0 ∧ enqueueCodeNumber .docOverflow = 1 ∧
    enqueueCodeNumber .insufficientTransmitRate = 2 ∧ enqueueCodeNumber .packetExceedsBufferSize = 3 ∧
    ∀ c, enqueueCodeNumber c ≤ 3) ∧
  (diagCodeNumber .incomingDataRateTooFast = 0 ∧ diagCodeNumber .insufficientReceiveRate = 1 ∧
    diagCodeNumber .previousPacketIncomplete = 2 ∧ ∀ e raw, diagCodeNumber (.deserializationFailed e raw) = 3)

/-! ### HRQ -/

/-- R102: the gray code, its inverse and the three laws, at every width; and the sequence for three bits. -/
def Obligations.GrayCodeLaws : Prop :=
  (∀ n p : Nat, 1 ≤ n → p < 2 ^ n →
    gray p = p ^^^ (p >>> 1) ∧
    gray p < 2 ^ n ∧
    grayBin n (gray p) = p ∧
    (∃ k < n, gray ((p + 1) % 2 ^ n) = gray p ^^^ 2 ^ k) ∧
    (2 ≤ n → gray ((p + 2 ^ (n - 1)) % 2 ^ n) = gray p ^^^ (3 <<< (n - 2)))) ∧
  (∀ n g : Nat, 1 ≤ n → g < 2 ^ n →
    (grayBin n g).testBit (n - 1) = g.testBit (n - 1) ∧
    ∀ i, i + 1 < n → (grayBin n g).testBit i = ((grayBin n g).testBit (i + 1)).xor (g.testBit i)) ∧
  (List.range 8).map gray = [0b000, 0b001, 0b011, 0b010, 0b110, 0b111, 0b101, 0b100]

/-- R105 and R104, with R111 at the same edge: a pushed byte is stored unless the write side sees the queue full, and is then
dropped with `hrq_lost` set; the other cells of `hrq_mem` and everything else stay. The write side sees it full exactly when
its own view of the read pointer is a whole depth behind, and always when it is full in truth. -/
def Obligations.HrqPushStoresOrDrops : Prop :=
  ∀ (b : Byte) (s : State),
    (hrqFull s.build.hrqAw s.hrq = true ↔
      s.hrq.wgray = s.hrq.wq2Rgray ^^^ (3 <<< (s.build.hrqAw - 1))) ∧
    (Inv s →
      (hrqFull s.build.hrqAw s.hrq = true ↔
        wrapSub (s.build.hrqAw + 1) s.hrq.wbin (grayBin (s.build.hrqAw + 1) s.hrq.wq2Rgray) = s.build.hrqDepth) ∧
      (hrqOcc s.build.hrqAw s.hrq = s.build.hrqDepth → hrqFull s.build.hrqAw s.hrq = true)) ∧
    (hrqFull s.build.hrqAw s.hrq = false →
      ∃ m, exec (.hrqPush b) s = .next { s with
          hrq := { s.hrq with
            mem := m
            wbin := (s.hrq.wbin + 1) % 2 ^ (s.build.hrqAw + 1)
            wgray := gray ((s.hrq.wbin + 1) % 2 ^ (s.build.hrqAw + 1))
            wq2Rgray := s.hrq.wq1Rgray
            wq1Rgray := s.hrq.rgray }
          bnd := { s.bnd with wireRxCount := s.bnd.wireRxCount + 1 } } ∧
        ∀ a, memGet m a =
          if a = s.hrq.wbin % 2 ^ s.build.hrqAw then some b else memGet s.hrq.mem a) ∧
    (hrqFull s.build.hrqAw s.hrq = true →
      exec (.hrqPush b) s = .next { s with
        hrq := { s.hrq with lost := true, wq2Rgray := s.hrq.wq1Rgray, wq1Rgray := s.hrq.rgray }
        bnd := { s.bnd with wireRxCount := s.bnd.wireRxCount + 1 } })

/-- R109 and R111: each synchroniser takes one sample and shifts; nothing else changes. -/
def Obligations.HrqSynchronisersShift : Prop :=
  ∀ s : State,
    exec .hrqWsync s = .next { s with
      hrq := { s.hrq with wq2Rgray := s.hrq.wq1Rgray, wq1Rgray := s.hrq.rgray } } ∧
    exec .hrqRsync s = .next { s with
      hrq := { s.hrq with rq2Wgray := s.hrq.rq1Wgray, rq1Wgray := s.hrq.wgray } }

/-- R107: the count of `available_to_read()`, a lower bound of the true occupancy, 0 exactly when the read side sees the
queue empty, and exact once the read side's view is up to date; the call changes nothing. That the call can be a step of its own,
whose answer stands in `callResult`, is the model's choice (log 12). -/
def Obligations.HrqAvailCounts : Prop :=
  ∀ s : State,
    exec .hrqAvail s = .next { s with
      callResult := some (.avail
        (wrapSub (s.build.hrqAw + 1) (grayBin (s.build.hrqAw + 1) s.hrq.rq2Wgray) s.hrq.rbin)) } ∧
    (Inv s →
      hrqAvail s.build.hrqAw s.hrq ≤ hrqOcc s.build.hrqAw s.hrq ∧
      hrqOcc s.build.hrqAw s.hrq ≤ s.build.hrqDepth ∧
      (hrqAvail s.build.hrqAw s.hrq = 0 ↔ hrqEmpty s.hrq = true) ∧
      (s.hrq.rq2Wgray = s.hrq.wgray → hrqAvail s.build.hrqAw s.hrq = hrqOcc s.build.hrqAw s.hrq))

/-- R108: a pop answers the oldest byte and advances the read pointer, with R109 at the same edge. Only `FEED` calls it: as a step
of its own it is the next line of the `FEED` in progress, which stores the byte (R124), and raises no event (R191); with no `FEED` in
progress, or where that `FEED` comes to the overflow's reset first (R125), it is no step; and on a queue that the read side sees
empty it is refused. That a pop can be a step of its own, whose answer stands in `callResult`, is the model's choice (log 11, log 12). -/
def Obligations.HrqPopAnswersTheOldest : Prop :=
  ∀ s : State,
    (hrqEmpty s.hrq = true → exec .hrqPop s = .refused .popOnEmpty) ∧
    (hrqEmpty s.hrq = false → s.ctl.feedActive = false ∨ s.rx.head = s.build.rxCap → exec .hrqPop s = .next s) ∧
    (Inv s → hrqEmpty s.hrq = false →
      ∃ b rest, hrqContents s.build.hrqAw s.hrq = b :: rest ∧
        memGet s.hrq.mem (s.hrq.rbin % 2 ^ s.build.hrqAw) = some b ∧
        ∃ h : Hrq,
          h = { s.hrq with
            rbin := (s.hrq.rbin + 1) % 2 ^ (s.build.hrqAw + 1)
            rgray := gray ((s.hrq.rbin + 1) % 2 ^ (s.build.hrqAw + 1))
            rq2Wgray := s.hrq.rq1Wgray
            rq1Wgray := s.hrq.wgray } ∧
          hrqContents s.build.hrqAw h = rest ∧
          popEdge s.build.hrqAw s.hrq = .next (b, h) ∧
          (s.ctl.feedActive = true → s.rx.head ≠ s.build.rxCap →
            ∃ m, exec .hrqPop s = .next { s with
                hrq := h
                rx := { s.rx with buf := m, head := s.rx.head + 1 }
                callResult := some (.byte b) } ∧
              ∀ a, memGet m a = if a = s.rx.head then some b else memGet s.rx.buf a))

/-- Every edge of the register level is steps of the abstract queue of R113, with `rvis` the count the reader sees and
`wfree` the room the writer sees: a push is the abstract push and then an abstract `HRQ.WSYNC`, a pop the abstract pop and
then an abstract `HRQ.RSYNC`. -/
def Obligations.HrqRefinesAbstractQueue : Prop :=
  ∀ (aw : Nat) (h : Hrq), 1 ≤ aw → HrqInv aw h →
    (absHrq aw h).rvis ≤ (absHrq aw h).q.length ∧
    (absHrq aw h).q.length + (absHrq aw h).wfree ≤ 2 ^ aw ∧
    (∀ b, AbsWsync aw (absPush b (absHrq aw h)) (absHrq aw (pushEdge aw b h))) ∧
    AbsWsync aw (absHrq aw h) (absHrq aw (wsyncEdge h)) ∧
    AbsRsync (absHrq aw h) (absHrq aw (rsyncEdge h)) ∧
    (hrqEmpty h = false →
      ∃ b q h', popEdge aw h = .next (b, h') ∧ 0 < (absHrq aw h).rvis ∧ (absHrq aw h).q = b :: q ∧
        AbsRsync { absHrq aw h with q := q, rvis := (absHrq aw h).rvis - 1 } (absHrq aw h'))

/-- R70 on the wire (log 13): a frame is the pushes of its token, its two length bytes and its payload, in that order; where
the writer sees room for all of it, the whole frame joins the queue in order, and no other cell changes. -/
def Obligations.FrameArrivesByteByByte : Prop :=
  ∀ (p : List Byte) (s : State),
    (∃ h, exec (.frame p) s = .next { s with
        hrq := h, bnd := { s.bnd with wireRxCount := s.bnd.wireRxCount + (p.length + 3) } }) ∧
    exec (.frame p) s =
      (s.build.startToken :: BitVec.ofNat 8 (p.length / 256) :: BitVec.ofNat 8 (p.length % 256) :: p).foldl
        (fun o b => andThen o (exec (.hrqPush b))) (.next s) ∧
    (Inv s → p.length + 3 ≤ (absHrq s.build.hrqAw s.hrq).wfree →
      ∃ t, exec (.frame p) s = .next t ∧
        hrqContents s.build.hrqAw t.hrq =
          hrqContents s.build.hrqAw s.hrq ++ frameBytes s.build.startToken p ∧
        t.hrq.lost = s.hrq.lost ∧ t.hrq.rbin = s.hrq.rbin ∧ t.hrq.rgray = s.hrq.rgray ∧
        t.hrq.rq1Wgray = s.hrq.rq1Wgray ∧ t.hrq.rq2Wgray = s.hrq.rq2Wgray ∧
        ∀ a, (∀ k < p.length + 3, a ≠ (s.hrq.wbin + k) % 2 ^ s.build.hrqAw) →
          memGet t.hrq.mem a = memGet s.hrq.mem a)

/-! ### FEED -/

/-- R120, R126, R127: a `FEED` command ends with nothing left that the read side can see; the bytes it took are the oldest of HRQ,
at least as many as were visible at its start; and it touches nothing but the read domain of HRQ, the buffer, the offsets,
the framing state, the indicator and the diagnostic trace. That a `FEED` command leaves `feed_pending` as it is, where R38 says
"cleared when `FEED` starts", is the model's reading (log 18, DEDUCED). -/
def Obligations.FeedMovesEveryVisibleByte : Prop :=
  ∀ s : State, Inv s → Quiet s →
    ∃ t, exec .feed s = .next t ∧
      hrqAvail s.build.hrqAw t.hrq = 0 ∧
      (∃ moved, hrqContents s.build.hrqAw s.hrq = moved ++ hrqContents s.build.hrqAw t.hrq ∧
        hrqAvail s.build.hrqAw s.hrq ≤ moved.length) ∧
      t = { s with hrq := t.hrq, rx := t.rx, bnd := { s.bnd with diagLog := t.bnd.diagLog } } ∧
      t.hrq = { s.hrq with
        rbin := t.hrq.rbin, rgray := t.hrq.rgray, rq1Wgray := t.hrq.rq1Wgray, rq2Wgray := t.hrq.rq2Wgray } ∧
      t.rx = { s.rx with
        buf := t.rx.buf, tail := t.rx.tail, head := t.rx.head, state := t.rx.state, active := t.rx.active }

/-- R123, R124: while they fit, the bytes a `FEED` takes stand at ascending offsets from `rx_head`, `rx_tail` and the framing state
stay, every other cell stays, and the watermark warning is raised exactly when the count at entry reaches the watermark. -/
def Obligations.FeedStoresInOrder : Prop :=
  ∀ (s t : State) (moved : List Byte), Inv s → Quiet s → exec .feed s = .next t →
    hrqContents s.build.hrqAw s.hrq = moved ++ hrqContents s.build.hrqAw t.hrq →
    s.rx.head + moved.length ≤ s.build.rxCap →
    t.rx = { s.rx with buf := t.rx.buf, head := s.rx.head + moved.length } ∧
    (∀ a, memGet t.rx.buf a =
      if s.rx.head ≤ a ∧ a < s.rx.head + moved.length then moved[a - s.rx.head]? else memGet s.rx.buf a) ∧
    t.bnd.diagLog = s.bnd.diagLog ++
      (if s.build.hrqWatermark ≤ hrqAvail s.build.hrqAw s.hrq then [DiagEvent.insufficientReceiveRate] else [])

/-- R125: the byte that finds `rx_buf` full discards everything buffered, resets the framing state and the indicator, is stored at offset
0, and the `FEED` goes on from there; the watermark warning comes first (R217). -/
def Obligations.FeedOverflowStartsAgain : Prop :=
  ∀ (s t : State) (moved : List Byte), Inv s → Quiet s → exec .feed s = .next t →
    hrqContents s.build.hrqAw s.hrq = moved ++ hrqContents s.build.hrqAw t.hrq →
    s.build.rxCap < s.rx.head + moved.length →
    t.rx = { s.rx with
      buf := t.rx.buf, tail := 0, head := s.rx.head + moved.length - s.build.rxCap
      state := .awaitStart, active := false } ∧
    (∀ a, memGet t.rx.buf a =
      if a < s.rx.head + moved.length - s.build.rxCap then moved[s.build.rxCap - s.rx.head + a]?
      else if s.rx.head ≤ a ∧ a < s.build.rxCap then moved[a - s.rx.head]?
      else memGet s.rx.buf a) ∧
    t.bnd.diagLog = s.bnd.diagLog ++
      (if s.build.hrqWatermark ≤ hrqAvail s.build.hrqAw s.hrq then [DiagEvent.insufficientReceiveRate] else []) ++
      [DiagEvent.incomingDataRateTooFast]

/-- R218, R121 (a): when its trigger stands, a tick-started `FEED` clears `feed_pending` and does to HRQ, the receive side and the
diagnostic trace what a `FEED` command does, whatever command of the control loop is in progress; nothing is saved, and nothing
of that command is touched. -/
def Obligations.FeedTickRunsAFeed : Prop :=
  ∀ s : State, Inv s → s.slice = none → feedTickEnabled s = true →
    ∃ t u, exec .feedTick s = .next t ∧
      exec .feed { s with ctl := { s.ctl with mainBusy := false, main := .idle } } = .next u ∧
      hrqAvail s.build.hrqAw t.hrq = 0 ∧
      t = { s with hrq := u.hrq, rx := u.rx, bnd := u.bnd, ctl := { s.ctl with feedPending := false } }

/-- R120 to R126: what one line of a `FEED` does, whatever pushes and edges fall between its lines (R122, R126); lines are the model's
choice (log 10). The start, by tick, by command or inside `POLL_RECEIVE`, sets `feed_active` and tests the watermark once. That the
start by command and the one inside `POLL_RECEIVE` leave `feed_pending` as it is, where R38 says "cleared when `FEED` starts", is the
model's reading (log 18, DEDUCED). A line that sees no byte ends the `FEED`, and with it the `FEED` command, or the inner `FEED` of
`POLL_RECEIVE`. A line that sees one takes the oldest byte of HRQ and stores it at `rx_head`, or, where that finds `rx_buf` full,
resets the offsets, the framing state and the indicator, raises the event and stores the byte at offset 0. Nothing else changes, no
other cell among it. -/
def Obligations.FeedRunsLineByLine : Prop :=
  ∀ s : State, Inv s →
    (s.slice = some 0 → feedTickEnabled s = true →
      exec .feedTick s = .next { s with
        ctl := { s.ctl with feedPending := false, feedActive := true }
        bnd := { s.bnd with diagLog := s.bnd.diagLog ++
          (if s.build.hrqWatermark ≤ hrqAvail s.build.hrqAw s.hrq then [DiagEvent.insufficientReceiveRate] else []) } }) ∧
    (s.slice = some 1 → s.ctl.main = .feedWait → s.ctl.feedActive = false →
      runMain s = .next { s with
        ctl := { s.ctl with main := .feedRun, feedActive := true }
        bnd := { s.bnd with diagLog := s.bnd.diagLog ++
          (if s.build.hrqWatermark ≤ hrqAvail s.build.hrqAw s.hrq then [DiagEvent.insufficientReceiveRate] else []) } }) ∧
    (s.slice = some 1 → s.ctl.main = .pollWait → s.ctl.feedActive = false → s.build.feedMode = .poll →
      runMain s = .next { s with
        ctl := { s.ctl with main := .pollFeed, rxLock := true, feedActive := true }
        bnd := { s.bnd with diagLog := s.bnd.diagLog ++
          (if s.build.hrqWatermark ≤ hrqAvail s.build.hrqAw s.hrq then [DiagEvent.insufficientReceiveRate] else []) } }) ∧
    (s.slice = some 1 → s.ctl.feedActive = true → hrqAvail s.build.hrqAw s.hrq = 0 →
      (feedIsMains s = false → runFeed s = .next { s with ctl := { s.ctl with feedActive := false } }) ∧
      (s.ctl.main = .feedRun →
        runMain s = .next { s with ctl := { s.ctl with feedActive := false, mainBusy := false, main := .idle } }) ∧
      (s.ctl.main = .pollFeed →
        runMain s = .next { s with ctl := { s.ctl with feedActive := false, main := .pollTest } })) ∧
    (s.slice = some 1 → s.ctl.feedActive = true → hrqAvail s.build.hrqAw s.hrq ≠ 0 →
      ∃ t b,
        (feedIsMains s = false → runFeed s = .next t) ∧ (feedIsMains s = true → runMain s = .next t) ∧
        hrqContents s.build.hrqAw s.hrq = b :: hrqContents s.build.hrqAw t.hrq ∧
        t.hrq = { s.hrq with
          rbin := (s.hrq.rbin + 1) % 2 ^ (s.build.hrqAw + 1)
          rgray := gray ((s.hrq.rbin + 1) % 2 ^ (s.build.hrqAw + 1))
          rq2Wgray := s.hrq.rq1Wgray
          rq1Wgray := s.hrq.wgray } ∧
        (s.rx.head ≠ s.build.rxCap →
          t = { s with hrq := t.hrq, rx := { s.rx with buf := t.rx.buf, head := s.rx.head + 1 } } ∧
          ∀ a, memGet t.rx.buf a = if a = s.rx.head then some b else memGet s.rx.buf a) ∧
        (s.rx.head = s.build.rxCap →
          t = { s with
            hrq := t.hrq
            rx := { s.rx with buf := t.rx.buf, tail := 0, head := 1, state := .awaitStart, active := false }
            bnd := { s.bnd with diagLog := s.bnd.diagLog ++ [DiagEvent.incomingDataRateTooFast] } } ∧
          ∀ a, memGet t.rx.buf a = if a = 0 then some b else memGet s.rx.buf a))

/-- R121 (c), R141 (1), R216: a `FEED` or `POLL_RECEIVE` command that meets a `FEED` in progress is accepted and waits. -/
def Obligations.CommandsWaitForTheFeeder : Prop :=
  ∀ s : State, s.ctl.mainBusy = false → s.ctl.feedActive = true →
    exec .feed s = .next { s with ctl := { s.ctl with mainBusy := true, main := .feedWait } } ∧
    exec .pollReceive s = .next { s with ctl := { s.ctl with mainBusy := true, main := .pollWait } }

/-- R214: a tick is latched in `INTERRUPT` mode, and ignored in `POLL` mode. -/
def Obligations.TickIsLatched : Prop :=
  ∀ s : State,
    (s.build.feedMode = .interrupt →
      exec .tick s = .next { s with ctl := { s.ctl with feedPending := true } }) ∧
    (s.build.feedMode = .poll → exec .tick s = .next s)

/-- R215: a tick during a `POLL_RECEIVE` is held: no `FEED` starts while the lock is held (the step is no step, log 11), and the
trigger stands as soon as the call has returned. -/
def Obligations.TickDuringPollIsHeld : Prop :=
  ∀ (s : State) (c : ReceiveCode), s.build.feedMode = .interrupt → s.ctl.rxLock = true → s.ctl.feedActive = false →
    ∃ t, exec .tick s = .next t ∧ exec .feedTick t = .next t ∧ feedTickEnabled (pollReturn c t) = true

/-! ### POLL_RECEIVE -/

/-- R140, R142, R227: from a quiet state `POLL_RECEIVE` returns exactly one code, with the lock released and the interrupt as it was;
in `INTERRUPT` mode it touches HRQ not at all, no cell of `rx_buf` (R26), and `rx_head` only to set both offsets to 0 (R28); in no
mode does it touch the transmit side. -/
def Obligations.PollReceiveReturnsOneCode : Prop :=
  ∀ s : State, Inv s → Quiet s →
    ∃ t c, exec .pollReceive s = .next t ∧
      t.bnd.results = s.bnd.results ++ [.pollReceive c] ∧
      t.bnd.recordLog = s.bnd.recordLog ++ [t.rx.record] ∧
      t.ctl = s.ctl ∧
      (s.build.feedMode = .interrupt → t.hrq = s.hrq ∧ t.rx.buf = s.rx.buf ∧
        (t.rx.head = s.rx.head ∨ t.rx.head = 0 ∧ t.rx.tail = 0)) ∧
      t = { s with
        hrq := t.hrq, rx := t.rx
        bnd := { s.bnd with
          diagLog := t.bnd.diagLog, results := t.bnd.results, recordLog := t.bnd.recordLog } }

/-- R143: with no unconsumed byte at entry, whatever the framing state, the answer is `NoDataAvailable` and nothing else changes. R159:
a call that only skips ignored bytes, and ends in `AwaitStart`, answers `InProgress`, with the bytes consumed and nothing else changed. -/
def Obligations.PollOfNothingAnswersNoData : Prop :=
  ∀ s : State, Inv s → Quiet s → s.build.feedMode = .interrupt →
    (s.rx.tail = s.rx.head →
      exec .pollReceive s = .next { s with bnd := { s.bnd with
        results := s.bnd.results ++ [.pollReceive .noDataAvailable]
        recordLog := s.bnd.recordLog ++ [s.rx.record] } }) ∧
    (s.rx.state = .awaitStart → s.rx.tail < s.rx.head →
      (∀ a, s.rx.tail ≤ a → a < s.rx.head → memGet s.rx.buf a ≠ some s.build.startToken) →
      exec .pollReceive s = .next { s with
        rx := { s.rx with tail := s.rx.head }
        bnd := { s.bnd with
          results := s.bnd.results ++ [.pollReceive .inProgress]
          recordLog := s.bnd.recordLog ++ [s.rx.record] } })

/-- R144 to R149: a whole frame at `rx_tail`, whose length bytes and first payload byte are not the token, is delivered by one
`POLL_RECEIVE`: the record on a successful decode, the diagnostic with the raw bytes otherwise, and the buffer recycled if
nothing follows. No cell of `rx_buf` changes. -/
def Obligations.WholeFrameIsDelivered : Prop :=
  ∀ (s : State) (p : List Byte), Inv s → Quiet s → s.build.feedMode = .interrupt → s.rx.state = .awaitStart →
    p ≠ [] → p.length ≤ s.build.rxCap → p.length ≤ 65535 →
    p.head? ≠ some s.build.startToken →
    lengthHi p.length ≠ s.build.startToken → lengthLo p.length ≠ s.build.startToken →
    s.rx.tail + (p.length + 3) ≤ s.rx.head →
    memReadRun .rxBuf s.build.rxCap s.rx.buf s.rx.tail (p.length + 3) = .next (frameBytes s.build.startToken p) →
    exec .pollReceive s = .next { s with
      rx := { s.rx with
        tail := if s.rx.tail + (p.length + 3) = s.rx.head then 0 else s.rx.tail + (p.length + 3)
        head := if s.rx.tail + (p.length + 3) = s.rx.head then 0 else s.rx.head
        messageLength := BitVec.ofNat 16 p.length
        messageStart := s.rx.tail + 3
        record := deliveryRecord s.build p s.rx.record }
      bnd := { s.bnd with
        diagLog := s.bnd.diagLog ++ deliveryDiag s.build p
        results := s.bnd.results ++ [.pollReceive (deliveryCode s.build p)]
        recordLog := s.bnd.recordLog ++ [deliveryRecord s.build p s.rx.record] } }

/-- R147: a declared length above `RX_CAP` discards the whole buffer and is reported at once; neither length byte is the token. -/
def Obligations.OversizedLengthIsRejected : Prop :=
  ∀ (s : State) (hi lo : Byte), Inv s → Quiet s → s.build.feedMode = .interrupt → s.rx.state = .awaitStart →
    hi ≠ s.build.startToken → lo ≠ s.build.startToken → s.build.rxCap < hi.toNat * 256 + lo.toNat →
    s.rx.tail + 3 ≤ s.rx.head →
    memReadRun .rxBuf s.build.rxCap s.rx.buf s.rx.tail 3 = .next [s.build.startToken, hi, lo] →
    exec .pollReceive s = .next { s with
      rx := { s.rx with tail := 0, head := 0, messageLength := hi ++ lo }
      bnd := { s.bnd with
        results := s.bnd.results ++ [.pollReceive .messageExceedsBufferSize]
        recordLog := s.bnd.recordLog ++ [s.rx.record] } }

/-- R160, testable property 2: a frame without a token in its length bytes or payload, fed in any pieces from an empty buffer
with a poll after each, answers `InProgress` for every piece but the last, and is then delivered as if it had come whole. -/
def Obligations.ReceptionResumes : Prop :=
  ∀ (s : State) (p : List Byte) (pieces : List (List Byte)),
    Inv s → Quiet s → s.build.feedMode = .interrupt → s.rx.state = .awaitStart → s.rx.tail = 0 → s.rx.head = 0 →
    p ≠ [] → p.length + 3 ≤ s.build.rxCap → p.length ≤ 65535 → s.build.startToken ∉ p →
    lengthHi p.length ≠ s.build.startToken → lengthLo p.length ≠ s.build.startToken →
    pieces.flatten = frameBytes s.build.startToken p → (∀ piece ∈ pieces, piece ≠ []) →
    ∃ t, pollAfterEach pieces s = .next t ∧
      t.bnd.results = s.bnd.results ++ List.replicate (pieces.length - 1) (.pollReceive .inProgress) ++
        [.pollReceive (deliveryCode s.build p)] ∧
      t.rx.record = deliveryRecord s.build p s.rx.record ∧
      t.rx.tail = 0 ∧ t.rx.head = 0 ∧ t.rx.state = .awaitStart ∧ t.rx.active = false ∧
      t.bnd.diagLog = s.bnd.diagLog ++ deliveryDiag s.build p

/-- R90 (c), R141 (2): in `POLL` mode `POLL_RECEIVE` is `FEED` followed by the state machine, that is by what `POLL_RECEIVE` does in
`INTERRUPT` mode. -/
def Obligations.PollModeFeedsFirst : Prop :=
  ∀ s : State, Inv s → Quiet s → s.build.feedMode = .poll →
    ∃ u v, exec .feed s = .next u ∧ exec .pollReceive (asInterrupt u) = .next v ∧
      exec .pollReceive s = .next { v with build := s.build }

/-- R143, R151, R141: an iteration of the loop of `POLL_RECEIVE` is the byte class of R82 that the byte at `rx_tail` has, and no other:
one line of the call does what that operation does. The loop ends with `InProgress` in every framing state, `AwaitStart` after bytes
only skipped among them (R159). Before the loop stand the entry, which waits for a `FEED` in progress and then takes the lock, and the
no-data test. Lines are the model's (log 10). -/
def Obligations.LoopRunsTheByteClass : Prop :=
  ∀ s : State, Inv s → s.slice = some 1 →
    (s.ctl.main = .pollScan → s.rx.tail < s.rx.head →
      ∃ b, memGet s.rx.buf s.rx.tail = some b ∧ runMain s = exec (classify (decodeCtx s) b) s) ∧
    (s.ctl.main = .pollScan → s.rx.tail = s.rx.head →
      runMain s = .next { s with
        ctl := returnedCtl s
        bnd := { s.bnd with
          results := s.bnd.results ++ [.pollReceive .inProgress], recordLog := s.bnd.recordLog ++ [s.rx.record] } }) ∧
    (s.ctl.main = .pollTest → s.rx.tail = s.rx.head →
      runMain s = .next { s with
        ctl := returnedCtl s
        bnd := { s.bnd with
          results := s.bnd.results ++ [.pollReceive .noDataAvailable], recordLog := s.bnd.recordLog ++ [s.rx.record] } }) ∧
    (s.ctl.main = .pollTest → s.rx.tail < s.rx.head →
      runMain s = .next { s with ctl := { s.ctl with main := .pollScan } }) ∧
    (s.ctl.main = .pollWait → s.ctl.feedActive = true → runMain s = .next s) ∧
    (s.ctl.main = .pollWait → s.ctl.feedActive = false → s.build.feedMode = .interrupt →
      runMain s = .next { s with ctl := { s.ctl with main := .pollTest, rxLock := true, feedIe := false } })

/-- R144: `RXB.TOKEN` at the inspected byte. -/
def Obligations.TokenOpensAFrame : Prop :=
  ∀ s : State, rxbEnabled .rxbToken s = true →
    exec .rxbToken s = .next { s with
      rx := { s.rx with state := .lengthHigh, active := true, tail := s.rx.tail + 1 }
      bnd := { s.bnd with
        diagLog := s.bnd.diagLog ++
          (if s.rx.state = .awaitStart then [] else [DiagEvent.previousPacketIncomplete]) } }

/-- R145 and R146: `RXB.SKIP` only consumes the byte; `RXB.LENH` takes it as the length's high byte and keeps the low byte. -/
def Obligations.SkippedAndHighLengthBytes : Prop :=
  ∀ (s : State) (b : Byte),
    (rxbEnabled (.rxbSkip b) s = true →
      exec (.rxbSkip b) s = .next { s with rx := { s.rx with tail := s.rx.tail + 1 } }) ∧
    (rxbEnabled (.rxbLenH b) s = true →
      ∃ len : Len16, len.extractLsb' 8 8 = b ∧ len.extractLsb' 0 8 = s.rx.messageLength.extractLsb' 0 8 ∧
        exec (.rxbLenH b) s = .next { s with
          rx := { s.rx with messageLength := len, state := .lengthLow, tail := s.rx.tail + 1 } })

/-- R147: `RXB.LENL` completes the length; above `RX_CAP` the receive state resets and the call returns
`MessageExceedsBufferSize`, otherwise `message_start` is recorded and the state is `Body`. -/
def Obligations.LowLengthByteCompletesTheLength : Prop :=
  ∀ (s : State) (b : Byte), rxbEnabled (.rxbLenL b) s = true →
    ∃ len : Len16, len.extractLsb' 0 8 = b ∧ len.extractLsb' 8 8 = s.rx.messageLength.extractLsb' 8 8 ∧
      (s.build.rxCap < len.toNat →
        exec (.rxbLenL b) s = .next { s with
          rx := { s.rx with messageLength := len, tail := 0, head := 0, state := .awaitStart, active := false }
          ctl := returnedCtl s
          bnd := { s.bnd with
            results := s.bnd.results ++ [.pollReceive .messageExceedsBufferSize]
            recordLog := s.bnd.recordLog ++ [s.rx.record] } }) ∧
      (len.toNat ≤ s.build.rxCap →
        exec (.rxbLenL b) s = .next { s with
          rx := { s.rx with
            messageLength := len, tail := s.rx.tail + 1, messageStart := s.rx.tail + 1, state := .body } })

/-- R148 and R149: `RXB.BODY` jumps to the end of the payload or of the buffered bytes; a payload that is not complete returns
`InProgress`, a complete one is delivered, with the buffer recycled if drained. -/
def Obligations.BodyAccumulatesAndDelivers : Prop :=
  ∀ (s : State) (b : Byte), rxbEnabled (.rxbBody b) s = true →
    (s.rx.head < s.rx.messageStart + s.rx.messageLength.toNat →
      exec (.rxbBody b) s = .next { s with
        rx := { s.rx with tail := s.rx.head }
        ctl := returnedCtl s
        bnd := { s.bnd with
          results := s.bnd.results ++ [.pollReceive .inProgress]
          recordLog := s.bnd.recordLog ++ [s.rx.record] } }) ∧
    (Inv s → s.rx.messageStart + s.rx.messageLength.toNat ≤ s.rx.head →
      ∃ payload : List Byte, payload.length = s.rx.messageLength.toNat ∧
        (∀ k < payload.length, payload[k]? = memGet s.rx.buf (s.rx.messageStart + k)) ∧
        exec (.rxbBody b) s = .next { s with
          rx := { s.rx with
            tail := if s.rx.messageStart + s.rx.messageLength.toNat = s.rx.head then 0
              else s.rx.messageStart + s.rx.messageLength.toNat
            head := if s.rx.messageStart + s.rx.messageLength.toNat = s.rx.head then 0 else s.rx.head
            state := .awaitStart
            active := false
            record := deliveryRecord s.build payload s.rx.record }
          ctl := returnedCtl s
          bnd := { s.bnd with
            diagLog := s.bnd.diagLog ++ deliveryDiag s.build payload
            results := s.bnd.results ++ [.pollReceive (deliveryCode s.build payload)]
            recordLog := s.bnd.recordLog ++ [deliveryRecord s.build payload s.rx.record] } })

/-- R150: the framing state after one iteration, as the total table gives it, with the diagnostic of a token met mid-frame. -/
def Obligations.FramingTransitions : Prop :=
  ∀ (s t : State) (b : Byte), rxIterate b s = .next t →
    t.rx.state =
      (if b = s.build.startToken then .lengthHigh
       else match s.rx.state with
        | .awaitStart => .awaitStart
        | .lengthHigh => .lengthLow
        | .lengthLow =>
          if (setLengthLow s.rx.messageLength b).toNat ≤ s.build.rxCap then .body else .awaitStart
        | .body => if s.rx.head < s.rx.messageStart + s.rx.messageLength.toNat then .body else .awaitStart) ∧
    (b = s.build.startToken → t.bnd.diagLog = s.bnd.diagLog ++
      (if s.rx.state = .awaitStart then [] else [DiagEvent.previousPacketIncomplete])) ∧
    (b ≠ s.build.startToken → s.rx.state = .lengthLow →
      s.build.rxCap < (setLengthLow s.rx.messageLength b).toNat →
      t.bnd.results = s.bnd.results ++ [.pollReceive .messageExceedsBufferSize])

/-- R33: `rx_record` is written only by a successful decode, in a call that returns `PacketReceived`; a `RESET` apart. This holds of
whole operations and of the lines of one that was cut (log 10); a tick-started `FEED` that goes on never writes it. -/
def Obligations.RecordChangesOnlyByDecode : Prop :=
  (∀ s t : State, Moves s t → t.rx.record ≠ s.rx.record →
    ∃ p r, decodePayload s.build p = .ok r ∧ t.rx.record = some r ∧
      t.bnd.results = s.bnd.results ++ [.pollReceive .packetReceived]) ∧
  ∀ s t : State, runFeed s = .next t → t.rx.record = s.rx.record

/-- R60: `rx_buf[0 .. rx_head - 1]` and the bytes queued in HRQ form one stream, a contiguous segment of the bytes that HRQ accepted, in
order. Bytes join it at its end, as they arrive; one that does not join was dropped with `hrq_lost` set. Bytes leave it at its front
only, where the overflow of a `FEED` discards `rx_buf`, or where `POLL_RECEIVE` zeroes the offsets, the frame consumed or of oversized
length; no other operation, and no line of a cut one, takes a byte out. A `RESET` apart, which empties it. -/
def Obligations.ReceivePathKeepsOrder : Prop :=
  ∀ s t : State, Inv s →
    (∀ i : Instr, i ≠ .reset → exec i s = .next t →
      ∃ gone joined, rxStream s ++ joined = gone ++ rxStream t ∧
        joined.Sublist (arrivingBytes i s) ∧
        (t.hrq.lost = false → joined = arrivingBytes i s) ∧
        (gone = [] ∨ Overflowed s t ∨ PollZeroed s t)) ∧
    (runMain s = .next t →
      ∃ gone, rxStream s = gone ++ rxStream t ∧ (gone = [] ∨ Overflowed s t ∨ PollZeroed s t)) ∧
    (runFeed s = .next t →
      ∃ gone, rxStream s = gone ++ rxStream t ∧ (gone = [] ∨ Overflowed s t))

/-! ### The transmit side -/

/-- R170, R173: an `ENQUEUE` that fits writes the whole frame at `tx_head`, token, length high byte, length low byte, payload, and
advances `tx_head` by its size; every other cell and everything else stays, but for `enc_scratch`. What stands in `enc_scratch`
afterwards is the model's choice (log 15). -/
def Obligations.EnqueueWritesAWholeFrame : Prop :=
  ∀ (s : State) (r : Record) (p : List Byte), s.ctl.mainBusy = false → encodeRecord s.build r = .ok p →
    p.length + 3 ≤ s.build.txCap - s.tx.head →
    ∃ m sc, exec (.enqueue r) s = .next { s with
        tx := { s.tx with buf := m, head := s.tx.head + (p.length + 3), encScratch := sc }
        bnd := { s.bnd with results := s.bnd.results ++ [.enqueue .success] } } ∧
      (∀ a, memGet m a =
        if s.tx.head ≤ a ∧ a < s.tx.head + (p.length + 3) then
          (s.build.startToken :: BitVec.ofNat 8 (p.length / 256) :: BitVec.ofNat 8 (p.length % 256) :: p)[a - s.tx.head]?
        else memGet s.tx.buf a) ∧
      (∀ a, memGet sc a = if a < p.length then p[a]? else memGet s.tx.encScratch a)

/-- R171, R172: the three failures of `ENQUEUE`, in their order; no transmit state but `enc_scratch` changes; and with nothing unsent
the third means that the packet does not fit even an empty buffer. -/
def Obligations.EnqueueFailuresLeaveTheBuffer : Prop :=
  ∀ (s : State) (r : Record), s.ctl.mainBusy = false →
    (encodeRecord s.build r = .didNotFit →
      ∃ sc, exec (.enqueue r) s = .next { s with
        tx := { s.tx with encScratch := sc }
        bnd := { s.bnd with results := s.bnd.results ++ [.enqueue .docOverflow] } }) ∧
    (∀ p, encodeRecord s.build r = .ok p → s.build.txCap - s.tx.head < p.length + 3 → s.tx.tail < s.tx.head →
      ∃ sc, exec (.enqueue r) s = .next { s with
        tx := { s.tx with encScratch := sc }
        bnd := { s.bnd with results := s.bnd.results ++ [.enqueue .insufficientTransmitRate] } }) ∧
    (∀ p, encodeRecord s.build r = .ok p → s.build.txCap - s.tx.head < p.length + 3 → ¬ s.tx.tail < s.tx.head →
      (∃ sc, exec (.enqueue r) s = .next { s with
        tx := { s.tx with encScratch := sc }
        bnd := { s.bnd with results := s.bnd.results ++ [.enqueue .packetExceedsBufferSize] } }) ∧
      (Inv s → s.build.txCap < p.length + 3))

/-- R12, R171, R196: an `encode` error that no source describes is refused, and so is any `encode` failure inside `EMIT_NOW`. -/
def Obligations.EncodeErrorsAreRefused : Prop :=
  ∀ s : State, s.ctl.mainBusy = false →
    (∀ r c, encodeRecord s.build r = .other c → exec (.enqueue r) s = .refused (.encodeErrorNotDescribed c)) ∧
    (∀ c, encodeRecord s.build (diagRecord s.build s.bnd.diagBuf) = .other c →
      exec .diagEnqueue s = .refused (.encodeErrorNotDescribed c)) ∧
    (∀ t, (∀ p, encodeRecord s.build (emitRecord t s) ≠ .ok p) →
      exec (.emitNow t) s = .refused .emitNowEncodeFailed)

/-- R175 to R177: `DRAIN` hands the sink as many buffered bytes as it takes now, in order, advances `tx_tail`, recycles a drained buffer,
answers the bytes still pending, and changes no cell of `tx_buf`. -/
def Obligations.DrainHandsOverInOrder : Prop :=
  ∀ (s : State) (n : Nat), Inv s → s.ctl.mainBusy = false →
    n = min (s.build.sinkCap - s.bnd.sinkQ.length) (s.tx.head - s.tx.tail) →
    exec .drain s = .next { s with
      tx := { s.tx with
        tail := if s.tx.tail + n = s.tx.head then 0 else s.tx.tail + n
        head := if s.tx.tail + n = s.tx.head then 0 else s.tx.head }
      bnd := { s.bnd with
        sinkQ := s.bnd.sinkQ ++ (txPending s).take n
        results := s.bnd.results ++ [.drain (s.tx.head - s.tx.tail - n)] } }

/-- R182 and R183: the sink's space, and the bytes `write` takes of those it is handed. `SINK.WRITE` is started by its callers only: as a
step of its own it is the write that the `EMIT_NOW` in progress makes next, in phase 2 or in the `DRAIN` of phase 1, with the
caller's advance. That a call can be a step of its own, whose answer stands in `callResult`, is the model's choice (log 12). -/
def Obligations.SinkTakesWhatFits : Prop :=
  ∀ (s : State) (bytes : List Byte),
    exec .sinkSpace s = .next { s with
      callResult := some (.space (s.build.sinkCap - s.bnd.sinkQ.length)) } ∧
    sinkAccept bytes s =
      ({ s with bnd := { s.bnd with
        sinkQ := s.bnd.sinkQ ++ bytes.take (min bytes.length (s.build.sinkCap - s.bnd.sinkQ.length)) } },
       min bytes.length (s.build.sinkCap - s.bnd.sinkQ.length)) ∧
    (∀ rest, s.ctl.main = .emitSend rest → rest ≠ [] → bytes = rest.take (s.build.sinkCap - s.bnd.sinkQ.length) →
      exec (.sinkWrite bytes) s = .next { s with
        ctl := { s.ctl with main := .emitSend (rest.drop bytes.length) }
        bnd := { s.bnd with sinkQ := s.bnd.sinkQ ++ bytes }
        callResult := some (.written bytes.length) }) ∧
    (∀ packet, Inv s → s.ctl.main = .emitDrain packet → s.tx.tail < s.tx.head →
      bytes = (txPending s).take (s.build.sinkCap - s.bnd.sinkQ.length) →
      exec (.sinkWrite bytes) s = .next { s with
        tx := { s.tx with
          tail := if s.tx.tail + bytes.length = s.tx.head then 0 else s.tx.tail + bytes.length
          head := if s.tx.tail + bytes.length = s.tx.head then 0 else s.tx.head }
        bnd := { s.bnd with sinkQ := s.bnd.sinkQ ++ bytes }
        callResult := some (.written bytes.length) })

/-- R184: the front byte of `sink_q` leaves for the wire. -/
def Obligations.SinkPopSendsTheFront : Prop :=
  ∀ (s : State) (b : Byte) (rest : List Byte), s.bnd.sinkQ = b :: rest →
    exec .sinkPop s = .next { s with
      bnd := { s.bnd with sinkQ := rest, wireTx := s.bnd.wireTx ++ [b] } }

/-- R59: `wire_tx`, `sink_q`, the buffered bytes and the rest of an emergency packet form one stream; an operation adds to it exactly the
frames it enqueues or emits, at its end, and nothing is lost, doubled or reordered; a `RESET` apart, which empties it. -/
def Obligations.TransmitPathKeepsOrder : Prop :=
  ∀ s t : State, Inv s →
    (∀ i : Instr, i ≠ .reset → exec i s = .next t →
      txStream t = txStream s ++ (addedPayloads i s).flatMap (frameBytes s.build.startToken)) ∧
    (runMain s = .next t → txStream t = txStream s) ∧
    (runFeed s = .next t → txStream t = txStream s)

/-- R49 (g), R58: `tx_buf` holds whole frames back to back from offset 0, and every step keeps it so. -/
def Obligations.StepKeepsWholeFrames : Prop :=
  ∀ s t : State, Inv s → WholeFrames s → step s = .next t → WholeFrames t

/-! ### The diagnostic boundary -/

/-- R192: `DIAG_APPEND` keeps the whole text if it fits, and otherwise the first bytes of old and new text with the marker. -/
def Obligations.DiagAppendStoresText : Prop :=
  ∀ (s : State) (t : List Byte), s.ctl.mainBusy = false →
    (s.bnd.diagBuf.length + t.length ≤ s.build.diagCap →
      exec (.diagAppend t) s = .next { s with
        bnd := { s.bnd with
          diagBuf := s.bnd.diagBuf ++ t
          results := s.bnd.results ++ [.diagAppend true] } }) ∧
    (s.build.diagCap < s.bnd.diagBuf.length + t.length →
      exec (.diagAppend t) s = .next { s with
        bnd := { s.bnd with
          diagBuf := (s.bnd.diagBuf ++ t).take (s.build.diagCap - s.build.truncMarker.length) ++ s.build.truncMarker
          results := s.bnd.results ++ [.diagAppend false] } })

/-- R193, testable property 6: a text that does not fit leaves exactly `DIAG_CAP` bytes that end in the marker, behind the first
`DIAG_CAP - |M|` bytes of old and new text; a buffer already truncated stays as it is under further non-empty appends; the empty text always fits. -/
def Obligations.TruncationKeepsTheMarker : Prop :=
  ∀ (s : State) (t : List Byte), Inv s → s.ctl.mainBusy = false →
    ∃ u, exec (.diagAppend t) s = .next u ∧
      (s.build.diagCap < s.bnd.diagBuf.length + t.length →
        u.bnd.diagBuf.length = s.build.diagCap ∧
        u.bnd.diagBuf = (s.bnd.diagBuf ++ t).take (s.build.diagCap - s.build.truncMarker.length) ++ s.build.truncMarker ∧
        u.bnd.results = s.bnd.results ++ [.diagAppend false]) ∧
      (s.bnd.diagBuf.length = s.build.diagCap → s.build.truncMarker <:+ s.bnd.diagBuf → t ≠ [] →
        u.bnd.diagBuf = s.bnd.diagBuf ∧ u.bnd.results = s.bnd.results ++ [.diagAppend false]) ∧
      (t = [] → u.bnd.diagBuf = s.bnd.diagBuf ∧ u.bnd.results = s.bnd.results ++ [.diagAppend true])

/-- R194: `DIAG_ENQUEUE` is the whole `ENQUEUE` of the pending message's record, with its code, and the buffer is cleared whatever
the code is. -/
def Obligations.DiagEnqueueIsEnqueue : Prop :=
  ∀ s : State, s.ctl.mainBusy = false →
    (∀ c, encodeRecord s.build (diagRecord s.build s.bnd.diagBuf) ≠ .other c) →
    ∃ u c, exec (.enqueue (diagRecord s.build s.bnd.diagBuf)) s = .next u ∧
      u.bnd.results = s.bnd.results ++ [.enqueue c] ∧
      exec .diagEnqueue s = .next { u with
        bnd := { u.bnd with diagBuf := [], results := s.bnd.results ++ [.diagEnqueue c] } }

/-- R195, R196: `EMIT_NOW` hands the sink first every byte that was buffered and then its own packet, which never stands in `tx_buf`;
it completes when the sink has room for all of it, and otherwise is left in progress with the sink full. R197: while the sink has
no room, an `EMIT_NOW` in progress that has bytes to hand over spins: its lines change nothing. -/
def Obligations.EmitNowDrainsThenSends : Prop :=
  (∀ (s : State) (x p : List Byte), Inv s → s.ctl.mainBusy = false → s.slice = none →
    encodeRecord s.build (emitRecord x s) = .ok p →
    ((s.tx.head - s.tx.tail) + (p.length + 3) ≤ s.build.sinkCap - s.bnd.sinkQ.length →
      ∃ sc, exec (.emitNow x) s = .next { s with
        tx := { s.tx with tail := 0, head := 0, encScratch := sc }
        bnd := { s.bnd with
          diagBuf := []
          sinkQ := s.bnd.sinkQ ++ txPending s ++ frameBytes s.build.startToken p } }) ∧
    (s.build.sinkCap - s.bnd.sinkQ.length < (s.tx.head - s.tx.tail) + (p.length + 3) →
      ∃ t, exec (.emitNow x) s = .next t ∧
        t.bnd.sinkQ.length = s.build.sinkCap ∧
        txStream t = txStream s ++ frameBytes s.build.startToken p ∧
        t = { s with
          tx := { s.tx with tail := t.tx.tail, head := t.tx.head, encScratch := t.tx.encScratch }
          ctl := { s.ctl with mainBusy := true, main := t.ctl.main }
          bnd := { s.bnd with diagBuf := [], sinkQ := t.bnd.sinkQ } })) ∧
  ∀ s : State, s.ctl.mainBusy = true → s.bnd.sinkQ.length = s.build.sinkCap →
    (∃ packet, s.ctl.main = .emitDrain packet ∧ s.tx.tail < s.tx.head) ∨
      (∃ rest, s.ctl.main = .emitSend rest ∧ rest ≠ []) →
    runMain s = .next s

/-! ### The machine -/

/-- R85: `NOP` changes nothing. -/
def Obligations.NopChangesNothing : Prop := ∀ s : State, exec .nop s = .next s

/-- R47: `RESET` is one step that leaves every register at the value of R47's table and every trace empty. That it may be taken in
every state, and keeps the build, is the model's choice (log 16, as R240 and U17 leave it); that the traces of results and
records are empty too is the model's (log 14, log 17). -/
def Obligations.ResetLeavesTheResetState : Prop :=
  ∀ s : State, ∃ t, exec .reset s = .next t ∧ t.build = s.build ∧
    (t.rx.head = 0 ∧ t.rx.tail = 0 ∧ t.tx.head = 0 ∧ t.tx.tail = 0) ∧
    t.rx.state = .awaitStart ∧ t.rx.messageLength = 0 ∧ t.rx.messageStart = 0 ∧
    t.rx.active = false ∧ t.rx.record = none ∧
    (t.hrq.wbin = 0 ∧ t.hrq.wgray = 0 ∧ t.hrq.wq1Rgray = 0 ∧ t.hrq.wq2Rgray = 0 ∧
      t.hrq.rbin = 0 ∧ t.hrq.rgray = 0 ∧ t.hrq.rq1Wgray = 0 ∧ t.hrq.rq2Wgray = 0) ∧
    t.hrq.lost = false ∧ t.ctl.feedIe = true ∧
    (t.ctl.feedPending = false ∧ t.ctl.rxLock = false ∧ t.ctl.feedActive = false ∧ t.ctl.mainBusy = false) ∧
    t.bnd.diagBuf = [] ∧ t.bnd.diagLog = [] ∧ t.bnd.sinkQ = [] ∧ t.bnd.wireTx = [] ∧ t.bnd.wireRxCount = 0 ∧
    t.bnd.results = [] ∧ t.bnd.recordLog = []

/-- R241: the state after reset of every build in range meets the invariant and holds whole frames. The model's choices: the build
of `State.reset` (log 2) is in range; `RESET` leaves the schedule as it is (log 16); a cell of unspecified contents has no
value (log 5). -/
def Obligations.ResetMeetsTheInvariant : Prop :=
  (∀ b : Build, b.wf = true → Inv (State.resetOf b) ∧ WholeFrames (State.resetOf b)) ∧
  State.reset.build.wf = true ∧
  ∀ s : State, exec .reset s = .next { State.resetOf s.build with agenda := s.agenda, slice := s.slice } ∧
    ∀ a, memGet (State.resetOf s.build).hrq.mem a = none ∧ memGet (State.resetOf s.build).rx.buf a = none ∧
      memGet (State.resetOf s.build).tx.buf a = none ∧ memGet (State.resetOf s.build).tx.encScratch a = none

/-- R25, R49, R216: every step keeps the invariant: the HRQ's counts and gray codes, the offsets and written cells of both buffers, the
framing state's bounds, the exclusion of feeder and state machine, the canonical form of every memory. -/
def Obligations.StepKeepsTheInvariant : Prop :=
  ∀ s t : State, Inv s → step s = .next t → Inv t

/-- R216, R61: feeder and state machine exclude each other, but for the inner `FEED` of a `POLL`-mode `POLL_RECEIVE`. -/
def Obligations.FeederAndFramingExclude : Prop :=
  ∀ s t : State, Inv s → step s = .next t → t.ctl.rxLock = true → t.ctl.feedActive = true →
    t.build.feedMode = .poll ∧ t.ctl.main = .pollFeed

/-- R56, R210: from a state that meets the invariant no step faults; no `FEED` pops an empty queue (R108, R124), not as a whole and not
in the lines in which a cut one goes on; and a step is refused only for a bare `HRQ.POP` on an empty queue, an `encode` failure,
or a port word that is no operation. -/
def Obligations.StepNeverFaults : Prop :=
  ∀ s : State, Inv s →
    (∀ f, step s ≠ .fault f) ∧
    (∀ i : Instr, exec i s = .refused .popOnEmpty → i = .hrqPop) ∧
    (∀ r, runMain s ≠ .refused r ∧ runFeed s ≠ .refused r) ∧
    (∀ r, step s = .refused r →
      (r = .popOnEmpty ∧ ∃ word slice rest,
        s.agenda = .offer word slice :: rest ∧ decode (decodeCtx s) word = .ok .hrqPop) ∨
      (∃ c, r = .encodeErrorNotDescribed c) ∨ r = .emitNowEncodeFailed ∨ ∃ why, r = .notAnOperation why)

/-- A step runs the operation that the port word of the next turn decodes to, in the state in which that turn is taken. -/
def Obligations.StepRunsTheDecodedOperation : Prop :=
  ∀ (s : State) (word : List Byte) (slice : Option Nat) (rest : List Turn) (i : Instr),
    s.build.wf = true → s.agenda = .offer word slice :: rest → decode (decodeCtx s) word = .ok i →
    step s = exec i { s with agenda := rest, slice := slice }

/-- The other turns of the schedule (log 9): an agent goes on with its operation in progress, a word that is no operation is refused,
and with no turn left nothing happens; a machine whose parameters are out of range is refused (U7). -/
def Obligations.StepTakesTheNextTurn : Prop :=
  ∀ (s : State) (slice : Option Nat) (rest : List Turn),
    (s.build.wf = true → s.agenda = .resumeMain slice :: rest →
      step s = runMain { s with agenda := rest, slice := slice }) ∧
    (s.build.wf = true → s.agenda = .resumeFeed slice :: rest →
      step s = runFeed { s with agenda := rest, slice := slice }) ∧
    (s.build.wf = true → ∀ word why, s.agenda = .offer word slice :: rest →
      decode (decodeCtx s) word = .error why → step s = .refused (.notAnOperation why)) ∧
    (s.build.wf = true → s.agenda = [] → step s = .next s) ∧
    (s.build.wf = false → step s = .refused .parameterOutOfRange)

/-- The model's choice (log 11): an operation that is offered when it cannot take place leaves the state as it is. While a command is
in progress no other is accepted (R84, R14); a byte class is no step unless the next iteration is of that class (R82); no `FEED`
starts by tick without its trigger (R121); no byte is popped but by a `FEED` that pops next (R108); no byte is written to the sink but by the caller whose write comes next (R183); and the
sink sends nothing when `sink_q` is empty (R184). -/
def Obligations.OperationOutOfTurnIsNoStep : Prop :=
  ∀ (s : State) (r : Record) (t : List Byte),
    (s.ctl.mainBusy = true →
      exec .feed s = .next s ∧ exec .pollReceive s = .next s ∧ exec (.enqueue r) s = .next s ∧
      exec .drain s = .next s ∧ exec (.diagAppend t) s = .next s ∧ exec .diagEnqueue s = .next s ∧
      exec (.emitNow t) s = .next s) ∧
    (∀ (i : Instr) (b : Byte),
      i = .rxbToken ∨ i = .rxbSkip b ∨ i = .rxbLenH b ∨ i = .rxbLenL b ∨ i = .rxbBody b →
      rxbEnabled i s = false → exec i s = .next s) ∧
    (feedTickEnabled s = false → exec .feedTick s = .next s) ∧
    (hrqEmpty s.hrq = false → s.ctl.feedActive = false ∨ s.rx.head = s.build.rxCap → exec .hrqPop s = .next s) ∧
    (∀ bytes, nextWrite s ≠ some bytes → exec (.sinkWrite bytes) s = .next s) ∧
    (s.bnd.sinkQ = [] → exec .sinkPop s = .next s)

/-- R9, R37, R254: no step changes the build's parameters, the feed drive mode among them. -/
def Obligations.StepNeverChangesTheBuild : Prop :=
  ∀ s t : State, step s = .next t → t.build = s.build

/-- R41, R44, R23: the traces are append-only and `hrq_lost` is sticky, under every operation but `RESET` and under the lines of every
operation in progress. -/
def Obligations.TracesOnlyGrow : Prop :=
  ∀ s t : State, Moves s t →
    s.bnd.diagLog <+: t.bnd.diagLog ∧ s.bnd.wireTx <+: t.bnd.wireTx ∧ s.bnd.results <+: t.bnd.results ∧
    s.bnd.recordLog <+: t.bnd.recordLog ∧ s.bnd.wireRxCount ≤ t.bnd.wireRxCount ∧
    (s.hrq.lost = true → t.hrq.lost = true)

/-- R191: the complete list of which operation raises which diagnostic event, the HRQ operations none; and which a cut operation may
still raise when it goes on, where a `FEED` that has started can no longer raise the watermark warning (R123). That an operation
can be cut between its lines is the model's choice (log 10). -/
def Obligations.EventsComeFromTheirOperations : Prop :=
  ∀ s t : State,
    (∀ i : Instr, i ≠ .reset → exec i s = .next t →
      ∃ new, t.bnd.diagLog = s.bnd.diagLog ++ new ∧ ∀ e ∈ new, mayRaise s.build.feedMode e i = true) ∧
    (runMain s = .next t →
      ∃ new, t.bnd.diagLog = s.bnd.diagLog ++ new ∧ ∀ e ∈ new, mayRaiseFrom s.build.feedMode e s.ctl.main = true) ∧
    (runFeed s = .next t →
      ∃ new, t.bnd.diagLog = s.bnd.diagLog ++ new ∧ ∀ e ∈ new, e = .incomingDataRateTooFast)

/-- R217 (f), R218, R220: operations of the transmit side leave HRQ, the receive state, the feeder's control bits and the diagnostic trace as
they are; operations of the receive side leave the transmit state, the sink, the wire and the diagnostic text as they are. So
do the lines in which a cut `EMIT_NOW`, a cut `FEED` or a cut `POLL_RECEIVE` goes on. (The commands of both sides write `main_busy`,
the line at which the command stands, and the results.) -/
def Obligations.SidesShareNoState : Prop :=
  ∀ s t : State,
    ((∃ i : Instr, transmitSide i = true ∧ exec i s = .next t) ∨
        (transmitPhase s.ctl.main = true ∧ runMain s = .next t) →
      t.hrq = s.hrq ∧ t.rx = s.rx ∧ t.bnd.diagLog = s.bnd.diagLog ∧ t.bnd.recordLog = s.bnd.recordLog ∧
      t.bnd.wireRxCount = s.bnd.wireRxCount ∧ t.ctl.feedIe = s.ctl.feedIe ∧
      t.ctl.feedPending = s.ctl.feedPending ∧ t.ctl.rxLock = s.ctl.rxLock ∧ t.ctl.feedActive = s.ctl.feedActive) ∧
    ((∃ i : Instr, receiveSide i = true ∧ exec i s = .next t) ∨
        (receivePhase s.ctl.main = true ∧ runMain s = .next t) ∨ runFeed s = .next t →
      t.tx = s.tx ∧ t.bnd.sinkQ = s.bnd.sinkQ ∧ t.bnd.wireTx = s.bnd.wireTx ∧ t.bnd.diagBuf = s.bnd.diagBuf)

/-- R217 (f): a tick-started `FEED` and an `ENQUEUE`, `DRAIN`, `DIAG_APPEND`, `DIAG_ENQUEUE` or `EMIT_NOW` may come in either order: the
outcome is the same. -/
def Obligations.TickedFeedCommutesWithTransmit : Prop :=
  ∀ (s : State) (r : Record) (x : List Byte) (i : Instr), Inv s →
    i = .enqueue r ∨ i = .drain ∨ i = .diagAppend x ∨ i = .diagEnqueue ∨ i = .emitNow x →
    andThen (exec .feedTick s) (exec i) = andThen (exec i s) (exec .feedTick)
end

