-- ==== Sys2Proof/Laws/Mem.lean ====
section
/-! SUPPORT. The laws of sequencing and of memory: what an operation that answers a next state must have done, read after write, and
that every memory operation keeps the canonical form and the capacity of its space. -/

namespace Sys2Proof.Machine

/-! ### Sequencing -/

@[simp] theorem andThen_next {α β : Type} (a : α) (f : α → Out β) : andThen (.next a) f = f a := rfl
@[simp] theorem andThen_fault {α β : Type} (r : Fault) (f : α → Out β) : andThen (.fault r) f = .fault r := rfl
@[simp] theorem andThen_refused {α β : Type} (r : Refusal) (f : α → Out β) : andThen (.refused r) f = .refused r := rfl

theorem andThen_eq_next {α β : Type} {o : Out α} {f : α → Out β} {b : β} :
    andThen o f = .next b ↔ ∃ a, o = .next a ∧ f a = .next b := by
  cases o <;> simp

theorem andThen_eq_fault {α β : Type} {o : Out α} {f : α → Out β} {r : Fault} :
    andThen o f = .fault r ↔ o = .fault r ∨ ∃ a, o = .next a ∧ f a = .fault r := by
  cases o <;> simp

theorem andThen_eq_refused {α β : Type} {o : Out α} {f : α → Out β} {r : Refusal} :
    andThen o f = .refused r ↔ o = .refused r ∨ ∃ a, o = .next a ∧ f a = .refused r := by
  cases o <;> simp

theorem andThen_assoc {α β γ : Type} (o : Out α) (f : α → Out β) (g : β → Out γ) :
    andThen (andThen o f) g = andThen o fun a => andThen (f a) g := by
  cases o <;> rfl

/-! ### One cell -/

@[simp] theorem memGet_nil (a : Nat) : memGet [] a = none := rfl

theorem memGet_memSet (m : Memory) (a c : Nat) (b : Byte) :
    memGet (memSet m a b) c = if c = a then some b else memGet m c := by
  induction m with
  | nil => by_cases h : c = a <;> simp [memSet, memGet, h]
  | cons x rest ih =>
    obtain ⟨x, v⟩ := x
    unfold memSet
    split
    · simp [memGet]
    · split
      · subst x; by_cases h : c = a <;> simp [memGet, h]
      · simp only [memGet, ih]
        by_cases h : c = a
        · subst h; simp_all
        · simp [h]

@[simp] theorem memGet_memSet_same (m : Memory) (a : Nat) (b : Byte) : memGet (memSet m a b) a = some b := by
  simp [memGet_memSet]

theorem memGet_memSet_other {m : Memory} {a c : Nat} {b : Byte} (h : c ≠ a) :
    memGet (memSet m a b) c = memGet m c := by
  simp [memGet_memSet, h]

theorem mem_memSet {m : Memory} {a : Nat} {b : Byte} {x : Host.Cell} (h : x ∈ memSet m a b) : x = (a, b) ∨ x ∈ m := by
  induction m with
  | nil => simpa [memSet] using h
  | cons y rest ih =>
    obtain ⟨y, v⟩ := y
    unfold memSet at h
    split at h
    · simpa using h
    · split at h
      · simp only [List.mem_cons] at h ⊢; tauto
      · simp only [List.mem_cons] at h ⊢
        obtain h | h := h
        · tauto
        · have := ih h; tauto

/-! ### The canonical form -/

theorem Memory.wf_cons {x : Host.Cell} {m : Memory} :
    Memory.wf (x :: m) = true ↔ (∀ c ∈ m, x.1 < c.1) ∧ Memory.wf m = true := by
  simp [Memory.wf]

theorem memGet_eq_none_of_lt {m : Memory} {a : Nat} (h : ∀ c ∈ m, a < c.1) : memGet m a = none := by
  induction m with
  | nil => rfl
  | cons x rest ih =>
    have hx := h x (by simp)
    have : a ≠ x.1 := by omega
    simp [memGet, this, ih fun c hc => h c (by simp [hc])]

/-- Writing a cell keeps the canonical form. -/
theorem memSet_wf {m : Memory} (h : Memory.wf m = true) (a : Nat) (b : Byte) : Memory.wf (memSet m a b) = true := by
  induction m with
  | nil => rfl
  | cons x rest ih =>
    obtain ⟨x, v⟩ := x
    obtain ⟨hlt, hwf⟩ := Memory.wf_cons.1 h
    unfold memSet
    split
    · next hax =>
      refine Memory.wf_cons.2 ⟨fun c hc => ?_, h⟩
      obtain rfl | hc := List.mem_cons.1 hc
      · exact hax
      · have := hlt c hc; dsimp only at this ⊢; omega
    · split
      · next hax => subst hax; exact Memory.wf_cons.2 ⟨hlt, hwf⟩
      · refine Memory.wf_cons.2 ⟨fun c hc => ?_, ih hwf⟩
        obtain rfl | hc := mem_memSet hc
        · dsimp only; omega
        · exact hlt c hc

theorem memSet_within {m : Memory} {cap a : Nat} {b : Byte} (ha : a < cap) (h : ∀ x ∈ m, x.1 < cap) :
    ∀ x ∈ memSet m a b, x.1 < cap := by
  intro x hx
  obtain rfl | hx := mem_memSet hx
  · exact ha
  · exact h x hx

/-- Two memories in canonical form that read alike are the same data. -/
theorem Memory.ext_of_wf {m n : Memory} (hm : Memory.wf m = true) (hn : Memory.wf n = true)
    (h : ∀ a, memGet m a = memGet n a) : m = n := by
  induction m generalizing n with
  | nil =>
    cases n with
    | nil => rfl
    | cons y n => simpa [memGet] using h y.1
  | cons x m ih =>
    cases n with
    | nil => simpa [memGet] using h x.1
    | cons y n =>
      obtain ⟨hxm, hm'⟩ := Memory.wf_cons.1 hm
      obtain ⟨hyn, hn'⟩ := Memory.wf_cons.1 hn
      have hx := h x.1
      have hy := h y.1
      have key : x.1 = y.1 := by
        by_contra hne
        obtain hlt | hlt := Nat.lt_or_gt_of_ne hne
        · have := memGet_eq_none_of_lt (m := n) (a := x.1) fun c hc => by have := hyn c hc; omega
          simp [memGet, hne, this] at hx
        · have := memGet_eq_none_of_lt (m := m) (a := y.1) fun c hc => by have := hxm c hc; omega
          have hne' : y.1 ≠ x.1 := fun e => hne e.symm
          simp [memGet, hne', this] at hy
      have hval : x.2 = y.2 := by simpa [memGet, key] using hx
      have hxy : x = y := Prod.ext key hval
      subst hxy
      congr 1
      refine ih hm' hn' fun a => ?_
      by_cases ha : a = x.1
      · subst ha; rw [memGet_eq_none_of_lt hxm, memGet_eq_none_of_lt hyn]
      · simpa [memGet, ha] using h a

/-! ### Checked accesses -/

theorem memRead_eq_next {sp : Space} {cap a : Nat} {m : Memory} {b : Byte} :
    memRead sp cap m a = .next b ↔ a < cap ∧ memGet m a = some b := by
  unfold memRead
  split
  · cases memGet m a <;> simp_all
  · simp_all

theorem memRead_ne_refused {sp : Space} {cap a : Nat} {m : Memory} {r : Refusal} : memRead sp cap m a ≠ .refused r := by
  unfold memRead
  split
  · cases memGet m a <;> simp
  · simp

/-- A run of reads answers exactly the bytes that stand there, and needs each offset in range. -/
theorem memReadRun_eq_next {sp : Space} {cap n : Nat} {m : Memory} {a : Nat} {bs : List Byte} :
    memReadRun sp cap m a n = .next bs ↔
      bs.length = n ∧ ∀ k < n, a + k < cap ∧ memGet m (a + k) = bs[k]? := by
  induction n generalizing a bs with
  | zero => cases bs <;> simp [memReadRun]
  | succ n ih =>
    simp only [memReadRun, andThen_eq_next, memRead_eq_next, ih]
    constructor
    · rintro ⟨b, ⟨ha, hb⟩, bs', ⟨hlen, hrest⟩, heq⟩
      obtain rfl : b :: bs' = bs := by simpa using heq
      refine ⟨by simp [hlen], fun k hk => ?_⟩
      cases k with
      | zero => simpa [ha] using hb
      | succ k => have := hrest k (by omega); simpa [Nat.add_assoc, Nat.add_comm 1] using this
    · rintro ⟨hlen, hall⟩
      cases bs with
      | nil => simp at hlen
      | cons b bs =>
        refine ⟨b, by simpa using hall 0 (by omega), bs, ⟨by simpa using hlen, fun k hk => ?_⟩, rfl⟩
        have := hall (k + 1) (by omega)
        simpa [Nat.add_assoc, Nat.add_comm 1] using this

/-- A run of reads over written cells in range answers some bytes. -/
theorem memReadRun_of_written {sp : Space} {cap n : Nat} {m : Memory} {a : Nat}
    (h : ∀ k < n, a + k < cap ∧ (memGet m (a + k)).isSome) : ∃ bs, memReadRun sp cap m a n = .next bs := by
  induction n generalizing a with
  | zero => exact ⟨[], rfl⟩
  | succ n ih =>
    obtain ⟨h0, hb⟩ := h 0 (by omega)
    obtain ⟨b, hb⟩ := Option.isSome_iff_exists.1 hb
    obtain ⟨bs, hbs⟩ := ih (a := a + 1) fun k hk => by
      have := h (k + 1) (by omega); simpa [Nat.add_assoc, Nat.add_comm 1] using this
    refine ⟨b :: bs, ?_⟩
    simp [memReadRun, andThen_eq_next, memRead_eq_next, hbs, by simpa using h0, by simpa using hb]

theorem memReadRun_ne_refused {sp : Space} {cap n : Nat} {m : Memory} {a : Nat} {r : Refusal} :
    memReadRun sp cap m a n ≠ .refused r := by
  induction n generalizing a with
  | zero => simp [memReadRun]
  | succ n ih =>
    simp only [memReadRun, ne_eq, andThen_eq_refused, not_or, not_exists, not_and]
    refine ⟨memRead_ne_refused, fun b _ => ⟨ih, fun bs _ => by simp⟩⟩

theorem memWrite_eq_next {sp : Space} {cap a : Nat} {m m' : Memory} {b : Byte} :
    memWrite sp cap m a b = .next m' ↔ a < cap ∧ m' = memSet m a b := by
  unfold memWrite
  split <;> simp_all [eq_comm]

/-- A write keeps the canonical form and the capacity of its space. -/
theorem memWrite_keeps {sp : Space} {cap a : Nat} {m m' : Memory} {b : Byte} (h : memWrite sp cap m a b = .next m')
    (hwf : Memory.wf m = true) (hin : ∀ x ∈ m, x.1 < cap) : Memory.wf m' = true ∧ ∀ x ∈ m', x.1 < cap := by
  obtain ⟨ha, rfl⟩ := memWrite_eq_next.1 h
  exact ⟨memSet_wf hwf a b, memSet_within ha hin⟩

/-! ### Runs of writes -/

theorem memGet_memSetRun (m : Memory) (a c : Nat) (bs : List Byte) :
    memGet (memSetRun m a bs) c = if a ≤ c ∧ c < a + bs.length then bs[c - a]? else memGet m c := by
  induction bs generalizing m a with
  | nil => simp [memSetRun]
  | cons b bs ih =>
    simp only [memSetRun, ih, memGet_memSet, List.length_cons]
    by_cases hc : c = a
    · subst hc; simp
    · by_cases hin : a + 1 ≤ c ∧ c < a + 1 + bs.length
      · have : c - a = (c - (a + 1)) + 1 := by omega
        rw [if_pos hin, if_pos (by omega), this, List.getElem?_cons_succ]
      · rw [if_neg hin, if_neg hc, if_neg (by omega)]

theorem memSetRun_wf {m : Memory} (h : Memory.wf m = true) (a : Nat) (bs : List Byte) :
    Memory.wf (memSetRun m a bs) = true := by
  induction bs generalizing m a with
  | nil => exact h
  | cons b bs ih => exact ih (memSet_wf h a b) (a + 1)

theorem memSetRun_within {m : Memory} {cap a : Nat} {bs : List Byte} (ha : a + bs.length ≤ cap)
    (h : ∀ x ∈ m, x.1 < cap) : ∀ x ∈ memSetRun m a bs, x.1 < cap := by
  induction bs generalizing m a with
  | nil => exact h
  | cons b bs ih =>
    simp only [List.length_cons] at ha
    exact ih (by omega) (memSet_within (by omega) h)

/-- A run of writes that fits is the same run of plain writes. -/
theorem memWriteRun_of_fits {sp : Space} {cap a : Nat} {m : Memory} {bs : List Byte} (h : a + bs.length ≤ cap) :
    memWriteRun sp cap m a bs = .next (memSetRun m a bs) := by
  induction bs generalizing m a with
  | nil => rfl
  | cons b bs ih =>
    simp only [List.length_cons] at h
    simp [memWriteRun, memWrite, show a < cap by omega, ih (m := memSet m a b) (a := a + 1) (by omega), memSetRun]

theorem memWriteRun_eq_next {sp : Space} {cap a : Nat} {m m' : Memory} {bs : List Byte} :
    memWriteRun sp cap m a bs = .next m' ↔ (bs = [] ∨ a + bs.length ≤ cap) ∧ m' = memSetRun m a bs := by
  induction bs generalizing m a with
  | nil => simp [memWriteRun, memSetRun, eq_comm]
  | cons b bs ih =>
    simp only [memWriteRun, andThen_eq_next, memWrite_eq_next, ih, memSetRun, List.length_cons]
    constructor
    · rintro ⟨_, ⟨ha, rfl⟩, hfit, rfl⟩
      refine ⟨Or.inr ?_, rfl⟩
      obtain rfl | hfit := hfit
      · simpa using ha
      · omega
    · rintro ⟨hfit, rfl⟩
      simp only [reduceCtorEq, false_or] at hfit
      exact ⟨_, ⟨by omega, rfl⟩, Or.inr (by omega), rfl⟩

/-- A run of writes keeps the canonical form and the capacity of its space. -/
theorem memWriteRun_keeps {sp : Space} {cap a : Nat} {m m' : Memory} {bs : List Byte}
    (h : memWriteRun sp cap m a bs = .next m') (hwf : Memory.wf m = true) (hin : ∀ x ∈ m, x.1 < cap) :
    Memory.wf m' = true ∧ ∀ x ∈ m', x.1 < cap := by
  obtain ⟨hfit, rfl⟩ := memWriteRun_eq_next.1 h
  refine ⟨memSetRun_wf hwf a bs, ?_⟩
  obtain rfl | hfit := hfit
  · exact hin
  · exact memSetRun_within hfit hin

/-- Every memory of the state after reset is in canonical form. -/
theorem resetOf_memories_wf (b : Build) :
    Memory.wf (State.resetOf b).hrq.mem = true ∧ Memory.wf (State.resetOf b).rx.buf = true ∧
    Memory.wf (State.resetOf b).tx.buf = true ∧ Memory.wf (State.resetOf b).tx.encScratch = true :=
  ⟨rfl, rfl, rfl, rfl⟩

end Sys2Proof.Machine
end

