-- ==== Sys2Proof/Laws/State.lean ====
section
/-! SUPPORT. One lemma for each field of each named update of the state, so that no proof unfolds a record update. A field that
stays is stated group by group; of a group that changes, every field. The updates with a test inside come with
their cases in Laws/Ops.lean. -/

namespace Sys2Proof.Machine


/-! ### Events, responses, the command in progress -/

@[simp] theorem raiseDiag_build (e : DiagEvent) (s : State) : (raiseDiag e s).build = s.build := rfl
@[simp] theorem raiseDiag_hrq (e : DiagEvent) (s : State) : (raiseDiag e s).hrq = s.hrq := rfl
@[simp] theorem raiseDiag_rx (e : DiagEvent) (s : State) : (raiseDiag e s).rx = s.rx := rfl
@[simp] theorem raiseDiag_tx (e : DiagEvent) (s : State) : (raiseDiag e s).tx = s.tx := rfl
@[simp] theorem raiseDiag_ctl (e : DiagEvent) (s : State) : (raiseDiag e s).ctl = s.ctl := rfl
@[simp] theorem raiseDiag_bnd_diagLog (e : DiagEvent) (s : State) :
    (raiseDiag e s).bnd.diagLog = s.bnd.diagLog ++ [e] := rfl
@[simp] theorem raiseDiag_bnd_diagBuf (e : DiagEvent) (s : State) : (raiseDiag e s).bnd.diagBuf = s.bnd.diagBuf := rfl
@[simp] theorem raiseDiag_bnd_sinkQ (e : DiagEvent) (s : State) : (raiseDiag e s).bnd.sinkQ = s.bnd.sinkQ := rfl
@[simp] theorem raiseDiag_bnd_wireTx (e : DiagEvent) (s : State) : (raiseDiag e s).bnd.wireTx = s.bnd.wireTx := rfl
@[simp] theorem raiseDiag_bnd_wireRxCount (e : DiagEvent) (s : State) :
    (raiseDiag e s).bnd.wireRxCount = s.bnd.wireRxCount := rfl
@[simp] theorem raiseDiag_bnd_results (e : DiagEvent) (s : State) : (raiseDiag e s).bnd.results = s.bnd.results := rfl
@[simp] theorem raiseDiag_bnd_recordLog (e : DiagEvent) (s : State) :
    (raiseDiag e s).bnd.recordLog = s.bnd.recordLog := rfl
@[simp] theorem raiseDiag_callResult (e : DiagEvent) (s : State) : (raiseDiag e s).callResult = s.callResult := rfl
@[simp] theorem raiseDiag_agenda (e : DiagEvent) (s : State) : (raiseDiag e s).agenda = s.agenda := rfl
@[simp] theorem raiseDiag_slice (e : DiagEvent) (s : State) : (raiseDiag e s).slice = s.slice := rfl
@[simp] theorem respond_build (r : Response) (s : State) : (respond r s).build = s.build := rfl
@[simp] theorem respond_hrq (r : Response) (s : State) : (respond r s).hrq = s.hrq := rfl
@[simp] theorem respond_rx (r : Response) (s : State) : (respond r s).rx = s.rx := rfl
@[simp] theorem respond_tx (r : Response) (s : State) : (respond r s).tx = s.tx := rfl
@[simp] theorem respond_ctl (r : Response) (s : State) : (respond r s).ctl = s.ctl := rfl
@[simp] theorem respond_bnd_diagLog (r : Response) (s : State) : (respond r s).bnd.diagLog = s.bnd.diagLog := rfl
@[simp] theorem respond_bnd_diagBuf (r : Response) (s : State) : (respond r s).bnd.diagBuf = s.bnd.diagBuf := rfl
@[simp] theorem respond_bnd_sinkQ (r : Response) (s : State) : (respond r s).bnd.sinkQ = s.bnd.sinkQ := rfl
@[simp] theorem respond_bnd_wireTx (r : Response) (s : State) : (respond r s).bnd.wireTx = s.bnd.wireTx := rfl
@[simp] theorem respond_bnd_wireRxCount (r : Response) (s : State) :
    (respond r s).bnd.wireRxCount = s.bnd.wireRxCount := rfl
@[simp] theorem respond_bnd_results (r : Response) (s : State) :
    (respond r s).bnd.results = s.bnd.results ++ [r] := rfl
@[simp] theorem respond_bnd_recordLog (r : Response) (s : State) :
    (respond r s).bnd.recordLog = s.bnd.recordLog := rfl
@[simp] theorem respond_callResult (r : Response) (s : State) : (respond r s).callResult = s.callResult := rfl
@[simp] theorem respond_agenda (r : Response) (s : State) : (respond r s).agenda = s.agenda := rfl
@[simp] theorem respond_slice (r : Response) (s : State) : (respond r s).slice = s.slice := rfl
@[simp] theorem acceptCommand_build (m : MainPhase) (s : State) : (acceptCommand m s).build = s.build := rfl
@[simp] theorem acceptCommand_hrq (m : MainPhase) (s : State) : (acceptCommand m s).hrq = s.hrq := rfl
@[simp] theorem acceptCommand_rx (m : MainPhase) (s : State) : (acceptCommand m s).rx = s.rx := rfl
@[simp] theorem acceptCommand_tx (m : MainPhase) (s : State) : (acceptCommand m s).tx = s.tx := rfl
@[simp] theorem acceptCommand_ctl_feedIe (m : MainPhase) (s : State) :
    (acceptCommand m s).ctl.feedIe = s.ctl.feedIe := rfl
@[simp] theorem acceptCommand_ctl_feedPending (m : MainPhase) (s : State) :
    (acceptCommand m s).ctl.feedPending = s.ctl.feedPending := rfl
@[simp] theorem acceptCommand_ctl_rxLock (m : MainPhase) (s : State) :
    (acceptCommand m s).ctl.rxLock = s.ctl.rxLock := rfl
@[simp] theorem acceptCommand_ctl_feedActive (m : MainPhase) (s : State) :
    (acceptCommand m s).ctl.feedActive = s.ctl.feedActive := rfl
@[simp] theorem acceptCommand_ctl_mainBusy (m : MainPhase) (s : State) :
    (acceptCommand m s).ctl.mainBusy = true := rfl
@[simp] theorem acceptCommand_ctl_main (m : MainPhase) (s : State) : (acceptCommand m s).ctl.main = m := rfl
@[simp] theorem acceptCommand_bnd (m : MainPhase) (s : State) : (acceptCommand m s).bnd = s.bnd := rfl
@[simp] theorem acceptCommand_callResult (m : MainPhase) (s : State) :
    (acceptCommand m s).callResult = s.callResult := rfl
@[simp] theorem acceptCommand_agenda (m : MainPhase) (s : State) : (acceptCommand m s).agenda = s.agenda := rfl
@[simp] theorem acceptCommand_slice (m : MainPhase) (s : State) : (acceptCommand m s).slice = s.slice := rfl
@[simp] theorem setMain_build (m : MainPhase) (s : State) : (setMain m s).build = s.build := rfl
@[simp] theorem setMain_hrq (m : MainPhase) (s : State) : (setMain m s).hrq = s.hrq := rfl
@[simp] theorem setMain_rx (m : MainPhase) (s : State) : (setMain m s).rx = s.rx := rfl
@[simp] theorem setMain_tx (m : MainPhase) (s : State) : (setMain m s).tx = s.tx := rfl
@[simp] theorem setMain_ctl_feedIe (m : MainPhase) (s : State) : (setMain m s).ctl.feedIe = s.ctl.feedIe := rfl
@[simp] theorem setMain_ctl_feedPending (m : MainPhase) (s : State) :
    (setMain m s).ctl.feedPending = s.ctl.feedPending := rfl
@[simp] theorem setMain_ctl_rxLock (m : MainPhase) (s : State) : (setMain m s).ctl.rxLock = s.ctl.rxLock := rfl
@[simp] theorem setMain_ctl_feedActive (m : MainPhase) (s : State) :
    (setMain m s).ctl.feedActive = s.ctl.feedActive := rfl
@[simp] theorem setMain_ctl_mainBusy (m : MainPhase) (s : State) : (setMain m s).ctl.mainBusy = s.ctl.mainBusy := rfl
@[simp] theorem setMain_ctl_main (m : MainPhase) (s : State) : (setMain m s).ctl.main = m := rfl
@[simp] theorem setMain_bnd (m : MainPhase) (s : State) : (setMain m s).bnd = s.bnd := rfl
@[simp] theorem setMain_callResult (m : MainPhase) (s : State) : (setMain m s).callResult = s.callResult := rfl
@[simp] theorem setMain_agenda (m : MainPhase) (s : State) : (setMain m s).agenda = s.agenda := rfl
@[simp] theorem setMain_slice (m : MainPhase) (s : State) : (setMain m s).slice = s.slice := rfl
@[simp] theorem commandDone_build (s : State) : (commandDone s).build = s.build := rfl
@[simp] theorem commandDone_hrq (s : State) : (commandDone s).hrq = s.hrq := rfl
@[simp] theorem commandDone_rx (s : State) : (commandDone s).rx = s.rx := rfl
@[simp] theorem commandDone_tx (s : State) : (commandDone s).tx = s.tx := rfl
@[simp] theorem commandDone_ctl_feedIe (s : State) : (commandDone s).ctl.feedIe = s.ctl.feedIe := rfl
@[simp] theorem commandDone_ctl_feedPending (s : State) : (commandDone s).ctl.feedPending = s.ctl.feedPending := rfl
@[simp] theorem commandDone_ctl_rxLock (s : State) : (commandDone s).ctl.rxLock = s.ctl.rxLock := rfl
@[simp] theorem commandDone_ctl_feedActive (s : State) : (commandDone s).ctl.feedActive = s.ctl.feedActive := rfl
@[simp] theorem commandDone_ctl_mainBusy (s : State) : (commandDone s).ctl.mainBusy = false := rfl
@[simp] theorem commandDone_ctl_main (s : State) : (commandDone s).ctl.main = .idle := rfl
@[simp] theorem commandDone_bnd (s : State) : (commandDone s).bnd = s.bnd := rfl
@[simp] theorem commandDone_callResult (s : State) : (commandDone s).callResult = s.callResult := rfl
@[simp] theorem commandDone_agenda (s : State) : (commandDone s).agenda = s.agenda := rfl
@[simp] theorem commandDone_slice (s : State) : (commandDone s).slice = s.slice := rfl

/-! ### HRQ -/

@[simp] theorem wirePush_build (b : Byte) (s : State) : (wirePush b s).build = s.build := rfl
@[simp] theorem wirePush_hrq (b : Byte) (s : State) : (wirePush b s).hrq = pushEdge s.build.hrqAw b s.hrq := rfl
@[simp] theorem wirePush_rx (b : Byte) (s : State) : (wirePush b s).rx = s.rx := rfl
@[simp] theorem wirePush_tx (b : Byte) (s : State) : (wirePush b s).tx = s.tx := rfl
@[simp] theorem wirePush_ctl (b : Byte) (s : State) : (wirePush b s).ctl = s.ctl := rfl
@[simp] theorem wirePush_bnd_diagLog (b : Byte) (s : State) : (wirePush b s).bnd.diagLog = s.bnd.diagLog := rfl
@[simp] theorem wirePush_bnd_diagBuf (b : Byte) (s : State) : (wirePush b s).bnd.diagBuf = s.bnd.diagBuf := rfl
@[simp] theorem wirePush_bnd_sinkQ (b : Byte) (s : State) : (wirePush b s).bnd.sinkQ = s.bnd.sinkQ := rfl
@[simp] theorem wirePush_bnd_wireTx (b : Byte) (s : State) : (wirePush b s).bnd.wireTx = s.bnd.wireTx := rfl
@[simp] theorem wirePush_bnd_wireRxCount (b : Byte) (s : State) :
    (wirePush b s).bnd.wireRxCount = s.bnd.wireRxCount + 1 := rfl
@[simp] theorem wirePush_bnd_results (b : Byte) (s : State) : (wirePush b s).bnd.results = s.bnd.results := rfl
@[simp] theorem wirePush_bnd_recordLog (b : Byte) (s : State) : (wirePush b s).bnd.recordLog = s.bnd.recordLog := rfl
@[simp] theorem wirePush_callResult (b : Byte) (s : State) : (wirePush b s).callResult = s.callResult := rfl
@[simp] theorem wirePush_agenda (b : Byte) (s : State) : (wirePush b s).agenda = s.agenda := rfl
@[simp] theorem wirePush_slice (b : Byte) (s : State) : (wirePush b s).slice = s.slice := rfl
@[simp] theorem wsyncEdge_mem (h : Hrq) : (wsyncEdge h).mem = h.mem := rfl
@[simp] theorem wsyncEdge_wbin (h : Hrq) : (wsyncEdge h).wbin = h.wbin := rfl
@[simp] theorem wsyncEdge_wgray (h : Hrq) : (wsyncEdge h).wgray = h.wgray := rfl
@[simp] theorem wsyncEdge_wq1Rgray (h : Hrq) : (wsyncEdge h).wq1Rgray = h.rgray := rfl
@[simp] theorem wsyncEdge_wq2Rgray (h : Hrq) : (wsyncEdge h).wq2Rgray = h.wq1Rgray := rfl
@[simp] theorem wsyncEdge_lost (h : Hrq) : (wsyncEdge h).lost = h.lost := rfl
@[simp] theorem wsyncEdge_rbin (h : Hrq) : (wsyncEdge h).rbin = h.rbin := rfl
@[simp] theorem wsyncEdge_rgray (h : Hrq) : (wsyncEdge h).rgray = h.rgray := rfl
@[simp] theorem wsyncEdge_rq1Wgray (h : Hrq) : (wsyncEdge h).rq1Wgray = h.rq1Wgray := rfl
@[simp] theorem wsyncEdge_rq2Wgray (h : Hrq) : (wsyncEdge h).rq2Wgray = h.rq2Wgray := rfl
@[simp] theorem rsyncEdge_mem (h : Hrq) : (rsyncEdge h).mem = h.mem := rfl
@[simp] theorem rsyncEdge_wbin (h : Hrq) : (rsyncEdge h).wbin = h.wbin := rfl
@[simp] theorem rsyncEdge_wgray (h : Hrq) : (rsyncEdge h).wgray = h.wgray := rfl
@[simp] theorem rsyncEdge_wq1Rgray (h : Hrq) : (rsyncEdge h).wq1Rgray = h.wq1Rgray := rfl
@[simp] theorem rsyncEdge_wq2Rgray (h : Hrq) : (rsyncEdge h).wq2Rgray = h.wq2Rgray := rfl
@[simp] theorem rsyncEdge_lost (h : Hrq) : (rsyncEdge h).lost = h.lost := rfl
@[simp] theorem rsyncEdge_rbin (h : Hrq) : (rsyncEdge h).rbin = h.rbin := rfl
@[simp] theorem rsyncEdge_rgray (h : Hrq) : (rsyncEdge h).rgray = h.rgray := rfl
@[simp] theorem rsyncEdge_rq1Wgray (h : Hrq) : (rsyncEdge h).rq1Wgray = h.wgray := rfl
@[simp] theorem rsyncEdge_rq2Wgray (h : Hrq) : (rsyncEdge h).rq2Wgray = h.rq1Wgray := rfl
@[simp] theorem pushEdge_wq1Rgray (aw : Nat) (b : Byte) (h : Hrq) : (pushEdge aw b h).wq1Rgray = h.rgray := by
  unfold pushEdge; split <;> rfl
@[simp] theorem pushEdge_wq2Rgray (aw : Nat) (b : Byte) (h : Hrq) : (pushEdge aw b h).wq2Rgray = h.wq1Rgray := by
  unfold pushEdge; split <;> rfl
@[simp] theorem pushEdge_rbin (aw : Nat) (b : Byte) (h : Hrq) : (pushEdge aw b h).rbin = h.rbin := by
  unfold pushEdge; split <;> rfl
@[simp] theorem pushEdge_rgray (aw : Nat) (b : Byte) (h : Hrq) : (pushEdge aw b h).rgray = h.rgray := by
  unfold pushEdge; split <;> rfl
@[simp] theorem pushEdge_rq1Wgray (aw : Nat) (b : Byte) (h : Hrq) : (pushEdge aw b h).rq1Wgray = h.rq1Wgray := by
  unfold pushEdge; split <;> rfl
@[simp] theorem pushEdge_rq2Wgray (aw : Nat) (b : Byte) (h : Hrq) : (pushEdge aw b h).rq2Wgray = h.rq2Wgray := by
  unfold pushEdge; split <;> rfl

/-! ### FEED -/

@[simp] theorem feedStart_build (s : State) : (feedStart s).build = s.build := by
  unfold feedStart; dsimp only; split <;> rfl
@[simp] theorem feedStart_hrq (s : State) : (feedStart s).hrq = s.hrq := by
  unfold feedStart; dsimp only; split <;> rfl
@[simp] theorem feedStart_rx (s : State) : (feedStart s).rx = s.rx := by
  unfold feedStart; dsimp only; split <;> rfl
@[simp] theorem feedStart_tx (s : State) : (feedStart s).tx = s.tx := by
  unfold feedStart; dsimp only; split <;> rfl
@[simp] theorem feedStart_ctl_feedIe (s : State) : (feedStart s).ctl.feedIe = s.ctl.feedIe := by
  unfold feedStart; dsimp only; split <;> rfl
@[simp] theorem feedStart_ctl_feedPending (s : State) : (feedStart s).ctl.feedPending = s.ctl.feedPending := by
  unfold feedStart; dsimp only; split <;> rfl
@[simp] theorem feedStart_ctl_rxLock (s : State) : (feedStart s).ctl.rxLock = s.ctl.rxLock := by
  unfold feedStart; dsimp only; split <;> rfl
@[simp] theorem feedStart_ctl_feedActive (s : State) : (feedStart s).ctl.feedActive = true := by
  unfold feedStart; dsimp only; split <;> rfl
@[simp] theorem feedStart_ctl_mainBusy (s : State) : (feedStart s).ctl.mainBusy = s.ctl.mainBusy := by
  unfold feedStart; dsimp only; split <;> rfl
@[simp] theorem feedStart_ctl_main (s : State) : (feedStart s).ctl.main = s.ctl.main := by
  unfold feedStart; dsimp only; split <;> rfl
@[simp] theorem feedStart_bnd_diagBuf (s : State) : (feedStart s).bnd.diagBuf = s.bnd.diagBuf := by
  unfold feedStart; dsimp only; split <;> rfl
@[simp] theorem feedStart_bnd_sinkQ (s : State) : (feedStart s).bnd.sinkQ = s.bnd.sinkQ := by
  unfold feedStart; dsimp only; split <;> rfl
@[simp] theorem feedStart_bnd_wireTx (s : State) : (feedStart s).bnd.wireTx = s.bnd.wireTx := by
  unfold feedStart; dsimp only; split <;> rfl
@[simp] theorem feedStart_bnd_wireRxCount (s : State) : (feedStart s).bnd.wireRxCount = s.bnd.wireRxCount := by
  unfold feedStart; dsimp only; split <;> rfl
@[simp] theorem feedStart_bnd_results (s : State) : (feedStart s).bnd.results = s.bnd.results := by
  unfold feedStart; dsimp only; split <;> rfl
@[simp] theorem feedStart_bnd_recordLog (s : State) : (feedStart s).bnd.recordLog = s.bnd.recordLog := by
  unfold feedStart; dsimp only; split <;> rfl
@[simp] theorem feedStart_callResult (s : State) : (feedStart s).callResult = s.callResult := by
  unfold feedStart; dsimp only; split <;> rfl
@[simp] theorem feedStart_agenda (s : State) : (feedStart s).agenda = s.agenda := by
  unfold feedStart; dsimp only; split <;> rfl
@[simp] theorem feedStart_slice (s : State) : (feedStart s).slice = s.slice := by
  unfold feedStart; dsimp only; split <;> rfl
@[simp] theorem feedEnd_build (s : State) : (feedEnd s).build = s.build := rfl
@[simp] theorem feedEnd_hrq (s : State) : (feedEnd s).hrq = s.hrq := rfl
@[simp] theorem feedEnd_rx (s : State) : (feedEnd s).rx = s.rx := rfl
@[simp] theorem feedEnd_tx (s : State) : (feedEnd s).tx = s.tx := rfl
@[simp] theorem feedEnd_ctl_feedIe (s : State) : (feedEnd s).ctl.feedIe = s.ctl.feedIe := rfl
@[simp] theorem feedEnd_ctl_feedPending (s : State) : (feedEnd s).ctl.feedPending = s.ctl.feedPending := rfl
@[simp] theorem feedEnd_ctl_rxLock (s : State) : (feedEnd s).ctl.rxLock = s.ctl.rxLock := rfl
@[simp] theorem feedEnd_ctl_feedActive (s : State) : (feedEnd s).ctl.feedActive = false := rfl
@[simp] theorem feedEnd_ctl_mainBusy (s : State) : (feedEnd s).ctl.mainBusy = s.ctl.mainBusy := rfl
@[simp] theorem feedEnd_ctl_main (s : State) : (feedEnd s).ctl.main = s.ctl.main := rfl
@[simp] theorem feedEnd_bnd (s : State) : (feedEnd s).bnd = s.bnd := rfl
@[simp] theorem feedEnd_callResult (s : State) : (feedEnd s).callResult = s.callResult := rfl
@[simp] theorem feedEnd_agenda (s : State) : (feedEnd s).agenda = s.agenda := rfl
@[simp] theorem feedEnd_slice (s : State) : (feedEnd s).slice = s.slice := rfl
@[simp] theorem feedMakeRoom_build (s : State) : (feedMakeRoom s).build = s.build := by
  unfold feedMakeRoom; dsimp only; split <;> rfl
@[simp] theorem feedMakeRoom_hrq (s : State) : (feedMakeRoom s).hrq = s.hrq := by
  unfold feedMakeRoom; dsimp only; split <;> rfl
@[simp] theorem feedMakeRoom_rx_buf (s : State) : (feedMakeRoom s).rx.buf = s.rx.buf := by
  unfold feedMakeRoom; dsimp only; split <;> rfl
@[simp] theorem feedMakeRoom_rx_messageLength (s : State) :
    (feedMakeRoom s).rx.messageLength = s.rx.messageLength := by
  unfold feedMakeRoom; dsimp only; split <;> rfl
@[simp] theorem feedMakeRoom_rx_messageStart (s : State) : (feedMakeRoom s).rx.messageStart = s.rx.messageStart := by
  unfold feedMakeRoom; dsimp only; split <;> rfl
@[simp] theorem feedMakeRoom_rx_record (s : State) : (feedMakeRoom s).rx.record = s.rx.record := by
  unfold feedMakeRoom; dsimp only; split <;> rfl
@[simp] theorem feedMakeRoom_tx (s : State) : (feedMakeRoom s).tx = s.tx := by
  unfold feedMakeRoom; dsimp only; split <;> rfl
@[simp] theorem feedMakeRoom_ctl (s : State) : (feedMakeRoom s).ctl = s.ctl := by
  unfold feedMakeRoom; dsimp only; split <;> rfl
@[simp] theorem feedMakeRoom_bnd_diagBuf (s : State) : (feedMakeRoom s).bnd.diagBuf = s.bnd.diagBuf := by
  unfold feedMakeRoom; dsimp only; split <;> rfl
@[simp] theorem feedMakeRoom_bnd_sinkQ (s : State) : (feedMakeRoom s).bnd.sinkQ = s.bnd.sinkQ := by
  unfold feedMakeRoom; dsimp only; split <;> rfl
@[simp] theorem feedMakeRoom_bnd_wireTx (s : State) : (feedMakeRoom s).bnd.wireTx = s.bnd.wireTx := by
  unfold feedMakeRoom; dsimp only; split <;> rfl
@[simp] theorem feedMakeRoom_bnd_wireRxCount (s : State) : (feedMakeRoom s).bnd.wireRxCount = s.bnd.wireRxCount := by
  unfold feedMakeRoom; dsimp only; split <;> rfl
@[simp] theorem feedMakeRoom_bnd_results (s : State) : (feedMakeRoom s).bnd.results = s.bnd.results := by
  unfold feedMakeRoom; dsimp only; split <;> rfl
@[simp] theorem feedMakeRoom_bnd_recordLog (s : State) : (feedMakeRoom s).bnd.recordLog = s.bnd.recordLog := by
  unfold feedMakeRoom; dsimp only; split <;> rfl
@[simp] theorem feedMakeRoom_callResult (s : State) : (feedMakeRoom s).callResult = s.callResult := by
  unfold feedMakeRoom; dsimp only; split <;> rfl
@[simp] theorem feedMakeRoom_agenda (s : State) : (feedMakeRoom s).agenda = s.agenda := by
  unfold feedMakeRoom; dsimp only; split <;> rfl
@[simp] theorem feedMakeRoom_slice (s : State) : (feedMakeRoom s).slice = s.slice := by
  unfold feedMakeRoom; dsimp only; split <;> rfl
@[simp] theorem feedTickStart_build (s : State) : (feedTickStart s).build = s.build := by
  simp [feedTickStart]
@[simp] theorem feedTickStart_hrq (s : State) : (feedTickStart s).hrq = s.hrq := by
  simp [feedTickStart]
@[simp] theorem feedTickStart_rx (s : State) : (feedTickStart s).rx = s.rx := by
  simp [feedTickStart]
@[simp] theorem feedTickStart_tx (s : State) : (feedTickStart s).tx = s.tx := by
  simp [feedTickStart]
@[simp] theorem feedTickStart_ctl_feedIe (s : State) : (feedTickStart s).ctl.feedIe = s.ctl.feedIe := by
  simp [feedTickStart]
@[simp] theorem feedTickStart_ctl_feedPending (s : State) : (feedTickStart s).ctl.feedPending = false := by
  simp [feedTickStart]
@[simp] theorem feedTickStart_ctl_rxLock (s : State) : (feedTickStart s).ctl.rxLock = s.ctl.rxLock := by
  simp [feedTickStart]
@[simp] theorem feedTickStart_ctl_feedActive (s : State) : (feedTickStart s).ctl.feedActive = true := by
  simp [feedTickStart]
@[simp] theorem feedTickStart_ctl_mainBusy (s : State) : (feedTickStart s).ctl.mainBusy = s.ctl.mainBusy := by
  simp [feedTickStart]
@[simp] theorem feedTickStart_ctl_main (s : State) : (feedTickStart s).ctl.main = s.ctl.main := by
  simp [feedTickStart]
@[simp] theorem feedTickStart_bnd_diagBuf (s : State) : (feedTickStart s).bnd.diagBuf = s.bnd.diagBuf := by
  simp [feedTickStart]
@[simp] theorem feedTickStart_bnd_sinkQ (s : State) : (feedTickStart s).bnd.sinkQ = s.bnd.sinkQ := by
  simp [feedTickStart]
@[simp] theorem feedTickStart_bnd_wireTx (s : State) : (feedTickStart s).bnd.wireTx = s.bnd.wireTx := by
  simp [feedTickStart]
@[simp] theorem feedTickStart_bnd_wireRxCount (s : State) :
    (feedTickStart s).bnd.wireRxCount = s.bnd.wireRxCount := by
  simp [feedTickStart]
@[simp] theorem feedTickStart_bnd_results (s : State) : (feedTickStart s).bnd.results = s.bnd.results := by
  simp [feedTickStart]
@[simp] theorem feedTickStart_bnd_recordLog (s : State) : (feedTickStart s).bnd.recordLog = s.bnd.recordLog := by
  simp [feedTickStart]
@[simp] theorem feedTickStart_callResult (s : State) : (feedTickStart s).callResult = s.callResult := by
  simp [feedTickStart]
@[simp] theorem feedTickStart_agenda (s : State) : (feedTickStart s).agenda = s.agenda := by
  simp [feedTickStart]
@[simp] theorem feedTickStart_slice (s : State) : (feedTickStart s).slice = s.slice := by
  simp [feedTickStart]

/-! ### POLL_RECEIVE -/

@[simp] theorem pollLock_build (s : State) : (pollLock s).build = s.build := rfl
@[simp] theorem pollLock_hrq (s : State) : (pollLock s).hrq = s.hrq := rfl
@[simp] theorem pollLock_rx (s : State) : (pollLock s).rx = s.rx := rfl
@[simp] theorem pollLock_tx (s : State) : (pollLock s).tx = s.tx := rfl
@[simp] theorem pollLock_ctl_feedIe (s : State) :
    (pollLock s).ctl.feedIe = if s.build.feedMode = .interrupt then false else s.ctl.feedIe := rfl
@[simp] theorem pollLock_ctl_feedPending (s : State) : (pollLock s).ctl.feedPending = s.ctl.feedPending := rfl
@[simp] theorem pollLock_ctl_rxLock (s : State) : (pollLock s).ctl.rxLock = true := rfl
@[simp] theorem pollLock_ctl_feedActive (s : State) : (pollLock s).ctl.feedActive = s.ctl.feedActive := rfl
@[simp] theorem pollLock_ctl_mainBusy (s : State) : (pollLock s).ctl.mainBusy = s.ctl.mainBusy := rfl
@[simp] theorem pollLock_ctl_main (s : State) : (pollLock s).ctl.main = s.ctl.main := rfl
@[simp] theorem pollLock_bnd (s : State) : (pollLock s).bnd = s.bnd := rfl
@[simp] theorem pollLock_callResult (s : State) : (pollLock s).callResult = s.callResult := rfl
@[simp] theorem pollLock_agenda (s : State) : (pollLock s).agenda = s.agenda := rfl
@[simp] theorem pollLock_slice (s : State) : (pollLock s).slice = s.slice := rfl
@[simp] theorem pollReturn_build (c : ReceiveCode) (s : State) : (pollReturn c s).build = s.build := rfl
@[simp] theorem pollReturn_hrq (c : ReceiveCode) (s : State) : (pollReturn c s).hrq = s.hrq := rfl
@[simp] theorem pollReturn_rx (c : ReceiveCode) (s : State) : (pollReturn c s).rx = s.rx := rfl
@[simp] theorem pollReturn_tx (c : ReceiveCode) (s : State) : (pollReturn c s).tx = s.tx := rfl
@[simp] theorem pollReturn_ctl_feedIe (c : ReceiveCode) (s : State) :
    (pollReturn c s).ctl.feedIe = if s.build.feedMode = .interrupt then true else s.ctl.feedIe := rfl
@[simp] theorem pollReturn_ctl_feedPending (c : ReceiveCode) (s : State) :
    (pollReturn c s).ctl.feedPending = s.ctl.feedPending := rfl
@[simp] theorem pollReturn_ctl_rxLock (c : ReceiveCode) (s : State) : (pollReturn c s).ctl.rxLock = false := rfl
@[simp] theorem pollReturn_ctl_feedActive (c : ReceiveCode) (s : State) :
    (pollReturn c s).ctl.feedActive = s.ctl.feedActive := rfl
@[simp] theorem pollReturn_ctl_mainBusy (c : ReceiveCode) (s : State) : (pollReturn c s).ctl.mainBusy = false := rfl
@[simp] theorem pollReturn_ctl_main (c : ReceiveCode) (s : State) : (pollReturn c s).ctl.main = .idle := rfl
@[simp] theorem pollReturn_bnd_diagLog (c : ReceiveCode) (s : State) :
    (pollReturn c s).bnd.diagLog = s.bnd.diagLog := rfl
@[simp] theorem pollReturn_bnd_diagBuf (c : ReceiveCode) (s : State) :
    (pollReturn c s).bnd.diagBuf = s.bnd.diagBuf := rfl
@[simp] theorem pollReturn_bnd_sinkQ (c : ReceiveCode) (s : State) : (pollReturn c s).bnd.sinkQ = s.bnd.sinkQ := rfl
@[simp] theorem pollReturn_bnd_wireTx (c : ReceiveCode) (s : State) :
    (pollReturn c s).bnd.wireTx = s.bnd.wireTx := rfl
@[simp] theorem pollReturn_bnd_wireRxCount (c : ReceiveCode) (s : State) :
    (pollReturn c s).bnd.wireRxCount = s.bnd.wireRxCount := rfl
@[simp] theorem pollReturn_bnd_results (c : ReceiveCode) (s : State) :
    (pollReturn c s).bnd.results = s.bnd.results ++ [.pollReceive c] := rfl
@[simp] theorem pollReturn_bnd_recordLog (c : ReceiveCode) (s : State) :
    (pollReturn c s).bnd.recordLog = s.bnd.recordLog ++ [s.rx.record] := rfl
@[simp] theorem pollReturn_callResult (c : ReceiveCode) (s : State) :
    (pollReturn c s).callResult = s.callResult := rfl
@[simp] theorem pollReturn_agenda (c : ReceiveCode) (s : State) : (pollReturn c s).agenda = s.agenda := rfl
@[simp] theorem pollReturn_slice (c : ReceiveCode) (s : State) : (pollReturn c s).slice = s.slice := rfl
@[simp] theorem rxToken_build (s : State) : (rxToken s).build = s.build := by
  unfold rxToken; dsimp only; split <;> rfl
@[simp] theorem rxToken_hrq (s : State) : (rxToken s).hrq = s.hrq := by
  unfold rxToken; dsimp only; split <;> rfl
@[simp] theorem rxToken_rx_buf (s : State) : (rxToken s).rx.buf = s.rx.buf := by
  unfold rxToken; dsimp only; split <;> rfl
@[simp] theorem rxToken_rx_tail (s : State) : (rxToken s).rx.tail = s.rx.tail + 1 := by
  unfold rxToken; dsimp only; split <;> rfl
@[simp] theorem rxToken_rx_head (s : State) : (rxToken s).rx.head = s.rx.head := by
  unfold rxToken; dsimp only; split <;> rfl
@[simp] theorem rxToken_rx_state (s : State) : (rxToken s).rx.state = .lengthHigh := rfl
@[simp] theorem rxToken_rx_messageLength (s : State) : (rxToken s).rx.messageLength = s.rx.messageLength := by
  unfold rxToken; dsimp only; split <;> rfl
@[simp] theorem rxToken_rx_messageStart (s : State) : (rxToken s).rx.messageStart = s.rx.messageStart := by
  unfold rxToken; dsimp only; split <;> rfl
@[simp] theorem rxToken_rx_active (s : State) : (rxToken s).rx.active = true := rfl
@[simp] theorem rxToken_rx_record (s : State) : (rxToken s).rx.record = s.rx.record := by
  unfold rxToken; dsimp only; split <;> rfl
@[simp] theorem rxToken_tx (s : State) : (rxToken s).tx = s.tx := by
  unfold rxToken; dsimp only; split <;> rfl
@[simp] theorem rxToken_ctl (s : State) : (rxToken s).ctl = s.ctl := by
  unfold rxToken; dsimp only; split <;> rfl
@[simp] theorem rxToken_bnd_diagBuf (s : State) : (rxToken s).bnd.diagBuf = s.bnd.diagBuf := by
  unfold rxToken; dsimp only; split <;> rfl
@[simp] theorem rxToken_bnd_sinkQ (s : State) : (rxToken s).bnd.sinkQ = s.bnd.sinkQ := by
  unfold rxToken; dsimp only; split <;> rfl
@[simp] theorem rxToken_bnd_wireTx (s : State) : (rxToken s).bnd.wireTx = s.bnd.wireTx := by
  unfold rxToken; dsimp only; split <;> rfl
@[simp] theorem rxToken_bnd_wireRxCount (s : State) : (rxToken s).bnd.wireRxCount = s.bnd.wireRxCount := by
  unfold rxToken; dsimp only; split <;> rfl
@[simp] theorem rxToken_bnd_results (s : State) : (rxToken s).bnd.results = s.bnd.results := by
  unfold rxToken; dsimp only; split <;> rfl
@[simp] theorem rxToken_bnd_recordLog (s : State) : (rxToken s).bnd.recordLog = s.bnd.recordLog := by
  unfold rxToken; dsimp only; split <;> rfl
@[simp] theorem rxToken_callResult (s : State) : (rxToken s).callResult = s.callResult := by
  unfold rxToken; dsimp only; split <;> rfl
@[simp] theorem rxToken_agenda (s : State) : (rxToken s).agenda = s.agenda := by
  unfold rxToken; dsimp only; split <;> rfl
@[simp] theorem rxToken_slice (s : State) : (rxToken s).slice = s.slice := by
  unfold rxToken; dsimp only; split <;> rfl
@[simp] theorem rxSkip_build (s : State) : (rxSkip s).build = s.build := rfl
@[simp] theorem rxSkip_hrq (s : State) : (rxSkip s).hrq = s.hrq := rfl
@[simp] theorem rxSkip_rx_buf (s : State) : (rxSkip s).rx.buf = s.rx.buf := rfl
@[simp] theorem rxSkip_rx_tail (s : State) : (rxSkip s).rx.tail = s.rx.tail + 1 := rfl
@[simp] theorem rxSkip_rx_head (s : State) : (rxSkip s).rx.head = s.rx.head := rfl
@[simp] theorem rxSkip_rx_state (s : State) : (rxSkip s).rx.state = s.rx.state := rfl
@[simp] theorem rxSkip_rx_messageLength (s : State) : (rxSkip s).rx.messageLength = s.rx.messageLength := rfl
@[simp] theorem rxSkip_rx_messageStart (s : State) : (rxSkip s).rx.messageStart = s.rx.messageStart := rfl
@[simp] theorem rxSkip_rx_active (s : State) : (rxSkip s).rx.active = s.rx.active := rfl
@[simp] theorem rxSkip_rx_record (s : State) : (rxSkip s).rx.record = s.rx.record := rfl
@[simp] theorem rxSkip_tx (s : State) : (rxSkip s).tx = s.tx := rfl
@[simp] theorem rxSkip_ctl (s : State) : (rxSkip s).ctl = s.ctl := rfl
@[simp] theorem rxSkip_bnd (s : State) : (rxSkip s).bnd = s.bnd := rfl
@[simp] theorem rxSkip_callResult (s : State) : (rxSkip s).callResult = s.callResult := rfl
@[simp] theorem rxSkip_agenda (s : State) : (rxSkip s).agenda = s.agenda := rfl
@[simp] theorem rxSkip_slice (s : State) : (rxSkip s).slice = s.slice := rfl
@[simp] theorem rxLenH_build (b : Byte) (s : State) : (rxLenH b s).build = s.build := rfl
@[simp] theorem rxLenH_hrq (b : Byte) (s : State) : (rxLenH b s).hrq = s.hrq := rfl
@[simp] theorem rxLenH_rx_buf (b : Byte) (s : State) : (rxLenH b s).rx.buf = s.rx.buf := rfl
@[simp] theorem rxLenH_rx_tail (b : Byte) (s : State) : (rxLenH b s).rx.tail = s.rx.tail + 1 := rfl
@[simp] theorem rxLenH_rx_head (b : Byte) (s : State) : (rxLenH b s).rx.head = s.rx.head := rfl
@[simp] theorem rxLenH_rx_state (b : Byte) (s : State) : (rxLenH b s).rx.state = .lengthLow := rfl
@[simp] theorem rxLenH_rx_messageLength (b : Byte) (s : State) :
    (rxLenH b s).rx.messageLength = setLengthHigh s.rx.messageLength b := rfl
@[simp] theorem rxLenH_rx_messageStart (b : Byte) (s : State) :
    (rxLenH b s).rx.messageStart = s.rx.messageStart := rfl
@[simp] theorem rxLenH_rx_active (b : Byte) (s : State) : (rxLenH b s).rx.active = s.rx.active := rfl
@[simp] theorem rxLenH_rx_record (b : Byte) (s : State) : (rxLenH b s).rx.record = s.rx.record := rfl
@[simp] theorem rxLenH_tx (b : Byte) (s : State) : (rxLenH b s).tx = s.tx := rfl
@[simp] theorem rxLenH_ctl (b : Byte) (s : State) : (rxLenH b s).ctl = s.ctl := rfl
@[simp] theorem rxLenH_bnd (b : Byte) (s : State) : (rxLenH b s).bnd = s.bnd := rfl
@[simp] theorem rxLenH_callResult (b : Byte) (s : State) : (rxLenH b s).callResult = s.callResult := rfl
@[simp] theorem rxLenH_agenda (b : Byte) (s : State) : (rxLenH b s).agenda = s.agenda := rfl
@[simp] theorem rxLenH_slice (b : Byte) (s : State) : (rxLenH b s).slice = s.slice := rfl

/-! ### The transmit side -/

@[simp] theorem scratchUnspecified_build (s : State) : (scratchUnspecified s).build = s.build := rfl
@[simp] theorem scratchUnspecified_hrq (s : State) : (scratchUnspecified s).hrq = s.hrq := rfl
@[simp] theorem scratchUnspecified_rx (s : State) : (scratchUnspecified s).rx = s.rx := rfl
@[simp] theorem scratchUnspecified_tx_buf (s : State) : (scratchUnspecified s).tx.buf = s.tx.buf := rfl
@[simp] theorem scratchUnspecified_tx_tail (s : State) : (scratchUnspecified s).tx.tail = s.tx.tail := rfl
@[simp] theorem scratchUnspecified_tx_head (s : State) : (scratchUnspecified s).tx.head = s.tx.head := rfl
@[simp] theorem scratchUnspecified_tx_encScratch (s : State) : (scratchUnspecified s).tx.encScratch = [] := rfl
@[simp] theorem scratchUnspecified_ctl (s : State) : (scratchUnspecified s).ctl = s.ctl := rfl
@[simp] theorem scratchUnspecified_bnd (s : State) : (scratchUnspecified s).bnd = s.bnd := rfl
@[simp] theorem scratchUnspecified_callResult (s : State) : (scratchUnspecified s).callResult = s.callResult := rfl
@[simp] theorem scratchUnspecified_agenda (s : State) : (scratchUnspecified s).agenda = s.agenda := rfl
@[simp] theorem scratchUnspecified_slice (s : State) : (scratchUnspecified s).slice = s.slice := rfl
@[simp] theorem sinkAccept_build (bs : List Byte) (s : State) : ((sinkAccept bs s).1).build = s.build := rfl
@[simp] theorem sinkAccept_hrq (bs : List Byte) (s : State) : ((sinkAccept bs s).1).hrq = s.hrq := rfl
@[simp] theorem sinkAccept_rx (bs : List Byte) (s : State) : ((sinkAccept bs s).1).rx = s.rx := rfl
@[simp] theorem sinkAccept_tx (bs : List Byte) (s : State) : ((sinkAccept bs s).1).tx = s.tx := rfl
@[simp] theorem sinkAccept_ctl (bs : List Byte) (s : State) : ((sinkAccept bs s).1).ctl = s.ctl := rfl
@[simp] theorem sinkAccept_bnd_diagLog (bs : List Byte) (s : State) :
    ((sinkAccept bs s).1).bnd.diagLog = s.bnd.diagLog := rfl
@[simp] theorem sinkAccept_bnd_diagBuf (bs : List Byte) (s : State) :
    ((sinkAccept bs s).1).bnd.diagBuf = s.bnd.diagBuf := rfl
@[simp] theorem sinkAccept_bnd_sinkQ (bs : List Byte) (s : State) :
    ((sinkAccept bs s).1).bnd.sinkQ = s.bnd.sinkQ ++ bs.take (min bs.length (sinkSpace s)) := rfl
@[simp] theorem sinkAccept_bnd_wireTx (bs : List Byte) (s : State) :
    ((sinkAccept bs s).1).bnd.wireTx = s.bnd.wireTx := rfl
@[simp] theorem sinkAccept_bnd_wireRxCount (bs : List Byte) (s : State) :
    ((sinkAccept bs s).1).bnd.wireRxCount = s.bnd.wireRxCount := rfl
@[simp] theorem sinkAccept_bnd_results (bs : List Byte) (s : State) :
    ((sinkAccept bs s).1).bnd.results = s.bnd.results := rfl
@[simp] theorem sinkAccept_bnd_recordLog (bs : List Byte) (s : State) :
    ((sinkAccept bs s).1).bnd.recordLog = s.bnd.recordLog := rfl
@[simp] theorem sinkAccept_callResult (bs : List Byte) (s : State) :
    ((sinkAccept bs s).1).callResult = s.callResult := rfl
@[simp] theorem sinkAccept_agenda (bs : List Byte) (s : State) : ((sinkAccept bs s).1).agenda = s.agenda := rfl
@[simp] theorem sinkAccept_slice (bs : List Byte) (s : State) : ((sinkAccept bs s).1).slice = s.slice := rfl
@[simp] theorem txAdvance_build (w : Nat) (s : State) : (txAdvance w s).build = s.build := by
  unfold txAdvance; split <;> rfl
@[simp] theorem txAdvance_hrq (w : Nat) (s : State) : (txAdvance w s).hrq = s.hrq := by
  unfold txAdvance; split <;> rfl
@[simp] theorem txAdvance_rx (w : Nat) (s : State) : (txAdvance w s).rx = s.rx := by
  unfold txAdvance; split <;> rfl
@[simp] theorem txAdvance_tx_buf (w : Nat) (s : State) : (txAdvance w s).tx.buf = s.tx.buf := by
  unfold txAdvance; split <;> rfl
@[simp] theorem txAdvance_tx_encScratch (w : Nat) (s : State) : (txAdvance w s).tx.encScratch = s.tx.encScratch := by
  unfold txAdvance; split <;> rfl
@[simp] theorem txAdvance_ctl (w : Nat) (s : State) : (txAdvance w s).ctl = s.ctl := by
  unfold txAdvance; split <;> rfl
@[simp] theorem txAdvance_bnd (w : Nat) (s : State) : (txAdvance w s).bnd = s.bnd := by
  unfold txAdvance; split <;> rfl
@[simp] theorem txAdvance_callResult (w : Nat) (s : State) : (txAdvance w s).callResult = s.callResult := by
  unfold txAdvance; split <;> rfl
@[simp] theorem txAdvance_agenda (w : Nat) (s : State) : (txAdvance w s).agenda = s.agenda := by
  unfold txAdvance; split <;> rfl
@[simp] theorem txAdvance_slice (w : Nat) (s : State) : (txAdvance w s).slice = s.slice := by
  unfold txAdvance; split <;> rfl
@[simp] theorem diagAppendText_build (t : List Byte) (s : State) : ((diagAppendText t s).1).build = s.build := rfl
@[simp] theorem diagAppendText_hrq (t : List Byte) (s : State) : ((diagAppendText t s).1).hrq = s.hrq := rfl
@[simp] theorem diagAppendText_rx (t : List Byte) (s : State) : ((diagAppendText t s).1).rx = s.rx := rfl
@[simp] theorem diagAppendText_tx (t : List Byte) (s : State) : ((diagAppendText t s).1).tx = s.tx := rfl
@[simp] theorem diagAppendText_ctl (t : List Byte) (s : State) : ((diagAppendText t s).1).ctl = s.ctl := rfl
@[simp] theorem diagAppendText_bnd_diagLog (t : List Byte) (s : State) :
    ((diagAppendText t s).1).bnd.diagLog = s.bnd.diagLog := rfl
@[simp] theorem diagAppendText_bnd_diagBuf (t : List Byte) (s : State) :
    ((diagAppendText t s).1).bnd.diagBuf = appendText s.build.diagCap s.build.truncMarker s.bnd.diagBuf t := rfl
@[simp] theorem diagAppendText_bnd_sinkQ (t : List Byte) (s : State) :
    ((diagAppendText t s).1).bnd.sinkQ = s.bnd.sinkQ := rfl
@[simp] theorem diagAppendText_bnd_wireTx (t : List Byte) (s : State) :
    ((diagAppendText t s).1).bnd.wireTx = s.bnd.wireTx := rfl
@[simp] theorem diagAppendText_bnd_wireRxCount (t : List Byte) (s : State) :
    ((diagAppendText t s).1).bnd.wireRxCount = s.bnd.wireRxCount := rfl
@[simp] theorem diagAppendText_bnd_results (t : List Byte) (s : State) :
    ((diagAppendText t s).1).bnd.results = s.bnd.results := rfl
@[simp] theorem diagAppendText_bnd_recordLog (t : List Byte) (s : State) :
    ((diagAppendText t s).1).bnd.recordLog = s.bnd.recordLog := rfl
@[simp] theorem diagAppendText_callResult (t : List Byte) (s : State) :
    ((diagAppendText t s).1).callResult = s.callResult := rfl
@[simp] theorem diagAppendText_agenda (t : List Byte) (s : State) : ((diagAppendText t s).1).agenda = s.agenda := rfl
@[simp] theorem diagAppendText_slice (t : List Byte) (s : State) : ((diagAppendText t s).1).slice = s.slice := rfl
@[simp] theorem diagClear_build (s : State) : (diagClear s).build = s.build := rfl
@[simp] theorem diagClear_hrq (s : State) : (diagClear s).hrq = s.hrq := rfl
@[simp] theorem diagClear_rx (s : State) : (diagClear s).rx = s.rx := rfl
@[simp] theorem diagClear_tx (s : State) : (diagClear s).tx = s.tx := rfl
@[simp] theorem diagClear_ctl (s : State) : (diagClear s).ctl = s.ctl := rfl
@[simp] theorem diagClear_bnd_diagLog (s : State) : (diagClear s).bnd.diagLog = s.bnd.diagLog := rfl
@[simp] theorem diagClear_bnd_diagBuf (s : State) : (diagClear s).bnd.diagBuf = [] := rfl
@[simp] theorem diagClear_bnd_sinkQ (s : State) : (diagClear s).bnd.sinkQ = s.bnd.sinkQ := rfl
@[simp] theorem diagClear_bnd_wireTx (s : State) : (diagClear s).bnd.wireTx = s.bnd.wireTx := rfl
@[simp] theorem diagClear_bnd_wireRxCount (s : State) : (diagClear s).bnd.wireRxCount = s.bnd.wireRxCount := rfl
@[simp] theorem diagClear_bnd_results (s : State) : (diagClear s).bnd.results = s.bnd.results := rfl
@[simp] theorem diagClear_bnd_recordLog (s : State) : (diagClear s).bnd.recordLog = s.bnd.recordLog := rfl
@[simp] theorem diagClear_callResult (s : State) : (diagClear s).callResult = s.callResult := rfl
@[simp] theorem diagClear_agenda (s : State) : (diagClear s).agenda = s.agenda := rfl
@[simp] theorem diagClear_slice (s : State) : (diagClear s).slice = s.slice := rfl

/-! ### The schedule -/

@[simp] theorem takeTurn_build (r : List Turn) (k : Option Nat) (s : State) : (takeTurn r k s).build = s.build := rfl
@[simp] theorem takeTurn_hrq (r : List Turn) (k : Option Nat) (s : State) : (takeTurn r k s).hrq = s.hrq := rfl
@[simp] theorem takeTurn_rx (r : List Turn) (k : Option Nat) (s : State) : (takeTurn r k s).rx = s.rx := rfl
@[simp] theorem takeTurn_tx (r : List Turn) (k : Option Nat) (s : State) : (takeTurn r k s).tx = s.tx := rfl
@[simp] theorem takeTurn_ctl (r : List Turn) (k : Option Nat) (s : State) : (takeTurn r k s).ctl = s.ctl := rfl
@[simp] theorem takeTurn_bnd (r : List Turn) (k : Option Nat) (s : State) : (takeTurn r k s).bnd = s.bnd := rfl
@[simp] theorem takeTurn_callResult (r : List Turn) (k : Option Nat) (s : State) :
    (takeTurn r k s).callResult = s.callResult := rfl
@[simp] theorem takeTurn_agenda (r : List Turn) (k : Option Nat) (s : State) : (takeTurn r k s).agenda = r := rfl
@[simp] theorem takeTurn_slice (r : List Turn) (k : Option Nat) (s : State) : (takeTurn r k s).slice = k := rfl
@[simp] theorem placeTurn_build (w : List Byte) (s : State) : (placeTurn w s).build = s.build := rfl
@[simp] theorem placeTurn_hrq (w : List Byte) (s : State) : (placeTurn w s).hrq = s.hrq := rfl
@[simp] theorem placeTurn_rx (w : List Byte) (s : State) : (placeTurn w s).rx = s.rx := rfl
@[simp] theorem placeTurn_tx (w : List Byte) (s : State) : (placeTurn w s).tx = s.tx := rfl
@[simp] theorem placeTurn_ctl (w : List Byte) (s : State) : (placeTurn w s).ctl = s.ctl := rfl
@[simp] theorem placeTurn_bnd (w : List Byte) (s : State) : (placeTurn w s).bnd = s.bnd := rfl
@[simp] theorem placeTurn_callResult (w : List Byte) (s : State) : (placeTurn w s).callResult = s.callResult := rfl
@[simp] theorem placeTurn_agenda (w : List Byte) (s : State) :
    (placeTurn w s).agenda = .offer w none :: s.agenda := rfl
@[simp] theorem placeTurn_slice (w : List Byte) (s : State) : (placeTurn w s).slice = s.slice := rfl
@[simp] theorem resetOf_build (b : Build) : (State.resetOf b).build = b := rfl

end Sys2Proof.Machine
end

