-- ==== Sys2Proof/Laws/Ops.lean ====
section
/-! SUPPORT. One lemma for each shared operation, which says once everything the operation can do; and the principles by which a
property that every line keeps holds of a whole `FEED`, command or step. Proofs cite these instead of unfolding. -/

namespace Sys2Proof.Machine

/-! ### HRQ -/

theorem pushEdge_of_full {aw : Nat} {b : Byte} {h : Hrq} (hf : hrqFull aw h = true) :
    pushEdge aw b h = { wsyncEdge h with lost := true } := by
  simp [pushEdge, hf]

theorem pushEdge_of_room {aw : Nat} {b : Byte} {h : Hrq} (hf : hrqFull aw h = false) :
    pushEdge aw b h = { wsyncEdge h with
      mem := memSet h.mem (h.wbin % 2 ^ aw) b
      wbin := wrapSucc (aw + 1) h.wbin
      wgray := gray (wrapSucc (aw + 1) h.wbin) } := by
  simp [pushEdge, hf]

theorem popEdge_eq_next {aw : Nat} {h h' : Hrq} {b : Byte} :
    popEdge aw h = .next (b, h') ↔
      hrqEmpty h = false ∧ memGet h.mem (h.rbin % 2 ^ aw) = some b ∧
      h' = { rsyncEdge h with
        rbin := wrapSucc (aw + 1) h.rbin, rgray := gray (wrapSucc (aw + 1) h.rbin) } := by
  have hlt : h.rbin % 2 ^ aw < 2 ^ aw := Nat.mod_lt _ (Nat.two_pow_pos aw)
  unfold popEdge
  split
  · next he => simp [he]
  · next he =>
    simp only [andThen_eq_next, memRead_eq_next, Host.Outcome.next.injEq, Prod.mk.injEq]
    constructor
    · rintro ⟨_, ⟨_, hb⟩, rfl, rfl⟩; exact ⟨by simpa using he, hb, rfl⟩
    · rintro ⟨_, hb, rfl⟩; exact ⟨b, ⟨hlt, hb⟩, rfl, rfl⟩

/-- The one refusal of a pop, and when. -/
theorem popEdge_eq_refused {aw : Nat} {h : Hrq} {r : Refusal} :
    popEdge aw h = .refused r ↔ hrqEmpty h = true ∧ r = .popOnEmpty := by
  unfold popEdge
  split
  · next he => simp [he, eq_comm]
  · next he => simp [he, andThen_eq_refused, memRead_ne_refused]

/-! ### FEED -/

theorem feedStart_diagLog (s : State) :
    (feedStart s).bnd.diagLog = s.bnd.diagLog ++
      (if s.build.hrqWatermark ≤ hrqAvail s.build.hrqAw s.hrq then [DiagEvent.insufficientReceiveRate] else []) := by
  unfold feedStart; dsimp only; split <;> simp

theorem feedMakeRoom_of_room {s : State} (h : s.rx.head ≠ s.build.rxCap) : feedMakeRoom s = s := by
  simp [feedMakeRoom, h]

theorem feedMakeRoom_of_full {s : State} (h : s.rx.head = s.build.rxCap) :
    feedMakeRoom s = { raiseDiag .incomingDataRateTooFast s with
      rx := { s.rx with tail := 0, head := 0, state := .awaitStart, active := false } } := by
  simp [feedMakeRoom, h]

theorem feedMove_eq_next {s t : State} :
    feedMove s = .next t ↔ ∃ b h, popEdge s.build.hrqAw s.hrq = .next (b, h) ∧ s.rx.head < s.build.rxCap ∧
      t = { s with hrq := h, rx := { s.rx with buf := memSet s.rx.buf s.rx.head b, head := s.rx.head + 1 } } := by
  simp only [feedMove, andThen_eq_next, memWrite_eq_next, Host.Outcome.next.injEq]
  constructor
  · rintro ⟨⟨b, h⟩, hp, _, ⟨hlt, rfl⟩, rfl⟩; exact ⟨b, h, hp, hlt, rfl⟩
  · rintro ⟨b, h, hp, hlt, rfl⟩; exact ⟨(b, h), hp, _, ⟨hlt, rfl⟩, rfl⟩

/-- A line of a `FEED` ends it, or moves one byte after making room for it. -/
theorem feedLine_cases {s t : State} (h : feedLine s = .next t) :
    (hrqAvail s.build.hrqAw s.hrq = 0 ∧ t = feedEnd s) ∨
    (hrqAvail s.build.hrqAw s.hrq ≠ 0 ∧ feedMove (feedMakeRoom s) = .next t) := by
  unfold feedLine at h
  split at h
  · next h0 => exact .inl ⟨h0, by simpa [eq_comm] using h⟩
  · next h0 => exact .inr ⟨h0, h⟩

theorem popIsNext_iff {s : State} :
    popIsNext s = true ↔
      s.ctl.feedActive = true ∧ hrqAvail s.build.hrqAw s.hrq ≠ 0 ∧ s.rx.head ≠ s.build.rxCap := by
  simp [popIsNext, and_assoc]

/-- The line of the `FEED` at which a pop comes next moves one byte and makes no room. -/
theorem feedLine_of_popIsNext {s : State} (h : popIsNext s = true) : feedLine s = feedMove s := by
  obtain ⟨-, h0, hr⟩ := popIsNext_iff.1 h
  simp [feedLine, h0, feedMakeRoom_of_room hr]

theorem onPop_of_empty {s : State} (h : hrqEmpty s.hrq = true) : onPop s = .refused .popOnEmpty := by simp [onPop, h]

theorem onPop_of_other {s : State} (he : hrqEmpty s.hrq = false) (h : popIsNext s = false) : onPop s = .next s := by
  simp [onPop, he, h]

/-- A pop that comes next: the byte popped, and the line of the `FEED` that stores it. -/
theorem onPop_of_next {s : State} (he : hrqEmpty s.hrq = false) (h : popIsNext s = true) :
    onPop s = andThen (popEdge s.build.hrqAw s.hrq) fun p =>
      andThen (feedLine s) fun t => .next { t with callResult := some (.byte p.1) } := by
  simp [onPop, he, h, feedLine_of_popIsNext h]

/-- A line that pops goes on with the `FEED`. -/
theorem feedLine_active {s t : State} (hp : popIsNext s = true) (h : feedLine s = .next t) : t.ctl.feedActive = true := by
  rw [feedLine_of_popIsNext hp] at h
  obtain ⟨_, _, -, -, rfl⟩ := feedMove_eq_next.1 h
  exact (popIsNext_iff.1 hp).1

@[simp] theorem feedLines_idle {n : Nat} {s : State} (h : s.ctl.feedActive = false) : feedLines n s = .next s := by
  cases n <;> simp [feedLines, h]

/-- What every line of a `FEED` keeps, the whole `FEED` keeps. -/
theorem feedLines_induct {P : State → Prop}
    (line : ∀ s t, P s → s.ctl.feedActive = true → feedLine s = .next t → P t) :
    ∀ (n : Nat) (s t : State), P s → feedLines n s = .next t → P t := by
  intro n
  induction n with
  | zero => intro s t hs h; simp only [feedLines, Host.Outcome.next.injEq] at h; exact h ▸ hs
  | succ n ih =>
    intro s t hs h
    unfold feedLines at h
    split at h
    · next ha =>
      obtain ⟨u, hu, ht⟩ := andThen_eq_next.1 h
      exact ih u t (line s u hs ha hu) ht
    · simp only [Host.Outcome.next.injEq] at h; exact h ▸ hs

/-! ### POLL_RECEIVE -/

theorem rxToken_diagLog (s : State) :
    (rxToken s).bnd.diagLog = s.bnd.diagLog ++
      (if s.rx.state = .awaitStart then [] else [DiagEvent.previousPacketIncomplete]) := by
  unfold rxToken; dsimp only; split <;> simp

theorem rxLenL_of_oversized {b : Byte} {s : State} (h : s.build.rxCap < (setLengthLow s.rx.messageLength b).toNat) :
    rxLenL b s = pollReturn .messageExceedsBufferSize { s with rx := { s.rx with
      messageLength := setLengthLow s.rx.messageLength b, tail := 0, head := 0, state := .awaitStart, active := false } } := by
  simp [rxLenL, h]

theorem rxLenL_of_fits {b : Byte} {s : State} (h : (setLengthLow s.rx.messageLength b).toNat ≤ s.build.rxCap) :
    rxLenL b s = { s with rx := { s.rx with
      messageLength := setLengthLow s.rx.messageLength b, tail := s.rx.tail + 1
      messageStart := s.rx.tail + 1, state := .body } } := by
  simp [rxLenL, Nat.not_lt.2 h]

/-- `RXB.BODY` returns `InProgress` with everything consumed, or delivers the payload window. -/
theorem rxBody_cases {s t : State} (h : rxBody s = .next t) :
    (s.rx.head < payloadEnd s ∧ t = pollReturn .inProgress { s with rx := { s.rx with tail := s.rx.head } }) ∨
    (payloadEnd s ≤ s.rx.head ∧ ∃ payload,
      memReadRun .rxBuf s.build.rxCap s.rx.buf s.rx.messageStart s.rx.messageLength.toNat = .next payload ∧
      t = rxDeliver payload { s with rx := { s.rx with tail := payloadEnd s } }) := by
  unfold rxBody at h
  dsimp only at h
  split at h
  · next hlt =>
    have hle : s.rx.head < payloadEnd s := by omega
    refine .inl ⟨hle, ?_⟩
    rw [Nat.min_eq_right (by omega)] at h
    simpa [eq_comm] using h
  · next hge =>
    have hle : payloadEnd s ≤ s.rx.head := by omega
    refine .inr ⟨hle, ?_⟩
    rw [Nat.min_eq_left hle] at h
    obtain ⟨p, hp, ht⟩ := andThen_eq_next.1 h
    exact ⟨p, hp, by simpa [eq_comm] using ht⟩

/-- One iteration is of exactly one byte class (R82). -/
theorem rxIterate_cases {b : Byte} {s t : State} (h : rxIterate b s = .next t) :
    (b = s.build.startToken ∧ t = rxToken s) ∨
    (b ≠ s.build.startToken ∧ s.rx.state = .awaitStart ∧ t = rxSkip s) ∨
    (b ≠ s.build.startToken ∧ s.rx.state = .lengthHigh ∧ t = rxLenH b s) ∨
    (b ≠ s.build.startToken ∧ s.rx.state = .lengthLow ∧ t = rxLenL b s) ∨
    (b ≠ s.build.startToken ∧ s.rx.state = .body ∧ rxBody s = .next t) := by
  unfold rxIterate at h
  split at h
  · next hb => exact .inl ⟨hb, by simpa [eq_comm] using h⟩
  · next hb =>
    cases hst : s.rx.state <;> simp only [hst, Host.Outcome.next.injEq] at h <;> simp [hb, h]

/-- A line of the loop of `POLL_RECEIVE` returns `InProgress` at the end of the buffered bytes, or inspects one byte. -/
theorem scanLine_cases {s t : State} (h : scanLine s = .next t) :
    (s.rx.head ≤ s.rx.tail ∧ t = pollReturn .inProgress s) ∨
    (s.rx.tail < s.rx.head ∧ ∃ b, memGet s.rx.buf s.rx.tail = some b ∧ rxIterate b s = .next t) := by
  unfold scanLine at h
  split at h
  · next hlt =>
    obtain ⟨b, hb, ht⟩ := andThen_eq_next.1 h
    exact .inr ⟨hlt, b, (memRead_eq_next.1 hb).2, ht⟩
  · next hlt => exact .inl ⟨by omega, by simpa [eq_comm] using h⟩

theorem onIteration_of_enabled {i : Instr} {act : State → Out State} {s : State} (h : rxbEnabled i s = true) :
    onIteration i act s = act s := by simp [onIteration, h]

theorem onIteration_of_disabled {i : Instr} {act : State → Out State} {s : State} (h : rxbEnabled i s = false) :
    onIteration i act s = .next s := by simp [onIteration, h]

/-- What a byte class needs (R82): the loop is running, and the byte at `rx_tail` is classified so. -/
theorem rxbEnabled_iff {i : Instr} {s : State} :
    rxbEnabled i s = true ↔ s.ctl.main = .pollScan ∧ s.rx.tail < s.rx.head ∧
      ∃ b, memGet s.rx.buf s.rx.tail = some b ∧ classify (decodeCtx s) b = i := by
  cases h : memGet s.rx.buf s.rx.tail <;> simp [rxbEnabled, h, and_assoc]

/-- The record and the diagnostic trace after a delivery (R149). -/
theorem rxDeliver_cases (p : List Byte) (s : State) :
    (∃ r, decodePayload s.build p = .ok r ∧ (rxDeliver p s).rx.record = some r ∧
      (rxDeliver p s).bnd.diagLog = s.bnd.diagLog ∧
      (rxDeliver p s).bnd.results = s.bnd.results ++ [.pollReceive .packetReceived]) ∨
    (∃ e, decodePayload s.build p = .err e ∧ (rxDeliver p s).rx.record = s.rx.record ∧
      (rxDeliver p s).bnd.diagLog = s.bnd.diagLog ++ [.deserializationFailed e p] ∧
      (rxDeliver p s).bnd.results = s.bnd.results ++ [.pollReceive .deserializationFailed]) := by
  unfold rxDeliver
  cases h : decodePayload s.build p with
  | ok r => exact .inl ⟨r, rfl, by simp⟩
  | err e => refine .inr ⟨e, rfl, ?_⟩; by_cases ht : s.rx.tail = s.rx.head <;> simp [ht]

/-! ### The transmit side -/

theorem scratchPayload_eq_next {p : List Byte} {s t : State} :
    scratchPayload p s = .next t ↔ (p = [] ∨ p.length ≤ s.build.encScratchCap) ∧
      t = { s with tx := { s.tx with encScratch := memSetRun s.tx.encScratch 0 p } } := by
  simp only [scratchPayload, andThen_eq_next, memWriteRun_eq_next, Nat.zero_add, Host.Outcome.next.injEq]
  constructor
  · rintro ⟨_, ⟨hfit, rfl⟩, rfl⟩; exact ⟨hfit, rfl⟩
  · rintro ⟨hfit, rfl⟩; exact ⟨_, ⟨hfit, rfl⟩, rfl⟩

/-- A payload that `encode` returned fits the scratch buffer (R12). -/
theorem encodeRecord_ok_length {b : Build} {r : Record} {p : List Byte} (h : encodeRecord b r = .ok p) :
    p.length ≤ b.encScratchCap := by
  unfold encodeRecord at h
  cases hr : encodeRaw b r with
  | ok q =>
    simp only [hr] at h
    split at h
    · simp only [EncodeResult.ok.injEq] at h; exact h ▸ ‹_›
    · simp at h
  | didNotFit => simp [hr] at h
  | other c => simp [hr] at h

/-- The payload that was just encoded is the one that is framed (R50). -/
theorem memReadRun_scratch {cap : Nat} {m : Memory} {p : List Byte} (h : p.length ≤ cap) :
    memReadRun .encScratch cap (memSetRun m 0 p) 0 p.length = .next p := by
  refine memReadRun_eq_next.2 ⟨rfl, fun k hk => ⟨by omega, ?_⟩⟩
  simp [memGet_memSetRun, hk]

@[simp] theorem frameBytes_length (tok : Byte) (p : List Byte) : (frameBytes tok p).length = p.length + 3 := by
  simp [frameBytes]

/-- The whole of `ENQUEUE`, case by case (R170 to R173). -/
theorem enqueueRecord_cases {r : Record} {s : State} {x : State × EnqueueCode} (h : enqueueRecord r s = .next x) :
    (encodeRecord s.build r = .didNotFit ∧ x = (scratchUnspecified s, .docOverflow)) ∨
    ∃ p, encodeRecord s.build r = .ok p ∧
      ((s.build.txCap - s.tx.head < p.length + 3 ∧
        x = ({ s with tx := { s.tx with encScratch := memSetRun s.tx.encScratch 0 p } },
          if s.tx.tail < s.tx.head then .insufficientTransmitRate else .packetExceedsBufferSize)) ∨
       (p.length + 3 ≤ s.build.txCap - s.tx.head ∧
        x = ({ s with tx := { s.tx with
            buf := memSetRun s.tx.buf s.tx.head (frameBytes s.build.startToken p)
            head := s.tx.head + (p.length + 3)
            encScratch := memSetRun s.tx.encScratch 0 p } }, .success))) := by
  unfold enqueueRecord at h
  cases he : encodeRecord s.build r with
  | didNotFit => simp only [he, Host.Outcome.next.injEq] at h; exact .inl ⟨rfl, h.symm⟩
  | other c => simp [he] at h
  | ok p =>
    simp only [he, andThen_eq_next, scratchPayload_eq_next] at h
    obtain ⟨_, ⟨_, rfl⟩, h⟩ := h
    have hp := encodeRecord_ok_length he
    refine .inr ⟨p, rfl, ?_⟩
    unfold enqueuePayload at h
    dsimp only at h
    split at h
    · next hfull =>
      refine .inl ⟨hfull, ?_⟩
      split at h
      · next hlt => simpa [hlt, eq_comm] using h
      · next hge => simpa [Nat.not_lt.1 hge, hge, eq_comm] using h
    · next hroom =>
      refine .inr ⟨by omega, ?_⟩
      rw [memReadRun_scratch hp, andThen_next, memWriteRun_of_fits (by rw [frameBytes_length]; omega),
        andThen_next] at h
      simpa [eq_comm] using h

theorem sinkAccept_count (bytes : List Byte) (s : State) :
    (sinkAccept bytes s).2 = min bytes.length (sinkSpace s) := rfl

/-- The whole of `DRAIN` (R175 to R177): the sink takes all that is offered, as the offer is not above its space. -/
theorem drainOnce_eq_next {s : State} {x : State × Nat} (h : drainOnce s = .next x) :
    ∃ bytes, memReadRun .txBuf s.build.txCap s.tx.buf s.tx.tail (min (sinkSpace s) (s.tx.head - s.tx.tail)) = .next bytes ∧
      bytes.length = min (sinkSpace s) (s.tx.head - s.tx.tail) ∧
      x.1 = txAdvance bytes.length { s with bnd := { s.bnd with sinkQ := s.bnd.sinkQ ++ bytes } } ∧
      x.2 = x.1.tx.head - x.1.tx.tail := by
  obtain ⟨bytes, hb, hx⟩ := andThen_eq_next.1 h
  have hlen := (memReadRun_eq_next.1 hb).1
  have hk : min bytes.length (sinkSpace s) = bytes.length := by omega
  refine ⟨bytes, hb, hlen, ?_⟩
  simp only [sinkAccept, hk, List.take_length, Host.Outcome.next.injEq] at hx
  subst hx
  exact ⟨rfl, rfl⟩

theorem txAdvance_of_drained {w : Nat} {s : State} (h : s.tx.tail + w = s.tx.head) :
    txAdvance w s = { s with tx := { s.tx with tail := 0, head := 0 } } := by simp [txAdvance, h]

theorem txAdvance_of_pending {w : Nat} {s : State} (h : s.tx.tail + w ≠ s.tx.head) :
    txAdvance w s = { s with tx := { s.tx with tail := s.tx.tail + w } } := by simp [txAdvance, h]

/-! ### The diagnostic channel -/

theorem appendText_of_fits {cap : Nat} {marker old t : List Byte} (h : old.length + t.length ≤ cap) :
    appendText cap marker old t = old ++ t := by simp [appendText, h]

theorem appendText_of_overflow {cap : Nat} {marker old t : List Byte} (h : cap < old.length + t.length) :
    appendText cap marker old t = (old ++ t).take (cap - marker.length) ++ marker := by
  simp [appendText, Nat.not_le.2 h]

/-- The text stored never exceeds its capacity (R42), for a build in range. -/
theorem appendText_length_le {cap : Nat} {marker old t : List Byte} (hm : marker.length ≤ cap) :
    (appendText cap marker old t).length ≤ cap := by
  unfold appendText
  split
  · simpa using ‹_›
  · simp only [List.length_append, List.length_take]; omega

theorem diagEnqueueRecord_eq_next {s : State} {x : State × EnqueueCode} :
    diagEnqueueRecord s = .next x ↔
      ∃ u c, enqueueRecord (diagRecord s.build s.bnd.diagBuf) s = .next (u, c) ∧ x = (diagClear u, c) := by
  simp only [diagEnqueueRecord, andThen_eq_next, Prod.exists, Host.Outcome.next.injEq]
  exact ⟨fun ⟨u, c, hu, hx⟩ => ⟨u, c, hu, hx.symm⟩, fun ⟨u, c, hu, hx⟩ => ⟨u, c, hu, hx.symm⟩⟩

/-- `EMIT_NOW` up to its packet (R196): the text is cleared and the packet stands to be sent. -/
theorem emitPrepare_eq_next {t : List Byte} {s u : State} (h : emitPrepare t s = .next u) :
    ∃ p, encodeRecord s.build (emitRecord t s) = .ok p ∧
      u = { s with
        tx := { s.tx with encScratch := memSetRun s.tx.encScratch 0 p }
        ctl := { s.ctl with mainBusy := true, main := .emitDrain (frameBytes s.build.startToken p) }
        bnd := { s.bnd with diagBuf := [] } } := by
  unfold emitPrepare at h
  dsimp only [diagAppendText] at h
  unfold emitRecord
  cases he : encodeRecord s.build (diagRecord s.build
      (appendText s.build.diagCap s.build.truncMarker s.bnd.diagBuf t)) with
  | ok p =>
    simp only [he, andThen_eq_next, scratchPayload_eq_next] at h
    obtain ⟨_, ⟨_, rfl⟩, hu⟩ := h
    exact ⟨p, rfl, by simpa [eq_comm, acceptCommand, diagClear] using hu⟩
  | didNotFit => simp [he] at h
  | other c => simp [he] at h

theorem take_min_length (n : Nat) (l : List Byte) : l.take (min n l.length) = l.take n := by
  by_cases h : n ≤ l.length
  · rw [Nat.min_eq_left h]
  · rw [Nat.min_eq_right (by omega), List.take_length, List.take_of_length_le (by omega)]

theorem emitWrite_eq (rest : List Byte) (s : State) :
    emitWrite rest s = { s with
      bnd := { s.bnd with sinkQ := s.bnd.sinkQ ++ rest.take (sinkSpace s) }
      ctl := { s.ctl with main := .emitSend (rest.drop (sinkSpace s)) } } := by
  have hdrop : rest.drop (min (sinkSpace s) rest.length) = rest.drop (sinkSpace s) := by
    by_cases h : sinkSpace s ≤ rest.length
    · rw [Nat.min_eq_left h]
    · rw [Nat.min_eq_right (by omega), List.drop_length, List.drop_eq_nil_of_le (by omega)]
  have hk : min (List.take (sinkSpace s) rest).length (sinkSpace s) = min (sinkSpace s) rest.length := by
    simp only [List.length_take]; omega
  have hl : (List.take (sinkSpace s) rest).length = min (sinkSpace s) rest.length := List.length_take
  simp only [emitWrite, sinkAccept, setMain, take_min_length, hk, hdrop]
  rw [List.take_of_length_le (by omega)]

/-! ### The command in progress -/

theorem whenReady_of_ready {act : State → Out State} {s : State} (h : s.ctl.mainBusy = false) :
    whenReady act s = act s := by simp [whenReady, cmdReady, h]

theorem whenReady_of_busy {act : State → Out State} {s : State} (h : s.ctl.mainBusy = true) :
    whenReady act s = .next s := by simp [whenReady, cmdReady, h]

/-- Everything that one line of the control loop's command in progress can do, at each of its lines. -/
theorem mainLine_cases {s t : State} (h : mainLine s = .next t) :
    (s.ctl.main = .idle ∧ t = s) ∨
    (s.ctl.main = .feedWait ∧ (s.ctl.feedActive = true ∨ s.ctl.rxLock = true) ∧ t = s) ∨
    (s.ctl.main = .feedWait ∧ s.ctl.feedActive = false ∧ s.ctl.rxLock = false ∧ t = setMain .feedRun (feedStart s)) ∨
    (s.ctl.main = .feedRun ∧ ∃ u, feedLine s = .next u ∧ t = if u.ctl.feedActive then u else commandDone u) ∨
    (s.ctl.main = .pollWait ∧ s.ctl.feedActive = true ∧ t = s) ∨
    (s.ctl.main = .pollWait ∧ s.ctl.feedActive = false ∧ s.build.feedMode = .poll ∧
      t = setMain .pollFeed (feedStart (pollLock s))) ∨
    (s.ctl.main = .pollWait ∧ s.ctl.feedActive = false ∧ s.build.feedMode = .interrupt ∧
      t = setMain .pollTest (pollLock s)) ∨
    (s.ctl.main = .pollFeed ∧ ∃ u, feedLine s = .next u ∧ t = if u.ctl.feedActive then u else setMain .pollTest u) ∨
    (s.ctl.main = .pollTest ∧ s.rx.tail = s.rx.head ∧ t = pollReturn .noDataAvailable s) ∨
    (s.ctl.main = .pollTest ∧ s.rx.tail ≠ s.rx.head ∧ t = setMain .pollScan s) ∨
    (s.ctl.main = .pollScan ∧ scanLine s = .next t) ∨
    (∃ packet, s.ctl.main = .emitDrain packet ∧ s.tx.tail < s.tx.head ∧ ∃ x, drainOnce s = .next x ∧ t = x.1) ∨
    (∃ packet, s.ctl.main = .emitDrain packet ∧ s.tx.head ≤ s.tx.tail ∧ t = setMain (.emitSend packet) s) ∨
    (s.ctl.main = .emitSend [] ∧ t = commandDone s) ∨
    (∃ rest, s.ctl.main = .emitSend rest ∧ rest ≠ [] ∧ t = emitWrite rest s) := by
  unfold mainLine at h
  cases hm : s.ctl.main with
  | idle => simp only [hm, Host.Outcome.next.injEq] at h; simp [h]
  | feedWait =>
    simp only [hm] at h
    split at h
    · next hw => simp only [Host.Outcome.next.injEq] at h; subst h; simp_all
    · next hw => simp only [Host.Outcome.next.injEq] at h; subst h; simp_all
  | feedRun =>
    simp only [hm, andThen_eq_next, Host.Outcome.next.injEq] at h
    obtain ⟨u, hu, rfl⟩ := h
    simp [hu]
  | pollWait =>
    simp only [hm] at h
    split at h
    · next hw => simp only [Host.Outcome.next.injEq] at h; subst h; simp [hw]
    · next hw =>
      cases hf : s.build.feedMode <;> simp only [hf, reduceCtorEq, if_true, if_false, Host.Outcome.next.injEq] at h <;>
        subst h <;> simp_all
  | pollFeed =>
    simp only [hm, andThen_eq_next, Host.Outcome.next.injEq] at h
    obtain ⟨u, hu, rfl⟩ := h
    simp [hu]
  | pollTest =>
    simp only [hm] at h
    split at h
    · next he => simp only [Host.Outcome.next.injEq] at h; subst h; simp [he]
    · next he => simp only [Host.Outcome.next.injEq] at h; subst h; simp [he]
  | pollScan => simp only [hm] at h; simp [h]
  | emitDrain packet =>
    simp only [hm] at h
    split at h
    · next hlt =>
      simp only [andThen_eq_next, Host.Outcome.next.injEq] at h
      obtain ⟨x, hx, rfl⟩ := h
      have : ∃ y, drainOnce s = .next y ∧ x.1 = y.1 := ⟨x, hx, rfl⟩
      simp [hlt, this]
    · next hlt =>
      simp only [Host.Outcome.next.injEq] at h
      simp [Nat.not_lt.1 hlt, h.symm]
  | emitSend rest =>
    simp only [hm] at h
    split at h
    · next he => simp only [Host.Outcome.next.injEq] at h; subst h; simp [he]
    · next he => simp only [Host.Outcome.next.injEq] at h; subst h; simp [he]

/-- The line that pops is the same whichever agent runs the `FEED` (R108). -/
theorem mainLine_of_popIsNext {s : State} (hm : feedIsMains s = true) (hp : popIsNext s = true) :
    mainLine s = feedLine s := by
  have hl : s.ctl.main = .feedRun ∨ s.ctl.main = .pollFeed := by simpa [feedIsMains] using hm
  cases hf : feedLine s with
  | next t => obtain hl | hl := hl <;> simp [mainLine, hl, hf, andThen, feedLine_active hp hf]
  | fault f => obtain hl | hl := hl <;> simp [mainLine, hl, hf, andThen]
  | refused r => obtain hl | hl := hl <;> simp [mainLine, hl, hf, andThen]

/-- The one write that may come next (R183): that of the `DRAIN` of phase 1 of an `EMIT_NOW` in progress, or that of its phase 2. -/
theorem nextWrite_eq_some {bytes : List Byte} {s : State} :
    nextWrite s = some bytes ↔
      (∃ packet, s.ctl.main = .emitDrain packet ∧ s.tx.tail < s.tx.head ∧
        memReadRun .txBuf s.build.txCap s.tx.buf s.tx.tail (min (sinkSpace s) (s.tx.head - s.tx.tail)) = .next bytes) ∨
      (∃ rest, s.ctl.main = .emitSend rest ∧ rest ≠ [] ∧ bytes = rest.take (sinkSpace s)) := by
  unfold nextWrite
  cases hm : s.ctl.main with
  | emitDrain packet =>
    by_cases hlt : s.tx.tail < s.tx.head
    · cases memReadRun .txBuf s.build.txCap s.tx.buf s.tx.tail (min (sinkSpace s) (s.tx.head - s.tx.tail)) <;> simp [hlt]
    · simp [hlt]
  | emitSend rest => by_cases he : rest = [] <;> simp [he, take_min_length, eq_comm]
  | idle | feedWait | feedRun | pollWait | pollFeed | pollTest | pollScan => simp

theorem onWrite_of_next {bytes : List Byte} {s : State} (h : nextWrite s = some bytes) :
    onWrite bytes s = andThen (mainLine s) fun t => .next { t with callResult := some (.written bytes.length) } := by
  simp [onWrite, h]

theorem onWrite_of_other {bytes : List Byte} {s : State} (h : nextWrite s ≠ some bytes) : onWrite bytes s = .next s := by
  simp [onWrite, h]

@[simp] theorem mainLines_ready {n : Nat} {s : State} (h : s.ctl.mainBusy = false) : mainLines n s = .next s := by
  cases n <;> simp [mainLines, h]

/-- What every line of a command keeps, the whole command keeps. -/
theorem mainLines_induct {P : State → Prop}
    (line : ∀ s t, P s → s.ctl.mainBusy = true → mainLine s = .next t → P t) :
    ∀ (n : Nat) (s t : State), P s → mainLines n s = .next t → P t := by
  intro n
  induction n with
  | zero => intro s t hs h; simp only [mainLines, Host.Outcome.next.injEq] at h; exact h ▸ hs
  | succ n ih =>
    intro s t hs h
    unfold mainLines at h
    split at h
    · next hb =>
      obtain ⟨u, hu, ht⟩ := andThen_eq_next.1 h
      exact ih u t (line s u hs hb hu) ht
    · simp only [Host.Outcome.next.injEq] at h; exact h ▸ hs

/-! ### The step -/

/-- What a step can do: nothing, with no turn left; an operation; or more lines of an operation in progress. -/
theorem step_cases {s t : State} (h : step s = .next t) :
    s.build.wf = true ∧
    ((s.agenda = [] ∧ t = s) ∨
     (∃ word slice rest i, s.agenda = .offer word slice :: rest ∧
       decode (decodeCtx s) word = .ok i ∧ exec i (takeTurn rest slice s) = .next t) ∨
     (∃ slice rest, s.agenda = .resumeMain slice :: rest ∧ runMain (takeTurn rest slice s) = .next t) ∨
     (∃ slice rest, s.agenda = .resumeFeed slice :: rest ∧ runFeed (takeTurn rest slice s) = .next t)) := by
  unfold step at h
  split at h
  · next hb =>
    refine ⟨hb, ?_⟩
    unfold runTurn at h
    split at h
    · simp_all
    · next word slice rest ha =>
      have hc : decodeCtx (takeTurn rest slice s) = decodeCtx s := rfl
      unfold runWord at h
      rw [hc] at h
      cases hd : decode (decodeCtx s) word with
      | ok i => rw [hd] at h; exact .inr (.inl ⟨word, slice, rest, i, ha, hd, h⟩)
      | error why => simp [hd] at h
    · next slice rest ha => exact .inr (.inr (.inl ⟨slice, rest, ha, h⟩))
    · next slice rest ha => exact .inr (.inr (.inr ⟨slice, rest, ha, h⟩))
  · simp at h

end Sys2Proof.Machine
end

