-- ==== Sys2Proof/Laws/PerInstr.lean ====
section
/-! SUPPORT. A statement about every operation as syntax, one lemma for each constructor: its port word names one of the model's
ports (log 7) and is followed by at least one byte of the row's own encoding. -/

namespace Sys2Proof.Laws.EncodePort

/-- The port word of `i`, in every context, starts with a port's number and goes on with the row's encoding. -/
def Statement (i : Instr) : Prop :=
  ∀ c : DecodeCtx, ∃ port b rest, encode c i = port :: b :: rest ∧ port.toNat < 14

theorem nop : Statement .nop := fun _ => ⟨_, _, _, rfl, by decide⟩
theorem feed : Statement .feed := fun _ => ⟨_, _, _, rfl, by decide⟩
theorem pollReceive : Statement .pollReceive := fun _ => ⟨_, _, _, rfl, by decide⟩
theorem enqueue (r : Record) : Statement (.enqueue r) := fun _ => ⟨_, _, _, rfl, by decide⟩
theorem drain : Statement .drain := fun _ => ⟨_, _, _, rfl, by decide⟩
theorem diagAppend (t : List Byte) : Statement (.diagAppend t) := fun _ => ⟨_, _, _, rfl, by decide⟩
theorem diagEnqueue : Statement .diagEnqueue := fun _ => ⟨_, _, _, rfl, by decide⟩
theorem emitNow (t : List Byte) : Statement (.emitNow t) := fun _ => ⟨_, _, _, rfl, by decide⟩
theorem rxbToken : Statement .rxbToken := fun _ => ⟨_, _, _, rfl, by decide⟩
theorem rxbSkip (b : Byte) : Statement (.rxbSkip b) := fun _ => ⟨_, _, _, rfl, by decide⟩
theorem rxbLenH (h : Byte) : Statement (.rxbLenH h) := fun _ => ⟨_, _, _, rfl, by decide⟩
theorem rxbLenL (l : Byte) : Statement (.rxbLenL l) := fun _ => ⟨_, _, _, rfl, by decide⟩
theorem rxbBody (p : Byte) : Statement (.rxbBody p) := fun _ => ⟨_, _, _, rfl, by decide⟩
theorem hrqPush (b : Byte) : Statement (.hrqPush b) := fun _ => ⟨_, _, _, rfl, by decide⟩
theorem hrqWsync : Statement .hrqWsync := fun _ => ⟨_, _, _, rfl, by decide⟩
theorem hrqRsync : Statement .hrqRsync := fun _ => ⟨_, _, _, rfl, by decide⟩
theorem hrqAvail : Statement .hrqAvail := fun _ => ⟨_, _, _, rfl, by decide⟩
theorem hrqPop : Statement .hrqPop := fun _ => ⟨_, _, _, rfl, by decide⟩
theorem tick : Statement .tick := fun _ => ⟨_, _, _, rfl, by decide⟩
theorem feedTick : Statement .feedTick := fun _ => ⟨_, _, _, rfl, by decide⟩
theorem sinkSpace : Statement .sinkSpace := fun _ => ⟨_, _, _, rfl, by decide⟩
theorem sinkWrite (bytes : List Byte) : Statement (.sinkWrite bytes) := fun _ => ⟨_, _, _, rfl, by decide⟩
theorem sinkPop : Statement .sinkPop := fun _ => ⟨_, _, _, rfl, by decide⟩
theorem reset : Statement .reset := fun _ => ⟨_, _, _, rfl, by decide⟩
theorem frame (payload : List Byte) : Statement (.frame payload) := fun _ => ⟨_, _, _, rfl, by decide⟩

end Sys2Proof.Laws.EncodePort
end

