-- ==== Sys2Proof/Tests/Slice0.lean ====
section
/-! SUPPORT. Tests: the well-formedness check refuses what it should, every operation's word decodes to it, one-step vectors of
95_test_vectors.md, and a concrete witness for the hypotheses of every statement. -/

namespace Sys2Proof.Tests

open Sys2Proof Sys2Proof.Machine

/-! ### Helpers -/

/-- The outcome is a next state in which `p` holds. -/
def nextHas (o : Out State) (p : State → Bool) : Bool :=
  match o with
  | .next t => p t
  | .fault _ => false
  | .refused _ => false

theorem exists_of_nextHas {o : Out State} {p : State → Bool} (h : nextHas o p = true) : ∃ t, o = .next t ∧ p t = true := by
  cases o with
  | next t => exact ⟨t, rfl, h⟩
  | fault f => simp [nextHas] at h
  | refused r => simp [nextHas] at h

/-- The outcome is the refusal `r`. -/
def isRefusal (o : Out State) (r : Refusal) : Bool :=
  match o with
  | .next _ => false
  | .fault _ => false
  | .refused r' => r' == r

theorem eq_of_isRefusal {o : Out State} {r : Refusal} (h : isRefusal o r = true) : o = .refused r := by
  cases o <;> simp_all [isRefusal]

/-- `CFG_T` in a feed mode, with the diagnostic parameters and codec of 95_test_vectors.md section 0. -/
def bT (m : FeedMode) : Build := { Config.resetBuild with feedMode := m }

/-- The reset state of `CFG_T` in `INTERRUPT` mode. -/
def s0 : State := State.resetOf (bT .interrupt)

/-- `s` with an HRQ. -/
def withHrq (h : Hrq) (s : State) : State := { s with hrq := h }

/-- `s` with the bytes `bs` buffered, `tail` of them consumed. -/
def withRx (bs : List Byte) (tail : Nat) (s : State) : State :=
  { s with rx := { s.rx with buf := memSetRun [] 0 bs, tail := tail, head := bs.length } }

/-- `s` with the bytes `bs` in the transmit buffer, `tail` of them sent. -/
def withTx (bs : List Byte) (tail : Nat) (s : State) : State :=
  { s with tx := { s.tx with buf := memSetRun [] 0 bs, tail := tail, head := bs.length } }

/-- `s` with the bytes `q` in the sink. -/
def withSink (q : List Byte) (s : State) : State := { s with bnd := { s.bnd with sinkQ := q } }

/-- `s` in the loop of a `POLL_RECEIVE`. -/
def inScan (s : State) : State := pollLock (acceptCommand .pollScan s)

/-- An HRQ of depth 4 with the bytes `bs` accepted since reset, the first `vis` of them visible to the reader. -/
def hrqWith (bs : List Byte) (vis : Nat) : Hrq :=
  { mem := memSetRun [] 0 bs, wbin := bs.length, wgray := gray bs.length, wq1Rgray := 0, wq2Rgray := 0, lost := false,
    rbin := 0, rgray := 0, rq1Wgray := gray vis, rq2Wgray := gray vis }

/-- The counts behind `hrqWith`. -/
def countsOf (bs : List Byte) (vis : Nat) : HrqCounts :=
  { r2 := 0, r1 := 0, r := 0, w2 := vis, w1 := vis, w := bs.length }

/-- The invariant as a computation, given the counts behind the HRQ. -/
def hrqCheck (aw : Nat) (h : Hrq) (c : HrqCounts) : Bool :=
  decide ((c.r2 ≤ c.r1 ∧ c.r1 ≤ c.r ∧ c.r ≤ c.w2 ∧ c.w2 ≤ c.w1 ∧ c.w1 ≤ c.w ∧ c.w ≤ c.r2 + 2 ^ aw) ∧
    (h.wbin = c.w % 2 ^ (aw + 1) ∧ h.wgray = gray (c.w % 2 ^ (aw + 1)) ∧
      h.wq1Rgray = gray (c.r1 % 2 ^ (aw + 1)) ∧ h.wq2Rgray = gray (c.r2 % 2 ^ (aw + 1)) ∧
      h.rbin = c.r % 2 ^ (aw + 1) ∧ h.rgray = gray (c.r % 2 ^ (aw + 1)) ∧
      h.rq1Wgray = gray (c.w1 % 2 ^ (aw + 1)) ∧ h.rq2Wgray = gray (c.w2 % 2 ^ (aw + 1))) ∧
    (∀ j < c.w - c.r, (memGet h.mem ((c.r + j) % 2 ^ aw)).isSome) ∧
    Memory.wf h.mem = true ∧ ∀ x ∈ h.mem, x.1 < 2 ^ aw)

theorem hrqInv_of_check {aw : Nat} {h : Hrq} {c : HrqCounts} (hc : hrqCheck aw h c = true) : HrqInv aw h := by
  obtain ⟨⟨a1, a2, a3, a4, a5, a6⟩, ⟨b1, b2, b3, b4, b5, b6, b7, b8⟩, hw, hm, hin⟩ := of_decide_eq_true hc
  exact ⟨c, a1, a2, a3, a4, a5, a6, b1, b2, b3, b4, b5, b6, b7, b8, hw, hm, hin⟩

/-- The rest of the invariant as a computation. -/
def restCheck (s : State) : Bool :=
  decide (s.build.wf = true ∧
    (Memory.wf s.rx.buf = true ∧ (∀ x ∈ s.rx.buf, x.1 < s.build.rxCap) ∧ s.rx.tail ≤ s.rx.head ∧
      s.rx.head ≤ s.build.rxCap ∧ s.rx.messageStart ≤ s.build.rxCap ∧
      (∀ a < s.rx.head, (memGet s.rx.buf a).isSome) ∧
      (s.rx.state = .body → s.rx.messageStart ≤ s.rx.tail) ∧
      (s.rx.state = .body → s.rx.tail ≤ s.rx.messageStart + s.rx.messageLength.toNat) ∧
      (s.rx.state = .body → s.rx.messageLength.toNat ≤ s.build.rxCap) ∧
      s.rx.active = (s.rx.state != .awaitStart)) ∧
    (Memory.wf s.tx.buf = true ∧ (∀ x ∈ s.tx.buf, x.1 < s.build.txCap) ∧ s.tx.tail ≤ s.tx.head ∧
      s.tx.head ≤ s.build.txCap ∧ (∀ a < s.tx.head, (memGet s.tx.buf a).isSome) ∧
      (s.tx.tail = s.tx.head → s.tx.head = 0) ∧ Memory.wf s.tx.encScratch = true ∧
      ∀ x ∈ s.tx.encScratch, x.1 < s.build.encScratchCap) ∧
    (s.ctl.mainBusy = (s.ctl.main != .idle) ∧ s.ctl.rxLock = pollHoldsLock s.ctl.main ∧
      (feedIsMains s = true → s.ctl.feedActive = true) ∧ (s.ctl.main = .pollFeed → s.build.feedMode = .poll) ∧
      (s.ctl.main = .pollTest ∨ s.ctl.main = .pollScan → s.ctl.feedActive = false) ∧
      s.ctl.feedIe = !(s.build.feedMode == .interrupt && s.ctl.rxLock) ∧
      (s.build.feedMode = .poll → s.ctl.feedPending = false) ∧
      (s.build.feedMode = .poll → s.ctl.feedActive = true → feedIsMains s = true)) ∧
    s.bnd.sinkQ.length ≤ s.build.sinkCap ∧ s.bnd.diagBuf.length ≤ s.build.diagCap)

/-- No phase 2 of `EMIT_NOW`, or an empty transmit buffer. -/
def emitCheck (s : State) : Bool :=
  match s.ctl.main with
  | .emitSend _ => s.tx.tail == s.tx.head
  | _ => true

theorem inv_of_check {s : State} (c : HrqCounts)
    (h : (hrqCheck s.build.hrqAw s.hrq c && restCheck s && emitCheck s) = true) : Inv s := by
  simp only [Bool.and_eq_true] at h
  obtain ⟨⟨hq, hr⟩, he⟩ := h
  obtain ⟨hb, ⟨r1, r2, r3, r4, r5, r6, r7, r8, r9, r10⟩, ⟨t1, t2, t3, t4, t5, t6, t7, t8⟩,
    ⟨c1, c2, c3, c4, c5, c6, c7, c8⟩, d1, d2⟩ := of_decide_eq_true hr
  refine ⟨hb, hrqInv_of_check hq, ⟨r1, r2, r3, r4, r5, r6, r7, r8, r9, r10⟩, ⟨t1, t2, t3, t4, t5, t6, t7, t8⟩,
    ⟨c1, c2, c3, c4, c5, c6, c7, c8, fun rest hm => ?_⟩, ⟨d1, d2⟩⟩
  simpa [emitCheck, hm] using he

/-! ### Well-formedness: each check refuses an ill-formed term -/

def ctx (st : RxState) : DecodeCtx := ⟨0xA5#8, st⟩

theorem test_wf_skip_token : (Instr.rxbSkip 0xA5#8).wf (ctx .awaitStart) = false := by decide
theorem test_wf_skip_state : (Instr.rxbSkip 0x41#8).wf (ctx .body) = false := by decide
theorem test_wf_lenH_token : (Instr.rxbLenH 0xA5#8).wf (ctx .lengthHigh) = false := by decide
theorem test_wf_lenH_state : (Instr.rxbLenH 0x00#8).wf (ctx .lengthLow) = false := by decide
theorem test_wf_lenL_token : (Instr.rxbLenL 0xA5#8).wf (ctx .lengthLow) = false := by decide
theorem test_wf_lenL_state : (Instr.rxbLenL 0x02#8).wf (ctx .lengthHigh) = false := by decide
theorem test_wf_body_token : (Instr.rxbBody 0xA5#8).wf (ctx .body) = false := by decide
theorem test_wf_body_state : (Instr.rxbBody 0x68#8).wf (ctx .awaitStart) = false := by decide
theorem test_wf_frame_too_long (p : List Byte) (h : p.length = 65536) : (Instr.frame p).wf (ctx .awaitStart) = false := by
  simp [Instr.wf, h]

/-- Each check of `Build.wf` (R7, R8), with one parameter out of range. -/
theorem test_build_rxCap : ({ bT .poll with rxCap := 4 } : Build).wf = false := by decide
theorem test_build_txCap : ({ bT .poll with txCap := 0 } : Build).wf = false := by decide
theorem test_build_hrqAw : ({ bT .poll with hrqAw := 0, hrqWatermark := 1 } : Build).wf = false := by decide
theorem test_build_watermark_low : ({ bT .poll with hrqWatermark := 0 } : Build).wf = false := by decide
theorem test_build_watermark_high : ({ bT .poll with hrqWatermark := 5 } : Build).wf = false := by decide
theorem test_build_sinkCap : ({ bT .poll with sinkCap := 0 } : Build).wf = false := by decide
theorem test_build_scratch : ({ bT .poll with encScratchCap := 65536 } : Build).wf = false := by decide
theorem test_build_marker : ({ bT .poll with diagCap := 0 } : Build).wf = false := by decide

/-! ### Decoding: the spec's encodings, written out bit by bit behind the model's port number -/

theorem test_decode_nop : decode (ctx .awaitStart) [0#8, 0b00000000#8] = .ok .nop := by decide
theorem test_decode_feed : decode (ctx .awaitStart) [0#8, 0b00000001#8] = .ok .feed := by decide
theorem test_decode_pollReceive : decode (ctx .body) [0#8, 0b00000010#8] = .ok .pollReceive := by decide
theorem test_decode_enqueue : decode (ctx .awaitStart) [0#8, 0b00000011#8, 0x68#8] = .ok (.enqueue ⟨[0x68#8]⟩) := by decide
theorem test_decode_drain : decode (ctx .awaitStart) [0#8, 0b00000100#8] = .ok .drain := by decide
theorem test_decode_diagAppend : decode (ctx .awaitStart) [0#8, 0b00000101#8, 0x61#8] = .ok (.diagAppend [0x61#8]) := by decide
theorem test_decode_diagEnqueue : decode (ctx .awaitStart) [0#8, 0b00000110#8] = .ok .diagEnqueue := by decide
theorem test_decode_emitNow : decode (ctx .awaitStart) [0#8, 0b00000111#8, 0x21#8] = .ok (.emitNow [0x21#8]) := by decide
theorem test_decode_cmd_too_wide : decode (ctx .awaitStart) [0#8, 0b00001000#8] = .error (.commandTooWide 8#8) := by decide
theorem test_decode_rxbToken : decode (ctx .body) [1#8, 0b10100101#8] = .ok .rxbToken := by decide
theorem test_decode_rxbSkip : decode (ctx .awaitStart) [1#8, 0b01000010#8] = .ok (.rxbSkip 0x42#8) := by decide
theorem test_decode_rxbLenH : decode (ctx .lengthHigh) [1#8, 0b00000001#8] = .ok (.rxbLenH 0x01#8) := by decide
theorem test_decode_rxbLenL : decode (ctx .lengthLow) [1#8, 0b00000010#8] = .ok (.rxbLenL 0x02#8) := by decide
theorem test_decode_rxbBody : decode (ctx .body) [1#8, 0b01101000#8] = .ok (.rxbBody 0x68#8) := by decide
theorem test_decode_hrqPush : decode (ctx .body) [2#8, 0b01000001#8, 0b1#8] = .ok (.hrqPush 0x41#8) := by decide
theorem test_decode_hrqPush_without_valid : decode (ctx .body) [2#8, 0b01000001#8, 0b0#8] = .ok .hrqWsync := by decide
theorem test_decode_hrqWsync : decode (ctx .body) [3#8, 0b1#8] = .ok .hrqWsync := by decide
theorem test_decode_hrqRsync : decode (ctx .body) [4#8, 0b1#8] = .ok .hrqRsync := by decide
theorem test_decode_hrqAvail : decode (ctx .body) [5#8, 0b1#8] = .ok .hrqAvail := by decide
theorem test_decode_hrqPop : decode (ctx .body) [6#8, 0b1#8] = .ok .hrqPop := by decide
theorem test_decode_tick : decode (ctx .body) [7#8, 0b1#8] = .ok .tick := by decide
theorem test_decode_feedTick : decode (ctx .body) [8#8, 0b1100#8] = .ok .feedTick := by decide
theorem test_decode_feedTick_locked : decode (ctx .body) [8#8, 0b1110#8] = .error (.notTriggered 0xE#8) := by decide
theorem test_decode_sinkSpace : decode (ctx .body) [9#8, 0b1#8] = .ok .sinkSpace := by decide
theorem test_decode_sinkWrite : decode (ctx .body) [10#8, 0b1#8, 0x21#8] = .ok (.sinkWrite [0x21#8]) := by decide
theorem test_decode_sinkPop : decode (ctx .body) [11#8, 0b1#8] = .ok .sinkPop := by decide
theorem test_decode_reset : decode (ctx .body) [12#8, 0b0#8] = .ok .reset := by decide
theorem test_decode_reset_released : decode (ctx .body) [12#8, 0b1#8] = .error (.notTriggered 1#8) := by decide
theorem test_decode_frame :
    decode (ctx .body) [13#8, 0b10100101#8, 0b0#8, 0b10#8, 0x68#8, 0x69#8] = .ok (.frame [0x68#8, 0x69#8]) := by decide
theorem test_decode_frame_short :
    decode (ctx .body) [13#8, 0b10100101#8, 0b0#8, 0b10#8, 0x68#8] = .error .notAFrame := by decide
theorem test_decode_no_port : decode (ctx .body) [14#8, 0#8] = .error (.unknownPort 14#8) := by decide
theorem test_tableWord_push : decodeTableWord 9 0b101000001 = some (.hrqPush 0x41#8) := by decide
theorem test_tableWord_frame : decodeTableWord 24 0xA50001 = some (.frame [0#8]) := by decide

/-! ### One step of each operation, from 95_test_vectors.md -/

/-- Codes of the last response. -/
def lastIs (r : Response) (s : State) : Bool := s.bnd.results.getLast? == some r

/-- R85. -/
theorem test_nop : nextHas (exec .nop (withTx [0xA5#8] 0 s0)) (fun t => t == withTx [0xA5#8] 0 s0) = true := by decide

/-- V-F1. -/
theorem test_feed_moves : nextHas (exec .feed (withHrq (hrqWith [0xA5#8, 0x00#8] 2) s0)) (fun t =>
    t.rx.buf == [(0, 0xA5#8), (1, 0x00#8)] && t.rx.head == 2 && t.rx.tail == 0 && t.hrq.rbin == 2 && t.hrq.rgray == 3 &&
    t.bnd.diagLog == []) = true := by decide

/-- V-F7: both events, in order; 22 and 23 at the start of the buffer. -/
theorem test_feed_overflows : nextHas (exec .feed (withRx (List.replicate 15 1#8) 0
      (withHrq (hrqWith [0x21#8, 0x22#8, 0x23#8] 3) s0))) (fun t =>
    t.rx.head == 2 && memGet t.rx.buf 0 == some 0x22#8 && memGet t.rx.buf 15 == some 0x21#8 &&
    t.bnd.diagLog == [.insufficientReceiveRate, .incomingDataRateTooFast]) = true := by decide

/-- PR-2: a tick-started `FEED`. -/
theorem test_feedTick : nextHas (exec .feedTick { withHrq (hrqWith [0xA5#8, 0x00#8] 2) s0 with
      ctl := { s0.ctl with feedPending := true } }) (fun t =>
    t.rx.head == 2 && !t.ctl.feedPending && !t.ctl.feedActive) = true := by decide

/-- V-S1. -/
theorem test_pollReceive_delivers : nextHas (exec .pollReceive
      (withRx [0xA5#8, 0#8, 2#8, 0x68#8, 0x69#8] 0 s0)) (fun t =>
    lastIs (.pollReceive .packetReceived) t && t.rx.record == some ⟨[0x68#8, 0x69#8]⟩ && t.rx.head == 0 &&
    t.rx.messageLength == 2#16 && t.rx.messageStart == 3 && !t.rx.active) = true := by decide

/-- V-S10: a decode failure. -/
theorem test_pollReceive_decode_fails : nextHas (exec .pollReceive
      (withRx [0xA5#8, 0#8, 2#8, 0xFF#8, 0x01#8] 0 s0)) (fun t =>
    lastIs (.pollReceive .deserializationFailed) t && t.rx.record == none &&
    t.bnd.diagLog == [.deserializationFailed Config.badTag [0xFF#8, 0x01#8]]) = true := by decide

/-- R144, V-S4b: a token in `LengthLow`. -/
theorem test_rxbToken : nextHas (exec .rxbToken (inScan
      { withRx [0xA5#8] 0 s0 with rx := { (withRx [0xA5#8] 0 s0).rx with state := .lengthLow, active := true } })) (fun t =>
    t.rx.tail == 1 && t.rx.state == .lengthHigh && t.bnd.diagLog == [.previousPacketIncomplete]) = true := by decide

/-- R145, V-S9. -/
theorem test_rxbSkip : nextHas (exec (.rxbSkip 0x0A#8) (inScan (withRx [0x0A#8, 0xA5#8] 0 s0))) (fun t =>
    t.rx.tail == 1 && t.rx.state == .awaitStart) = true := by decide

/-- R146, V-S11: the low byte stays. -/
theorem test_rxbLenH : nextHas (exec (.rxbLenH 0x12#8) (inScan { withRx [0x12#8] 0 s0 with
      rx := { (withRx [0x12#8] 0 s0).rx with state := .lengthHigh, active := true, messageLength := 0xFF34#16 } })) (fun t =>
    t.rx.messageLength == 0x1234#16 && t.rx.state == .lengthLow) = true := by decide

/-- R147, V-S3b: a length equal to the capacity passes. -/
theorem test_rxbLenL_fits : nextHas (exec (.rxbLenL 0x10#8) (inScan { withRx [0#8, 0x10#8, 1#8] 1 s0 with
      rx := { (withRx [0#8, 0x10#8, 1#8] 1 s0).rx with state := .lengthLow, active := true } })) (fun t =>
    t.rx.messageLength == 16#16 && t.rx.messageStart == 2 && t.rx.state == .body) = true := by decide

/-- R147, V-S3: one more does not. -/
theorem test_rxbLenL_oversized : nextHas (exec (.rxbLenL 0x11#8) (inScan { withRx [0#8, 0x11#8, 1#8] 1 s0 with
      rx := { (withRx [0#8, 0x11#8, 1#8] 1 s0).rx with state := .lengthLow, active := true } })) (fun t =>
    lastIs (.pollReceive .messageExceedsBufferSize) t && t.rx.head == 0 && !t.rx.active && t.ctl.feedIe) = true := by decide

/-- The state of V-S2 or V-S4d in `Body`: three header bytes, then `p`. -/
def inBody (len : Len16) (p : List Byte) : State :=
  inScan { withRx ([0xA5#8, 0#8, 2#8] ++ p) 3 s0 with
    rx := { (withRx ([0xA5#8, 0#8, 2#8] ++ p) 3 s0).rx with
      state := .body, active := true, messageLength := len, messageStart := 3 } }

/-- R148, V-S2: a payload that is not complete. -/
theorem test_rxbBody_partial : nextHas (exec (.rxbBody 0x68#8) (inBody 2#16 [0x68#8])) (fun t =>
    lastIs (.pollReceive .inProgress) t && t.rx.tail == 4 && t.rx.head == 4 && t.rx.state == .body) = true := by decide

/-- R149, V-S4d: the jump passes over a token, and the rest stays buffered. -/
theorem test_rxbBody_complete : nextHas (exec (.rxbBody 0x01#8)
      (inBody 5#16 [0x01#8, 0x02#8, 0xA5#8, 0#8, 0x01#8, 0x42#8])) (fun t =>
    lastIs (.pollReceive .packetReceived) t && t.rx.tail == 8 && t.rx.head == 9 &&
    t.rx.record == some ⟨[0x01#8, 0x02#8, 0xA5#8, 0#8, 0x01#8]⟩) = true := by decide

/-- The queue of line 6 of the register trace: four bytes, one visible. -/
def hrqLine6 : Hrq := hrqWith [0x41#8, 0x42#8, 0x43#8, 0x44#8] 1

/-- Line 6 of the register trace. -/
theorem test_hrqPush_stores : nextHas (exec (.hrqPush 0x44#8) (withHrq (hrqWith [0x41#8, 0x42#8, 0x43#8] 1) s0)) (fun t =>
    t.hrq == hrqLine6 && t.bnd.wireRxCount == 1) = true := by decide

/-- Line 7: the queue is full, the byte is dropped. -/
theorem test_hrqPush_drops : nextHas (exec (.hrqPush 0x45#8) (withHrq hrqLine6 s0)) (fun t =>
    t.hrq == { hrqLine6 with lost := true } && t.bnd.wireRxCount == 1) = true := by decide

/-- Line 8. -/
theorem test_hrqRsync : nextHas (exec .hrqRsync (withHrq hrqLine6 s0)) (fun t =>
    t.hrq.rq1Wgray == 0b110 && t.hrq.rq2Wgray == 0b001) = true := by decide

/-- Line 18. -/
theorem test_hrqWsync : nextHas (exec .hrqWsync (withHrq { hrqLine6 with rgray := 0b111, wq1Rgray := 0b001 } s0)) (fun t =>
    t.hrq.wq1Rgray == 0b111 && t.hrq.wq2Rgray == 0b001) = true := by decide

/-- Line 14: the count of the read side. -/
theorem test_hrqAvail : nextHas (exec .hrqAvail (withHrq { hrqLine6 with rbin := 2, rgray := 3, rq2Wgray := 0b110 } s0)) (fun t =>
    t.callResult == some (.avail 2)) = true := by decide

/-- A tick-started `FEED` in progress, with HRQ as it stands before line 15 of the register trace. -/
def poppingLine15 : State :=
  { withHrq { hrqLine6 with
      wgray := 0b111, wbin := 5, rbin := 2, rgray := 0b011, rq1Wgray := 0b111, rq2Wgray := 0b110 } s0 with
    ctl := { s0.ctl with feedActive := true } }

/-- Line 15: 47 becomes visible at the edge of the pop of 43, which the `FEED` stores (R124). -/
theorem test_hrqPop : nextHas (exec .hrqPop poppingLine15) (fun t =>
    t.callResult == some (.byte 0x43#8) && t.hrq.rbin == 3 && t.hrq.rgray == 0b010 && t.hrq.rq2Wgray == 0b111 &&
    t.rx.buf == [(0, 0x43#8)] && t.rx.head == 1) = true := by
  decide

/-- R191: no HRQ operation raises the overflow's event; at a full `rx_buf` the `FEED` resets it first (R125). -/
theorem test_hrqPop_full : nextHas (exec .hrqPop (withRx (List.replicate 16 7#8) 0 poppingLine15)) (fun t =>
    t == withRx (List.replicate 16 7#8) 0 poppingLine15) = true := by decide

/-- R108: `FEED` is the only caller. -/
theorem test_hrqPop_noFeed : nextHas (exec .hrqPop (withHrq hrqLine6 s0)) (fun t => t == withHrq hrqLine6 s0) = true := by decide

/-- R108, U2. -/
theorem test_hrqPop_empty : isRefusal (exec .hrqPop s0) .popOnEmpty = true := by decide

/-- R214. -/
theorem test_tick : nextHas (exec .tick s0) (fun t => t.ctl.feedPending) = true := by decide
theorem test_tick_poll : nextHas (exec .tick (State.resetOf (bT .poll))) (fun t => !t.ctl.feedPending) = true := by decide

/-- V-T1. -/
theorem test_enqueue : nextHas (exec (.enqueue ⟨[0x68#8, 0x69#8]⟩) s0) (fun t =>
    t.tx.buf == [(0, 0xA5#8), (1, 0#8), (2, 2#8), (3, 0x68#8), (4, 0x69#8)] && t.tx.head == 5 &&
    lastIs (.enqueue .success) t) = true := by decide

/-- V-T4: unsent data wins over a packet that could never fit. -/
theorem test_enqueue_backpressure : nextHas (exec (.enqueue ⟨List.replicate 14 1#8⟩)
      (withTx (List.replicate 16 1#8) 0 s0)) (fun t =>
    lastIs (.enqueue .insufficientTransmitRate) t && t.tx.head == 16) = true := by decide

/-- V-T1. -/
theorem test_drain : nextHas (exec .drain (withTx [0xA5#8, 0#8, 2#8, 0x68#8, 0x69#8] 0 s0)) (fun t =>
    t.bnd.sinkQ == [0xA5#8, 0#8, 2#8, 0x68#8] && t.tx.tail == 4 && t.tx.head == 5 && lastIs (.drain 1) t) = true := by decide

/-- V-T1: the last byte recycles the buffer. -/
theorem test_drain_recycles : nextHas (exec .drain (withSink [0#8, 2#8, 0x68#8]
      (withTx [0xA5#8, 0#8, 2#8, 0x68#8, 0x69#8] 4 s0))) (fun t =>
    t.bnd.sinkQ == [0#8, 2#8, 0x68#8, 0x69#8] && t.tx.tail == 0 && t.tx.head == 0 && lastIs (.drain 0) t) = true := by decide

/-- R182 to R184. -/
theorem test_sinkSpace : nextHas (exec .sinkSpace (withSink [1#8, 2#8, 3#8] s0)) (fun t =>
    t.callResult == some (.space 1)) = true := by decide
/-- R183's own example. -/
theorem test_sinkAccept : (sinkAccept [0#8, 2#8, 0x68#8, 0x69#8] (withSink [0xA5#8] s0)).1.bnd.sinkQ =
      [0xA5#8, 0#8, 2#8, 0x68#8] ∧
    (sinkAccept [0#8, 2#8, 0x68#8, 0x69#8] (withSink [0xA5#8] s0)).2 = 3 := by decide
/-- V-E1, the second write of the `EMIT_NOW`. -/
theorem test_sinkWrite : nextHas (exec (.sinkWrite [0x21#8]) (withSink [0#8, 2#8, 1#8]
      (acceptCommand (.emitSend [0x21#8]) s0))) (fun t =>
    t.callResult == some (.written 1) && t.bnd.sinkQ == [0#8, 2#8, 1#8, 0x21#8] && t.ctl.main == .emitSend []) = true := by
  decide
theorem test_sinkPop : nextHas (exec .sinkPop (withSink [0xA5#8, 2#8] s0)) (fun t =>
    t.bnd.wireTx == [0xA5#8] && t.bnd.sinkQ == [2#8]) = true := by decide

/-- `s0` with a diagnostic text. -/
def withText (x : List Byte) : State := { s0 with bnd := { s0.bnd with diagBuf := x } }

/-- V-D1. -/
theorem test_diagAppend_truncates : nextHas (exec (.diagAppend [0x64#8, 0x65#8, 0x66#8, 0x67#8, 0x68#8, 0x69#8, 0x6A#8])
      (withText [0x61#8, 0x62#8, 0x63#8])) (fun t =>
    t.bnd.diagBuf == [0x61#8, 0x62#8, 0x63#8, 0x64#8, 0x65#8, 0x66#8, 0x67#8, 0x7E#8] &&
    lastIs (.diagAppend false) t) = true := by decide

/-- V-D2: exactly full, no marker. -/
theorem test_diagAppend_full : nextHas (exec (.diagAppend (List.replicate 8 0x31#8)) s0) (fun t =>
    t.bnd.diagBuf == List.replicate 8 0x31#8 && lastIs (.diagAppend true) t) = true := by decide

/-- V-D4. -/
theorem test_diagEnqueue : nextHas (exec .diagEnqueue (withText [0x68#8, 0x69#8])) (fun t =>
    t.tx.buf == [(0, 0xA5#8), (1, 0#8), (2, 3#8), (3, 1#8), (4, 0x68#8), (5, 0x69#8)] && t.bnd.diagBuf == [] &&
    lastIs (.diagEnqueue .success) t) = true := by decide

/-- V-D5: the text is lost with the failure. -/
theorem test_diagEnqueue_fails : nextHas (exec .diagEnqueue (withTx (List.replicate 14 0#8) 4
      (withText [0x68#8, 0x69#8]))) (fun t =>
    t.tx.head == 14 && t.bnd.diagBuf == [] && lastIs (.diagEnqueue .insufficientTransmitRate) t) = true := by decide

/-- V-E1, first write: the sink takes 4 of the packet's 5 bytes, and the command goes on. -/
theorem test_emitNow : nextHas (exec (.emitNow [0x21#8]) s0) (fun t =>
    t.bnd.sinkQ == [0xA5#8, 0#8, 2#8, 1#8] && t.ctl.main == .emitSend [0x21#8] && t.tx.head == 0) = true := by decide

/-- V-E1, the second write: after one pop the last byte follows. -/
theorem test_emitNow_completes : nextHas (runMain (withSink [0#8, 2#8, 1#8] (acceptCommand (.emitSend [0x21#8]) s0)))
    (fun t => t.bnd.sinkQ == [0#8, 2#8, 1#8, 0x21#8] && t.ctl.main == .idle && !t.ctl.mainBusy) = true := by decide

/-- R240, R47. -/
theorem test_reset : nextHas (exec .reset (withTx [1#8] 0 (withHrq hrqLine6 s0))) (fun t => t == s0) = true := by decide

/-- R70, R105: `FRAME(41)` arrives, `A5 00 01 41`, and fills the queue of four. -/
theorem test_frame : nextHas (exec (.frame [0x41#8]) s0) (fun t =>
    t.hrq == hrqWith [0xA5#8, 0#8, 1#8, 0x41#8] 0 && t.bnd.wireRxCount == 4) = true := by decide

/-- R39: a `FEED` command cut after its first pop, with a byte pushed in between, goes on where it stood (V-F6). -/
theorem test_sliced_feed : nextHas (andThen (exec .feed { withHrq (hrqWith [1#8, 2#8] 2) s0 with slice := some 2 }) fun t =>
      andThen (exec (.hrqPush 3#8) t) fun u => runMain { u with slice := none }) (fun v =>
    v.rx.head == 2 && v.hrq.wbin == 3 && hrqAvail 2 v.hrq == 0 && !v.ctl.mainBusy) = true := by decide

/-- A placed table word runs as the first operation. -/
theorem test_withFetchWord : nextHas (step (State.reset.withFetchWord 8 0x42)) (fun t => t.rx.tail == 1) = true := by decide

/-! ### Witnesses: for each statement with hypotheses, a state and operands that meet them all (for each clause) -/

/-- The reset state of `CFG_T` in `POLL` mode. -/
def p0 : State := State.resetOf (bT .poll)

/-- A state of a build with another sink. -/
def sink10 : State := State.resetOf { bT .interrupt with sinkCap := 10 }

/-- A state with no byte in HRQ meets the invariant as soon as the rest does. -/
theorem inv_of_rest {s : State} (hq : s.hrq = hrqWith [] 0) (haw : s.build.hrqAw = 2)
    (h : (restCheck s && emitCheck s) = true) : Inv s := by
  refine inv_of_check (countsOf [] 0) ?_
  rw [hq, haw, Bool.and_assoc, h, Bool.and_true]
  decide

theorem quiet_s0 : Quiet s0 := ⟨rfl, rfl, rfl⟩
theorem quiet_p0 : Quiet p0 := ⟨rfl, rfl, rfl⟩
theorem inv_s0 : Inv s0 := inv_of_rest rfl rfl (by decide)
theorem inv_p0 : Inv p0 := inv_of_rest rfl rfl (by decide)

theorem witness_DecodeEncodeRoundTrip : (Instr.rxbBody 0x68#8).wf (ctx .body) = true ∧
    (Instr.frame [0x68#8]).wf (ctx .awaitStart) = true := by decide

theorem witness_DecodedIsWellFormed : decode (ctx .lengthLow) [1#8, 2#8] = .ok (.rxbLenL 2#8) := by decide

theorem witness_ByteClassesAreDecoded :
    (0xA5#8 = (ctx .body).token) ∧ (0xA4#8 ≠ (ctx .awaitStart).token ∧ (ctx .awaitStart).rxState = .awaitStart) ∧
    (0x00#8 ≠ (ctx .lengthHigh).token ∧ (ctx .lengthHigh).rxState = .lengthHigh) ∧
    (0xFF#8 ≠ (ctx .lengthLow).token ∧ (ctx .lengthLow).rxState = .lengthLow) ∧
    (0xA6#8 ≠ (ctx .body).token ∧ (ctx .body).rxState = .body) := by decide

theorem witness_GrayCodeLaws : (1 ≤ 1 ∧ 1 < 2 ^ 1) ∧ (1 ≤ 3 ∧ 7 < 2 ^ 3 ∧ 2 ≤ 3) ∧ (1 ≤ 3 ∧ 4 < 2 ^ 3 ∧ 1 + 1 < 3) := by decide

theorem witness_HrqPushStoresOrDrops_stores :
    hrqFull 2 (withHrq (hrqWith [0x41#8, 0x42#8, 0x43#8] 1) s0).hrq = false := by decide

theorem witness_HrqPushStoresOrDrops_drops : hrqFull 2 (withHrq hrqLine6 s0).hrq = true := by decide

theorem inv_line6 : Inv (withHrq hrqLine6 s0) :=
  inv_of_check (countsOf [0x41#8, 0x42#8, 0x43#8, 0x44#8] 1) (by decide)

theorem witness_HrqPushStoresOrDrops_full : Inv (withHrq hrqLine6 s0) ∧ hrqOcc 2 hrqLine6 = s0.build.hrqDepth :=
  ⟨inv_line6, by decide⟩

theorem witness_HrqAvailCounts_upToDate : Inv (withHrq (hrqWith [1#8, 2#8, 3#8, 4#8] 4) s0) ∧
    (hrqWith [1#8, 2#8, 3#8, 4#8] 4).rq2Wgray = (hrqWith [1#8, 2#8, 3#8, 4#8] 4).wgray :=
  ⟨inv_of_check (countsOf [1#8, 2#8, 3#8, 4#8] 4) (by decide), by decide⟩

theorem witness_HrqAvailCounts : Inv (withHrq hrqLine6 s0) ∧ hrqAvail 2 hrqLine6 = 1 ∧ hrqOcc 2 hrqLine6 = 4 :=
  ⟨inv_line6, by decide⟩

theorem witness_HrqPopAnswersTheOldest_noFeed : hrqEmpty (withHrq hrqLine6 s0).hrq = false ∧
    (withHrq hrqLine6 s0).ctl.feedActive = false := by decide

theorem witness_HrqPopAnswersTheOldest_empty : hrqEmpty s0.hrq = true := by decide

theorem witness_HrqRefinesAbstractQueue : 1 ≤ 2 ∧ HrqInv 2 hrqLine6 ∧ hrqEmpty hrqLine6 = false :=
  ⟨by decide, inv_line6.hrq, by decide⟩

theorem witness_FrameArrivesByteByByte : Inv s0 ∧ [0x41#8].length + 3 ≤ (absHrq s0.build.hrqAw s0.hrq).wfree :=
  ⟨inv_s0, by decide⟩

theorem inv_visible4 : Inv (withHrq (hrqWith [1#8, 2#8, 3#8, 4#8] 4) s0) :=
  inv_of_check (countsOf [1#8, 2#8, 3#8, 4#8] 4) (by decide)

theorem witness_FeedMovesEveryVisibleByte : Inv (withHrq (hrqWith [1#8, 2#8, 3#8, 4#8] 4) s0) ∧
    Quiet (withHrq (hrqWith [1#8, 2#8, 3#8, 4#8] 4) s0) := ⟨inv_visible4, rfl, rfl, rfl⟩

/-- 14 bytes buffered, and two more in HRQ: exactly full. -/
def almostFull : State := withRx (List.replicate 14 7#8) 0 (withHrq (hrqWith [1#8, 2#8] 2) s0)

theorem witness_FeedStoresInOrder : ∃ t, Inv almostFull ∧ Quiet almostFull ∧ exec .feed almostFull = .next t ∧
    hrqContents almostFull.build.hrqAw almostFull.hrq =
      [1#8, 2#8] ++ hrqContents almostFull.build.hrqAw t.hrq ∧
    almostFull.rx.head + [1#8, 2#8].length ≤ almostFull.build.rxCap := by
  obtain ⟨t, ht, hp⟩ := exists_of_nextHas (o := exec .feed almostFull)
    (p := fun t => decide (hrqContents almostFull.build.hrqAw almostFull.hrq =
      [1#8, 2#8] ++ hrqContents almostFull.build.hrqAw t.hrq)) (by decide)
  exact ⟨t, inv_of_check (countsOf [1#8, 2#8] 2) (by decide), ⟨rfl, rfl, rfl⟩, ht, of_decide_eq_true hp, by decide⟩

/-- 14 bytes buffered, and three more in HRQ: one too many. -/
def overFull : State := withRx (List.replicate 14 7#8) 0 (withHrq (hrqWith [1#8, 2#8, 3#8] 3) s0)

theorem witness_FeedOverflowStartsAgain : ∃ t, Inv overFull ∧ Quiet overFull ∧ exec .feed overFull = .next t ∧
    hrqContents overFull.build.hrqAw overFull.hrq =
      [1#8, 2#8, 3#8] ++ hrqContents overFull.build.hrqAw t.hrq ∧
    overFull.build.rxCap < overFull.rx.head + [1#8, 2#8, 3#8].length := by
  obtain ⟨t, ht, hp⟩ := exists_of_nextHas (o := exec .feed overFull)
    (p := fun t => decide (hrqContents overFull.build.hrqAw overFull.hrq =
      [1#8, 2#8, 3#8] ++ hrqContents overFull.build.hrqAw t.hrq)) (by decide)
  exact ⟨t, inv_of_check (countsOf [1#8, 2#8, 3#8] 3) (by decide), ⟨rfl, rfl, rfl⟩, ht, of_decide_eq_true hp, by decide⟩

/-- A tick is latched while an `EMIT_NOW` is in progress. -/
def tickedEmit : State :=
  let s := acceptCommand (.emitSend [9#8]) (withSink [1#8, 2#8, 3#8, 4#8] (withHrq (hrqWith [1#8, 2#8] 2) s0))
  { s with ctl := { s.ctl with feedPending := true } }

theorem inv_tickedEmit : Inv tickedEmit := inv_of_check (countsOf [1#8, 2#8] 2) (by decide)

theorem witness_FeedTickRunsAFeed : Inv tickedEmit ∧ tickedEmit.slice = none ∧ feedTickEnabled tickedEmit = true :=
  ⟨inv_tickedEmit, rfl, by decide⟩

/-- A tick-started `FEED` in progress. -/
def feeding : State := { s0 with ctl := { s0.ctl with feedActive := true } }

theorem inv_feeding : Inv feeding := inv_of_rest rfl rfl (by decide)

theorem witness_CommandsWaitForTheFeeder : Inv feeding ∧ feeding.ctl.mainBusy = false ∧ feeding.ctl.feedActive = true :=
  ⟨inv_feeding, rfl, rfl⟩

theorem witness_TickIsLatched : s0.build.feedMode = .interrupt ∧ p0.build.feedMode = .poll := ⟨rfl, rfl⟩

/-- A `POLL_RECEIVE` in its loop, with one byte to inspect. -/
def scanning : State := inScan (withRx [0x41#8] 0 s0)

theorem inv_scanning : Inv scanning := inv_of_rest rfl rfl (by decide)

theorem witness_TickDuringPollIsHeld : Inv scanning ∧ scanning.build.feedMode = .interrupt ∧
    scanning.ctl.rxLock = true ∧ scanning.ctl.feedActive = false := ⟨inv_scanning, rfl, rfl, rfl⟩

theorem witness_PollReceiveReturnsOneCode : Inv s0 ∧ Quiet s0 ∧ s0.build.feedMode = .interrupt := ⟨inv_s0, quiet_s0, rfl⟩

/-- V-S2 after its fourth poll: a partial payload, all consumed. -/
def partialBody : State :=
  { withRx [0xA5#8, 0#8, 2#8, 0x68#8] 4 s0 with
    rx := { (withRx [0xA5#8, 0#8, 2#8, 0x68#8] 4 s0).rx with
      state := .body, active := true, messageLength := 2#16, messageStart := 3 } }

theorem witness_PollOfNothingAnswersNoData : Inv partialBody ∧ Quiet partialBody ∧
    partialBody.build.feedMode = .interrupt ∧ partialBody.rx.tail = partialBody.rx.head :=
  ⟨inv_of_rest rfl rfl (by decide), ⟨rfl, rfl, rfl⟩, rfl, by decide⟩

/-- Two ignored bytes, and no token (R159). -/
theorem witness_PollOfNothingAnswersNoData_skips : Inv (withRx [1#8, 2#8] 0 s0) ∧ Quiet (withRx [1#8, 2#8] 0 s0) ∧
    s0.rx.state = .awaitStart ∧ 0 < 2 ∧ ∀ a, 0 ≤ a → a < 2 →
      memGet (withRx [1#8, 2#8] 0 s0).rx.buf a ≠ some s0.build.startToken :=
  ⟨inv_of_rest rfl rfl (by decide), ⟨rfl, rfl, rfl⟩, rfl, by decide, fun a _ h => by
    obtain rfl | rfl : a = 0 ∨ a = 1 := by omega
    all_goals decide⟩

/-- V-S8: a frame with a second one behind it. -/
def twoFrames : State := withRx [0xA5#8, 0#8, 1#8, 0x41#8, 0xA5#8, 0#8, 1#8, 0x42#8] 0 s0

theorem witness_WholeFrameIsDelivered : Inv twoFrames ∧ Quiet twoFrames ∧ twoFrames.build.feedMode = .interrupt ∧
    twoFrames.rx.state = .awaitStart ∧ [0x41#8] ≠ [] ∧ [0x41#8].length ≤ twoFrames.build.rxCap ∧
    [0x41#8].length ≤ 65535 ∧ [0x41#8].head? ≠ some twoFrames.build.startToken ∧
    lengthHi [0x41#8].length ≠ twoFrames.build.startToken ∧ lengthLo [0x41#8].length ≠ twoFrames.build.startToken ∧
    twoFrames.rx.tail + ([0x41#8].length + 3) ≤ twoFrames.rx.head ∧
    memReadRun .rxBuf twoFrames.build.rxCap twoFrames.rx.buf twoFrames.rx.tail ([0x41#8].length + 3) =
      .next (frameBytes twoFrames.build.startToken [0x41#8]) :=
  ⟨inv_of_rest rfl rfl (by decide), ⟨rfl, rfl, rfl⟩, rfl, rfl, by decide, by decide, by decide, by decide, by decide,
    by decide, by decide, rfl⟩

/-- V-S3: a length one above the capacity. -/
def oversized : State := withRx [0xA5#8, 0#8, 0x11#8, 1#8, 2#8] 0 s0

theorem witness_OversizedLengthIsRejected : Inv oversized ∧ Quiet oversized ∧ oversized.build.feedMode = .interrupt ∧
    oversized.rx.state = .awaitStart ∧ 0x00#8 ≠ oversized.build.startToken ∧ 0x11#8 ≠ oversized.build.startToken ∧
    oversized.build.rxCap < (0x00#8).toNat * 256 + (0x11#8).toNat ∧ oversized.rx.tail + 3 ≤ oversized.rx.head ∧
    memReadRun .rxBuf oversized.build.rxCap oversized.rx.buf oversized.rx.tail 3 =
      .next [oversized.build.startToken, 0x00#8, 0x11#8] :=
  ⟨inv_of_rest rfl rfl (by decide), ⟨rfl, rfl, rfl⟩, rfl, rfl, by decide, by decide, by decide, by decide, rfl⟩

/-- V-S2. -/
theorem witness_ReceptionResumes : Inv s0 ∧ Quiet s0 ∧ s0.build.feedMode = .interrupt ∧ s0.rx.state = .awaitStart ∧
    s0.rx.tail = 0 ∧ s0.rx.head = 0 ∧ [0x68#8, 0x69#8] ≠ [] ∧ [0x68#8, 0x69#8].length + 3 ≤ s0.build.rxCap ∧
    [0x68#8, 0x69#8].length ≤ 65535 ∧ s0.build.startToken ∉ [0x68#8, 0x69#8] ∧
    lengthHi [0x68#8, 0x69#8].length ≠ s0.build.startToken ∧ lengthLo [0x68#8, 0x69#8].length ≠ s0.build.startToken ∧
    [[0xA5#8], [0#8], [2#8, 0x68#8], [0x69#8]].flatten = frameBytes s0.build.startToken [0x68#8, 0x69#8] ∧
    ∀ piece ∈ [[0xA5#8], [0#8], [2#8, 0x68#8], [0x69#8]], piece ≠ [] :=
  ⟨inv_s0, quiet_s0, rfl, rfl, rfl, rfl, by decide, by decide, by decide, by decide, by decide, by decide, by decide,
    by decide⟩

theorem witness_PollModeFeedsFirst : Inv p0 ∧ Quiet p0 ∧ p0.build.feedMode = .poll := ⟨inv_p0, quiet_p0, rfl⟩

/-- A `FEED` command at its first line. -/
def feedAtStart : State := { acceptCommand .feedWait (withHrq (hrqWith [1#8, 2#8, 3#8] 3) s0) with slice := some 1 }

/-- A `POLL_RECEIVE` command at its first line, in `POLL` mode. -/
def pollAtStart : State := { acceptCommand .pollWait (withHrq (hrqWith [1#8, 2#8, 3#8] 3) p0) with slice := some 1 }

/-- A tick is latched, and the turn grants no line after the start. -/
def tickAtStart : State :=
  { withHrq (hrqWith [1#8, 2#8, 3#8] 3) s0 with ctl := { s0.ctl with feedPending := true }, slice := some 0 }

theorem witness_FeedRunsLineByLine_starts :
    (Inv tickAtStart ∧ tickAtStart.slice = some 0 ∧ feedTickEnabled tickAtStart = true) ∧
    (Inv feedAtStart ∧ feedAtStart.slice = some 1 ∧ feedAtStart.ctl.main = .feedWait ∧
      feedAtStart.ctl.feedActive = false) ∧
    (Inv pollAtStart ∧ pollAtStart.slice = some 1 ∧ pollAtStart.ctl.main = .pollWait ∧
      pollAtStart.ctl.feedActive = false ∧ pollAtStart.build.feedMode = .poll) :=
  ⟨⟨inv_of_check (countsOf [1#8, 2#8, 3#8] 3) (by decide), rfl, by decide⟩,
    ⟨inv_of_check (countsOf [1#8, 2#8, 3#8] 3) (by decide), rfl, rfl, rfl⟩,
    inv_of_check (countsOf [1#8, 2#8, 3#8] 3) (by decide), rfl, rfl, rfl, rfl⟩

/-- A `FEED` in progress that stands at the command's line `m` (`idle`: started by a tick), with HRQ `h` and `n` bytes buffered. -/
def feedAt (m : MainPhase) (lock : Bool) (n : Nat) (h : Hrq) (s : State) : State :=
  { withRx (List.replicate n 7#8) 0 (withHrq h s) with
    ctl := { s.ctl with feedActive := true, mainBusy := m != .idle, main := m, rxLock := lock }, slice := some 1 }

theorem witness_FeedRunsLineByLine_ends :
    (Inv (feedAt .idle false 3 (hrqWith [] 0) s0) ∧ feedIsMains (feedAt .idle false 3 (hrqWith [] 0) s0) = false) ∧
    Inv (feedAt .feedRun false 3 (hrqWith [] 0) s0) ∧ Inv (feedAt .pollFeed true 3 (hrqWith [] 0) p0) ∧
    hrqAvail 2 (hrqWith [] 0) = 0 :=
  ⟨⟨inv_of_rest rfl rfl (by decide), by decide⟩, inv_of_rest rfl rfl (by decide), inv_of_rest rfl rfl (by decide), by decide⟩

/-- One byte of two visible; the byte lands in the last free cell, or finds the buffer full. -/
theorem witness_FeedRunsLineByLine_moves :
    (Inv (feedAt .idle false 15 (hrqWith [1#8, 2#8] 1) s0) ∧
      (feedAt .idle false 15 (hrqWith [1#8, 2#8] 1) s0).rx.head ≠ s0.build.rxCap) ∧
    (Inv (feedAt .pollFeed true 16 (hrqWith [1#8, 2#8] 1) p0) ∧
      feedIsMains (feedAt .pollFeed true 16 (hrqWith [1#8, 2#8] 1) p0) = true ∧
      (feedAt .pollFeed true 16 (hrqWith [1#8, 2#8] 1) p0).rx.head = p0.build.rxCap) ∧
    hrqAvail 2 (hrqWith [1#8, 2#8] 1) ≠ 0 :=
  ⟨⟨inv_of_check (countsOf [1#8, 2#8] 1) (by decide), by decide⟩,
    ⟨inv_of_check (countsOf [1#8, 2#8] 1) (by decide), by decide, by decide⟩, by decide⟩

/-- The byte lands in the last free cell, or finds the buffer full. -/
theorem witness_HrqPopAnswersTheOldest :
    (Inv (feedAt .idle false 15 (hrqWith [1#8, 2#8] 1) s0) ∧
      (feedAt .idle false 15 (hrqWith [1#8, 2#8] 1) s0).ctl.feedActive = true ∧
      (feedAt .idle false 15 (hrqWith [1#8, 2#8] 1) s0).rx.head ≠ s0.build.rxCap) ∧
    (Inv (feedAt .pollFeed true 16 (hrqWith [1#8, 2#8] 1) p0) ∧
      (feedAt .pollFeed true 16 (hrqWith [1#8, 2#8] 1) p0).rx.head = p0.build.rxCap) ∧
    hrqEmpty (hrqWith [1#8, 2#8] 1) = false :=
  ⟨⟨inv_of_check (countsOf [1#8, 2#8] 1) (by decide), rfl, by decide⟩,
    ⟨inv_of_check (countsOf [1#8, 2#8] 1) (by decide), by decide⟩, by decide⟩

/-- A frame of which the full queue takes no byte, a bare pop into the last free cell, a resumed inner `FEED` that overflows, and a
resumed tick-started `FEED`. -/
theorem witness_ReceivePathKeepsOrder : ∃ t u v w,
    (Inv (withHrq hrqLine6 s0) ∧ exec (.frame [0x41#8]) (withHrq hrqLine6 s0) = .next t) ∧
    (Inv (feedAt .idle false 15 (hrqWith [1#8, 2#8] 1) s0) ∧
      exec .hrqPop (feedAt .idle false 15 (hrqWith [1#8, 2#8] 1) s0) = .next u ∧
      rxStream u = List.replicate 15 7#8 ++ [1#8, 2#8]) ∧
    (Inv (feedAt .pollFeed true 16 (hrqWith [1#8, 2#8] 1) p0) ∧
      runMain (feedAt .pollFeed true 16 (hrqWith [1#8, 2#8] 1) p0) = .next v) ∧
    (Inv feeding ∧ runFeed feeding = .next w) := by
  obtain ⟨t, ht, -⟩ := exists_of_nextHas (o := exec (.frame [0x41#8]) (withHrq hrqLine6 s0)) (p := fun _ => true) (by decide)
  obtain ⟨u, hu, hp⟩ := exists_of_nextHas (o := exec .hrqPop (feedAt .idle false 15 (hrqWith [1#8, 2#8] 1) s0))
    (p := fun t => decide (rxStream t = List.replicate 15 7#8 ++ [1#8, 2#8])) (by decide)
  obtain ⟨v, hv, -⟩ := exists_of_nextHas (o := runMain (feedAt .pollFeed true 16 (hrqWith [1#8, 2#8] 1) p0))
    (p := fun _ => true) (by decide)
  obtain ⟨w, hw, -⟩ := exists_of_nextHas (o := runFeed feeding) (p := fun _ => true) (by decide)
  exact ⟨t, u, v, w, ⟨inv_line6, ht⟩, ⟨inv_of_check (countsOf [1#8, 2#8] 1) (by decide), hu, of_decide_eq_true hp⟩,
    ⟨inv_of_check (countsOf [1#8, 2#8] 1) (by decide), hv⟩, inv_feeding, hw⟩

theorem witness_LoopRunsTheByteClass : Inv { scanning with slice := some 1 } ∧
    ({ scanning with slice := some 1 } : State).slice = some 1 ∧ scanning.ctl.main = .pollScan ∧
    scanning.rx.tail < scanning.rx.head := ⟨inv_of_rest rfl rfl (by decide), rfl, rfl, by decide⟩

/-- The end of the loop after bytes only skipped. -/
theorem witness_LoopRunsTheByteClass_ends : Inv { inScan (withRx [1#8, 2#8] 2 s0) with slice := some 1 } ∧
    (inScan (withRx [1#8, 2#8] 2 s0)).ctl.main = .pollScan ∧
    (inScan (withRx [1#8, 2#8] 2 s0)).rx.tail = (inScan (withRx [1#8, 2#8] 2 s0)).rx.head ∧
    (inScan (withRx [1#8, 2#8] 2 s0)).rx.state = .awaitStart := ⟨inv_of_rest rfl rfl (by decide), rfl, rfl, rfl⟩

/-- A `POLL_RECEIVE` at its line `m`, granted one line. -/
def pollAt (m : MainPhase) (s : State) : State := { pollLock (acceptCommand m s) with slice := some 1 }

theorem witness_LoopRunsTheByteClass_tests :
    (Inv (pollAt .pollTest (withRx [1#8] 1 s0)) ∧ (pollAt .pollTest (withRx [1#8] 1 s0)).rx.tail = 1) ∧
    (Inv (pollAt .pollTest (withRx [1#8] 0 s0)) ∧ (pollAt .pollTest (withRx [1#8] 0 s0)).rx.tail = 0) :=
  ⟨⟨inv_of_rest rfl rfl (by decide), rfl⟩, inv_of_rest rfl rfl (by decide), rfl⟩

/-- The entry waits for a `FEED` in progress, or takes the lock. -/
theorem witness_LoopRunsTheByteClass_entry :
    (Inv { acceptCommand .pollWait feeding with slice := some 1 } ∧ feeding.ctl.feedActive = true) ∧
    (Inv { acceptCommand .pollWait s0 with slice := some 1 } ∧ s0.ctl.feedActive = false ∧
      s0.build.feedMode = .interrupt) :=
  ⟨⟨inv_of_rest rfl rfl (by decide), rfl⟩, inv_of_rest rfl rfl (by decide), rfl, rfl⟩

theorem witness_TokenOpensAFrame : rxbEnabled .rxbToken (inScan (withRx [0xA5#8] 0 s0)) = true := by decide

theorem witness_SkippedAndHighLengthBytes_skip : rxbEnabled (.rxbSkip 0x41#8) scanning = true := by decide

/-- One byte to inspect, in the framing state `st`. -/
def inspecting (st : RxState) (b : Byte) : State :=
  inScan { withRx [0#8, b] 1 s0 with rx := { (withRx [0#8, b] 1 s0).rx with state := st, active := true } }

theorem witness_SkippedAndHighLengthBytes_high : rxbEnabled (.rxbLenH 0#8) (inspecting .lengthHigh 0#8) = true := by decide

theorem witness_LowLengthByteCompletesTheLength_oversized :
    rxbEnabled (.rxbLenL 0x11#8) (inspecting .lengthLow 0x11#8) = true ∧
    (inspecting .lengthLow 0x11#8).build.rxCap < (17#16).toNat ∧
    (17#16).extractLsb' 0 8 = 0x11#8 ∧
    (17#16).extractLsb' 8 8 = (inspecting .lengthLow 0x11#8).rx.messageLength.extractLsb' 8 8 := by decide

theorem witness_LowLengthByteCompletesTheLength_fits :
    rxbEnabled (.rxbLenL 0x10#8) (inspecting .lengthLow 0x10#8) = true ∧
    (16#16).toNat ≤ (inspecting .lengthLow 0x10#8).build.rxCap ∧
    (16#16).extractLsb' 0 8 = 0x10#8 ∧
    (16#16).extractLsb' 8 8 = (inspecting .lengthLow 0x10#8).rx.messageLength.extractLsb' 8 8 := by decide

theorem witness_BodyAccumulatesAndDelivers_partial : rxbEnabled (.rxbBody 0x68#8) (inBody 2#16 [0x68#8]) = true ∧
    (inBody 2#16 [0x68#8]).rx.head <
      (inBody 2#16 [0x68#8]).rx.messageStart + (inBody 2#16 [0x68#8]).rx.messageLength.toNat := by decide

theorem inv_inBody : Inv (inBody 2#16 [0x68#8, 0x69#8]) := inv_of_rest rfl rfl (by decide)

theorem witness_BodyAccumulatesAndDelivers_complete :
    rxbEnabled (.rxbBody 0x68#8) (inBody 2#16 [0x68#8, 0x69#8]) = true ∧ Inv (inBody 2#16 [0x68#8, 0x69#8]) ∧
    (inBody 2#16 [0x68#8, 0x69#8]).rx.messageStart + (inBody 2#16 [0x68#8, 0x69#8]).rx.messageLength.toNat ≤
      (inBody 2#16 [0x68#8, 0x69#8]).rx.head := ⟨by decide, inv_inBody, by decide⟩

theorem witness_FramingTransitions : ∃ t, rxIterate 0x11#8 (inspecting .lengthLow 0x11#8) = .next t ∧
    0x11#8 ≠ (inspecting .lengthLow 0x11#8).build.startToken ∧ (inspecting .lengthLow 0x11#8).rx.state = .lengthLow ∧
    (inspecting .lengthLow 0x11#8).build.rxCap <
      (setLengthLow (inspecting .lengthLow 0x11#8).rx.messageLength 0x11#8).toNat := ⟨_, rfl, by decide, rfl, by decide⟩

theorem witness_FramingTransitions_token : ∃ t,
    rxIterate 0xA5#8 scanning = .next t ∧ 0xA5#8 = scanning.build.startToken := ⟨_, rfl, rfl⟩

theorem witness_RecordChangesOnlyByDecode : ∃ t, Moves twoFrames t ∧ t.rx.record ≠ twoFrames.rx.record := by
  obtain ⟨t, ht, hp⟩ := exists_of_nextHas (o := exec .pollReceive twoFrames)
    (p := fun t => decide (t.rx.record ≠ twoFrames.rx.record)) (by decide)
  exact ⟨t, .inl ⟨.pollReceive, by decide, ht⟩, of_decide_eq_true hp⟩

/-- A `POLL_RECEIVE` that was cut before its loop goes on and delivers. -/
theorem witness_RecordChangesOnlyByDecode_resumed : ∃ t, Moves (inScan twoFrames) t ∧
    t.rx.record ≠ (inScan twoFrames).rx.record := by
  obtain ⟨t, ht, hp⟩ := exists_of_nextHas (o := runMain (inScan twoFrames))
    (p := fun t => decide (t.rx.record ≠ (inScan twoFrames).rx.record)) (by decide)
  exact ⟨t, .inr (.inl ht), of_decide_eq_true hp⟩

theorem witness_RecordChangesOnlyByDecode_feed : ∃ t, runFeed feeding = .next t := by
  obtain ⟨t, ht, -⟩ := exists_of_nextHas (o := runFeed feeding) (p := fun _ => true) (by decide)
  exact ⟨t, ht⟩

/-- A packet of 16 bytes fits an empty buffer exactly (V-T3b). -/
theorem witness_EnqueueWritesAWholeFrame : s0.ctl.mainBusy = false ∧
    encodeRecord s0.build ⟨List.replicate 13 1#8⟩ = .ok (List.replicate 13 1#8) ∧
    (List.replicate 13 1#8).length + 3 ≤ s0.build.txCap - s0.tx.head := by decide

/-- V-T2, V-T4, V-T3. -/
theorem witness_EnqueueFailuresLeaveTheBuffer_doc :
    s0.ctl.mainBusy = false ∧ encodeRecord s0.build ⟨List.replicate 17 1#8⟩ = .didNotFit := by decide

theorem witness_EnqueueFailuresLeaveTheBuffer_rate : (withTx (List.replicate 13 1#8) 12 s0).ctl.mainBusy = false ∧
    encodeRecord s0.build ⟨[0x21#8]⟩ = .ok [0x21#8] ∧
    (withTx (List.replicate 13 1#8) 12 s0).build.txCap - (withTx (List.replicate 13 1#8) 12 s0).tx.head <
      [0x21#8].length + 3 ∧
    (withTx (List.replicate 13 1#8) 12 s0).tx.tail < (withTx (List.replicate 13 1#8) 12 s0).tx.head := by decide

theorem witness_EnqueueFailuresLeaveTheBuffer_size : Inv s0 ∧ s0.ctl.mainBusy = false ∧
    encodeRecord s0.build ⟨List.replicate 14 1#8⟩ = .ok (List.replicate 14 1#8) ∧
    s0.build.txCap - s0.tx.head < (List.replicate 14 1#8).length + 3 ∧ ¬ s0.tx.tail < s0.tx.head :=
  ⟨inv_s0, rfl, rfl, by decide, by decide⟩

/-- A codec with an error that no source describes. -/
def badCodec : State := State.resetOf { bT .interrupt with
  codec := .table [(⟨[1#8]⟩, .other 5), (⟨[2#8]⟩, .other 6)] [] [([], ⟨[2#8]⟩), ([0x21#8], ⟨[1#8]⟩)] }

theorem witness_EncodeErrorsAreRefused : badCodec.ctl.mainBusy = false ∧
    encodeRecord badCodec.build ⟨[1#8]⟩ = .other 5 ∧
    encodeRecord badCodec.build (diagRecord badCodec.build badCodec.bnd.diagBuf) = .other 6 ∧
    ∀ p, encodeRecord badCodec.build (emitRecord [0x21#8] badCodec) ≠ .ok p := by
  refine ⟨rfl, rfl, rfl, fun p => ?_⟩
  rw [show encodeRecord badCodec.build (emitRecord [0x21#8] badCodec) = .other 5 from rfl]
  simp

/-- V-T1: the sink has room for all but the last byte; and the case in which it takes everything. -/
theorem witness_DrainHandsOverInOrder :
    (Inv (withTx [0xA5#8, 0#8, 1#8, 0x68#8, 0x69#8] 0 s0) ∧
      4 = min (s0.build.sinkCap - s0.bnd.sinkQ.length) ([0xA5#8, 0#8, 1#8, 0x68#8, 0x69#8].length - 0)) ∧
    (Inv (withTx [0xA5#8, 0#8, 0#8] 0 s0) ∧
      3 = min (s0.build.sinkCap - s0.bnd.sinkQ.length) ([0xA5#8, 0#8, 0#8].length - 0)) :=
  ⟨⟨inv_of_rest rfl rfl (by decide), by decide⟩, inv_of_rest rfl rfl (by decide), by decide⟩

/-- Phase 1 of an `EMIT_NOW` with five bytes buffered and room for four. -/
def drainPhase : State :=
  acceptCommand (.emitDrain [0xA5#8, 0#8, 0#8]) (withTx [0xA5#8, 0#8, 2#8, 0x68#8, 0x69#8] 0 s0)

theorem witness_SinkTakesWhatFits_drain : Inv drainPhase ∧ drainPhase.ctl.main = .emitDrain [0xA5#8, 0#8, 0#8] ∧
    drainPhase.tx.tail < drainPhase.tx.head ∧
    [0xA5#8, 0#8, 2#8, 0x68#8] = (txPending drainPhase).take (drainPhase.build.sinkCap - drainPhase.bnd.sinkQ.length) :=
  ⟨inv_of_rest rfl rfl (by decide), rfl, by decide, by decide⟩

/-- V-E1: the sink has room for the packet's last byte exactly. -/
theorem witness_SinkTakesWhatFits_send :
    (withSink [0#8, 2#8, 1#8] (acceptCommand (.emitSend [0x21#8]) s0)).ctl.main = .emitSend [0x21#8] ∧
    [0x21#8] ≠ [] ∧ [0x21#8] = [0x21#8].take (s0.build.sinkCap - [0#8, 2#8, 1#8].length) := by decide

theorem witness_SinkPopSendsTheFront : (withSink [1#8] s0).bnd.sinkQ = 1#8 :: [] := rfl

theorem witness_TransmitPathKeepsOrder : ∃ t u v w, Inv s0 ∧ Instr.enqueue ⟨[0x68#8]⟩ ≠ .reset ∧
    exec (.enqueue ⟨[0x68#8]⟩) s0 = .next t ∧ runMain tickedEmit = .next u ∧ Inv tickedEmit ∧
    runFeed feeding = .next v ∧ Inv feeding ∧
    Inv drainPhase ∧ exec (.sinkWrite [0xA5#8, 0#8, 2#8, 0x68#8]) drainPhase = .next w ∧ w.tx.tail = 4 := by
  obtain ⟨t, ht, -⟩ := exists_of_nextHas (o := exec (.enqueue ⟨[0x68#8]⟩) s0) (p := fun _ => true) (by decide)
  obtain ⟨u, hu, -⟩ := exists_of_nextHas (o := runMain tickedEmit) (p := fun _ => true) (by decide)
  obtain ⟨v, hv, -⟩ := exists_of_nextHas (o := runFeed feeding) (p := fun _ => true) (by decide)
  obtain ⟨w, hw, hp⟩ := exists_of_nextHas (o := exec (.sinkWrite [0xA5#8, 0#8, 2#8, 0x68#8]) drainPhase)
    (p := fun t => decide (t.tx.tail = 4)) (by decide)
  exact ⟨t, u, v, w, inv_s0, by decide, ht, hu, inv_tickedEmit, hv, inv_feeding, inv_of_rest rfl rfl (by decide), hw,
    of_decide_eq_true hp⟩

/-- One frame buffered, and an `ENQUEUE` offered. -/
def offered : State :=
  placeTurn [0#8, 3#8, 0x69#8] (withTx [0xA5#8, 0#8, 1#8, 0x68#8] 0 s0)

theorem inv_offered : Inv offered := inv_of_rest rfl rfl (by decide)

theorem witness_StepKeepsWholeFrames : ∃ t, Inv offered ∧ WholeFrames offered ∧ step offered = .next t := by
  obtain ⟨t, ht, -⟩ := exists_of_nextHas (o := step offered) (p := fun t => t.tx.head == 8) (by decide)
  exact ⟨t, inv_offered, ⟨[[0x68#8]], by decide, rfl⟩, ht⟩

theorem witness_DiagAppendStoresText : (withText (List.replicate 7 1#8)).ctl.mainBusy = false ∧
    (withText (List.replicate 7 1#8)).bnd.diagBuf.length + [1#8].length ≤ (withText []).build.diagCap ∧
    (withText []).build.diagCap < (withText (List.replicate 7 1#8)).bnd.diagBuf.length + [1#8, 2#8].length := by decide

/-- A text already truncated (V-D1), and one that the append truncates. -/
theorem witness_TruncationKeepsTheMarker :
    Inv (withText (List.replicate 7 0x61#8 ++ [0x7E#8])) ∧
    (withText (List.replicate 7 0x61#8 ++ [0x7E#8])).ctl.mainBusy = false ∧
    (withText []).build.diagCap < (withText (List.replicate 7 0x61#8 ++ [0x7E#8])).bnd.diagBuf.length + [0x78#8].length ∧
    (withText (List.replicate 7 0x61#8 ++ [0x7E#8])).bnd.diagBuf.length = (withText []).build.diagCap ∧
    (withText []).build.truncMarker <:+ (withText (List.replicate 7 0x61#8 ++ [0x7E#8])).bnd.diagBuf ∧ [0x78#8] ≠ [] :=
  ⟨inv_of_rest rfl rfl (by decide), rfl, by decide, by decide, by decide, by decide⟩

theorem witness_DiagEnqueueIsEnqueue : s0.ctl.mainBusy = false ∧
    ∀ c, encodeRecord s0.build (diagRecord s0.build s0.bnd.diagBuf) ≠ .other c := by
  refine ⟨rfl, fun c => ?_⟩
  rw [show encodeRecord s0.build (diagRecord s0.build s0.bnd.diagBuf) = .ok [1#8] from rfl]
  simp

/-- Five bytes of packet behind five buffered bytes fill a sink of ten exactly. -/
theorem witness_EmitNowDrainsThenSends_completes :
    Inv (withTx [0xA5#8, 0#8, 2#8, 0x68#8, 0x69#8] 0 sink10) ∧
    (withTx [0xA5#8, 0#8, 2#8, 0x68#8, 0x69#8] 0 sink10).ctl.mainBusy = false ∧
    (withTx [0xA5#8, 0#8, 2#8, 0x68#8, 0x69#8] 0 sink10).slice = none ∧
    encodeRecord sink10.build (emitRecord [0x21#8] sink10) = .ok [1#8, 0x21#8] ∧
    (5 - 0) + ([1#8, 0x21#8].length + 3) ≤ sink10.build.sinkCap - sink10.bnd.sinkQ.length :=
  ⟨inv_of_rest rfl rfl (by decide), rfl, rfl, rfl, by decide⟩

theorem witness_EmitNowDrainsThenSends_spins : Inv s0 ∧ s0.ctl.mainBusy = false ∧ s0.slice = none ∧
    encodeRecord s0.build (emitRecord [0x21#8] s0) = .ok [1#8, 0x21#8] ∧
    s0.build.sinkCap - s0.bnd.sinkQ.length < (s0.tx.head - s0.tx.tail) + ([1#8, 0x21#8].length + 3) :=
  ⟨inv_s0, rfl, rfl, rfl, by decide⟩

theorem witness_EmitNowDrainsThenSends_sending : tickedEmit.ctl.mainBusy = true ∧
    tickedEmit.bnd.sinkQ.length = tickedEmit.build.sinkCap ∧
    ∃ rest, tickedEmit.ctl.main = .emitSend rest ∧ rest ≠ [] := ⟨rfl, rfl, [9#8], rfl, by decide⟩

/-- Phase 1 with the sink full. -/
def drainSpin : State :=
  acceptCommand (.emitDrain [0xA5#8, 0#8, 0#8]) (withSink [1#8, 2#8, 3#8, 4#8] (withTx [0xA5#8, 0#8, 0#8] 0 s0))

theorem witness_EmitNowDrainsThenSends_draining : drainSpin.ctl.mainBusy = true ∧
    drainSpin.bnd.sinkQ.length = drainSpin.build.sinkCap ∧
    ∃ packet, drainSpin.ctl.main = .emitDrain packet ∧ drainSpin.tx.tail < drainSpin.tx.head :=
  ⟨rfl, rfl, _, rfl, by decide⟩

theorem witness_ResetMeetsTheInvariant : (bT .interrupt).wf = true ∧ (bT .poll).wf = true := by decide

theorem witness_StepKeepsTheInvariant : ∃ t, Inv offered ∧ step offered = .next t := by
  obtain ⟨t, ht, -⟩ := exists_of_nextHas (o := step offered) (p := fun t => t.tx.head == 8) (by decide)
  exact ⟨t, inv_offered, ht⟩

/-- A `POLL`-mode `POLL_RECEIVE` in its inner `FEED`, which goes on for one line. -/
def innerFeed : State :=
  let s := acceptCommand .pollFeed (pollLock (withHrq (hrqWith [1#8, 2#8] 2) p0))
  { s with ctl := { s.ctl with feedActive := true }, agenda := [.resumeMain (some 1)] }

theorem witness_FeederAndFramingExclude : ∃ t, Inv innerFeed ∧ step innerFeed = .next t ∧
    t.ctl.rxLock = true ∧ t.ctl.feedActive = true := by
  obtain ⟨t, ht, hp⟩ := exists_of_nextHas (o := step innerFeed)
    (p := fun t => decide (t.ctl.rxLock = true ∧ t.ctl.feedActive = true)) (by decide)
  obtain ⟨h1, h2⟩ := of_decide_eq_true hp
  exact ⟨t, inv_of_check (countsOf [1#8, 2#8] 2) (by decide), ht, h1, h2⟩

/-- A bare pop of an empty queue, and a step that it stops. -/
theorem witness_StepNeverFaults : Inv (placeTurn [6#8, 1#8] s0) ∧ Inv s0 ∧ exec .hrqPop s0 = .refused .popOnEmpty ∧
    step (placeTurn [6#8, 1#8] s0) = .refused .popOnEmpty :=
  ⟨inv_of_rest rfl rfl (by decide), inv_s0, eq_of_isRefusal (by decide), eq_of_isRefusal (by decide)⟩

theorem witness_StepRunsTheDecodedOperation : offered.build.wf = true ∧
    offered.agenda = .offer [0#8, 3#8, 0x69#8] none :: [] ∧
    decode (decodeCtx offered) [0#8, 3#8, 0x69#8] = .ok (.enqueue ⟨[0x69#8]⟩) := by decide

theorem witness_StepTakesTheNextTurn :
    (innerFeed.build.wf = true ∧ innerFeed.agenda = .resumeMain (some 1) :: []) ∧
    (({ feeding with agenda := [.resumeFeed none] } : State).agenda = .resumeFeed none :: []) ∧
    ((placeTurn [] s0).agenda = .offer [] none :: [] ∧ decode (decodeCtx (placeTurn [] s0)) [] = .error .noPort) ∧
    (s0.build.wf = true ∧ s0.agenda = []) ∧
    (State.resetOf { bT .poll with rxCap := 4 }).build.wf = false := by decide

theorem witness_OperationOutOfTurnIsNoStep : scanning.ctl.mainBusy = true ∧
    (Instr.rxbBody 0x41#8 = .rxbBody 0x41#8 ∧ rxbEnabled (.rxbBody 0x41#8) scanning = false) ∧
    feedTickEnabled scanning = false ∧ nextWrite scanning ≠ some [1#8] ∧ nextWrite drainPhase ≠ some [0xA5#8] ∧
    (hrqEmpty (withHrq hrqLine6 s0).hrq = false ∧ (withHrq hrqLine6 s0).ctl.feedActive = false) ∧
    scanning.bnd.sinkQ = [] := by decide

theorem witness_StepNeverChangesTheBuild : ∃ t, step offered = .next t := by
  obtain ⟨t, ht, -⟩ := exists_of_nextHas (o := step offered) (p := fun _ => true) (by decide)
  exact ⟨t, ht⟩

theorem witness_TracesOnlyGrow : ∃ t u, Moves { overFull with hrq := { overFull.hrq with lost := true } } t ∧
    ({ overFull with hrq := { overFull.hrq with lost := true } } : State).hrq.lost = true ∧ Moves tickedEmit u := by
  obtain ⟨t, ht, -⟩ := exists_of_nextHas (o := exec .feed { overFull with hrq := { overFull.hrq with lost := true } })
    (p := fun _ => true) (by decide)
  obtain ⟨u, hu, -⟩ := exists_of_nextHas (o := runMain tickedEmit) (p := fun _ => true) (by decide)
  exact ⟨t, u, .inl ⟨.feed, by decide, ht⟩, rfl, .inr (.inl hu)⟩

theorem witness_EventsComeFromTheirOperations : ∃ t, Instr.feed ≠ .reset ∧ exec .feed overFull = .next t ∧
    t.bnd.diagLog = [.insufficientReceiveRate, .incomingDataRateTooFast] := by
  obtain ⟨t, ht, hp⟩ := exists_of_nextHas (o := exec .feed overFull)
    (p := fun t => decide (t.bnd.diagLog = [.insufficientReceiveRate, .incomingDataRateTooFast])) (by decide)
  exact ⟨t, by decide, ht, of_decide_eq_true hp⟩

/-- A resumed inner `FEED`, and a resumed tick-started one, that overflow. -/
theorem witness_EventsComeFromTheirOperations_resumed : ∃ t u,
    runMain (feedAt .pollFeed true 16 (hrqWith [1#8, 2#8] 1) p0) = .next t ∧ t.bnd.diagLog = [.incomingDataRateTooFast] ∧
    runFeed (feedAt .idle false 16 (hrqWith [1#8, 2#8] 1) s0) = .next u ∧ u.bnd.diagLog = [.incomingDataRateTooFast] := by
  obtain ⟨t, ht, hp⟩ := exists_of_nextHas (o := runMain (feedAt .pollFeed true 16 (hrqWith [1#8, 2#8] 1) p0))
    (p := fun t => decide (t.bnd.diagLog = [.incomingDataRateTooFast])) (by decide)
  obtain ⟨u, hu, hq⟩ := exists_of_nextHas (o := runFeed (feedAt .idle false 16 (hrqWith [1#8, 2#8] 1) s0))
    (p := fun t => decide (t.bnd.diagLog = [.incomingDataRateTooFast])) (by decide)
  exact ⟨t, u, ht, of_decide_eq_true hp, hu, of_decide_eq_true hq⟩

theorem witness_SidesShareNoState : ∃ t u, exec (.enqueue ⟨[0x68#8]⟩) s0 = .next t ∧
    transmitSide (.enqueue ⟨[0x68#8]⟩) = true ∧ exec .feed overFull = .next u ∧ receiveSide .feed = true := by
  obtain ⟨t, ht, -⟩ := exists_of_nextHas (o := exec (.enqueue ⟨[0x68#8]⟩) s0) (p := fun _ => true) (by decide)
  obtain ⟨u, hu, -⟩ := exists_of_nextHas (o := exec .feed overFull) (p := fun _ => true) (by decide)
  exact ⟨t, u, ht, rfl, hu, rfl⟩

theorem witness_SidesShareNoState_resumed : ∃ t u v, runMain drainPhase = .next t ∧
    transmitPhase drainPhase.ctl.main = true ∧ runMain (inScan twoFrames) = .next u ∧
    receivePhase (inScan twoFrames).ctl.main = true ∧ runFeed feeding = .next v := by
  obtain ⟨t, ht, -⟩ := exists_of_nextHas (o := runMain drainPhase) (p := fun _ => true) (by decide)
  obtain ⟨u, hu, -⟩ := exists_of_nextHas (o := runMain (inScan twoFrames)) (p := fun _ => true) (by decide)
  obtain ⟨v, hv, -⟩ := exists_of_nextHas (o := runFeed feeding) (p := fun _ => true) (by decide)
  exact ⟨t, u, v, ht, rfl, hu, rfl, hv⟩

theorem witness_TickedFeedCommutesWithTransmit : Inv tickedEmit ∧ feedTickEnabled tickedEmit = true ∧
    Instr.emitNow [0x21#8] = .emitNow [0x21#8] := ⟨inv_tickedEmit, by decide, rfl⟩

/-- The same with no command in progress, so that the transmit operation runs. -/
theorem witness_TickedFeedCommutesWithTransmit_ready : Inv tickAtStart ∧ feedTickEnabled tickAtStart = true ∧
    tickAtStart.ctl.mainBusy = false := ⟨inv_of_check (countsOf [1#8, 2#8, 3#8] 3) (by decide), by decide, rfl⟩

end Sys2Proof.Tests
end

section
/-! PROOFS of the family 30_encoding.md: the byte classes, row by row (R82), the numeric codes (R78 to R81), and `NOP` (R85). -/

namespace Sys2Proof.Machine

/-! ### The byte classes (R82) -/

/-- Row 1, tried before the framing state is looked at. -/
@[simp] theorem classify_startToken (c : DecodeCtx) : classify c c.token = .rxbToken := if_pos rfl

section
variable {tok b : Byte} (h : b ≠ tok)
include h

theorem classify_awaitStart : classify ⟨tok, .awaitStart⟩ b = .rxbSkip b := if_neg h
theorem classify_lengthHigh : classify ⟨tok, .lengthHigh⟩ b = .rxbLenH b := if_neg h
theorem classify_lengthLow : classify ⟨tok, .lengthLow⟩ b = .rxbLenL b := if_neg h
theorem classify_body : classify ⟨tok, .body⟩ b = .rxbBody b := if_neg h

end

/-- Settles O4: one lemma for each row of R82. -/
theorem byteClassesAreDecoded : Obligations.ByteClassesAreDecoded := by
  intro tok b st
  refine ⟨?token, ?skip, ?lenH, ?lenL, ?body⟩
  case token => rintro rfl; exact classify_startToken ⟨b, st⟩
  case skip => rintro h rfl; exact classify_awaitStart h
  case lenH => rintro h rfl; exact classify_lengthHigh h
  case lenL => rintro h rfl; exact classify_lengthLow h
  case body => rintro h rfl; exact classify_body h

/-! ### The numeric codes (R78 to R81) -/

/-- R79: the codes 5 to 7 are never produced. -/
theorem receiveCodeNumber_le (c : ReceiveCode) : receiveCodeNumber c ≤ 4 := by cases c <;> decide

/-- R80: the codes 4 to 7 are never produced. -/
theorem enqueueCodeNumber_le (c : EnqueueCode) : enqueueCodeNumber c ≤ 3 := by cases c <;> decide

/-- Settles O5: the codes are the definitions' own, and the two bounds go over the constructors. -/
theorem enumerationCodes : Obligations.EnumerationCodes := by
  refine ⟨?rxState, ?receive, ?enqueue, ?diag⟩
  case rxState => exact ⟨rfl, rfl, rfl, rfl⟩
  case receive => exact ⟨rfl, rfl, rfl, rfl, rfl, receiveCodeNumber_le⟩
  case enqueue => exact ⟨rfl, rfl, rfl, rfl, enqueueCodeNumber_le⟩
  case diag => exact ⟨rfl, rfl, rfl, fun _ _ => rfl⟩

/-! ### `NOP` (R85) -/

@[simp] theorem exec_nop (s : State) : exec .nop s = .next s := rfl

/-- Settles O46: the meaning of `NOP` answers the state it is given. -/
theorem nopChangesNothing : Obligations.NopChangesNothing := exec_nop

end Sys2Proof.Machine
end

section
/-! PROOFS of the family 40_hrq_async_fifo.md: the gray code (R102), the counts behind the HRQ's registers (R25, R101, R104),
the push (R105), and the two synchronisers (R109, R111). -/

namespace Sys2Proof.Machine

/-! ### The gray code (R102)

The code is linear over XOR, so each law about two codes is a fact about the XOR of the two values. -/

theorem gray_eq (p : Nat) : gray p = p ^^^ (p >>> 1) := rfl

theorem gray_xor (p q : Nat) : gray (p ^^^ q) = gray p ^^^ gray q := by
  simp only [gray_eq, Nat.shiftRight_xor_distrib]
  ac_rfl

theorem gray_shiftRight (p k : Nat) : gray p >>> k = gray (p >>> k) := by
  simp only [gray_eq, Nat.shiftRight_xor_distrib, ← Nat.shiftRight_add, Nat.add_comm]

theorem shiftRight_one_lt {n p : Nat} (h : p < 2 ^ (n + 1)) : p >>> 1 < 2 ^ n := by
  rw [Nat.shiftRight_eq_div_pow]; omega

theorem gray_lt {n p : Nat} (h : p < 2 ^ n) : gray p < 2 ^ n :=
  Nat.xor_lt_two_pow h (lt_of_le_of_lt (Nat.shiftRight_le p 1) h)

theorem grayBin_succ (n g : Nat) : grayBin (n + 1) g = g ^^^ grayBin n (g >>> 1) := rfl

theorem grayBin_lt {n g : Nat} (h : g < 2 ^ n) : grayBin n g < 2 ^ n := by
  induction n generalizing g with
  | zero => exact Nat.one_pos
  | succ n ih =>
    have hrest : grayBin n (g >>> 1) < 2 ^ n := ih (shiftRight_one_lt h)
    exact Nat.xor_lt_two_pow h (hrest.trans (Nat.pow_lt_pow_succ one_lt_two))

/-- The inverse from the left: XOR with what the shifted code decodes to leaves the value. -/
theorem grayBin_gray {n p : Nat} (h : p < 2 ^ n) : grayBin n (gray p) = p := by
  induction n generalizing p with
  | zero => exact (Nat.lt_one_iff.1 h).symm
  | succ n ih =>
    rw [grayBin_succ, gray_shiftRight, ih (shiftRight_one_lt h), gray_eq, Nat.xor_xor_cancel_right]

/-- The inverse from the right, which is R102's recurrence `b = g XOR (b >> 1)`. -/
theorem gray_grayBin {n g : Nat} (h : g < 2 ^ n) : gray (grayBin n g) = g := by
  induction n generalizing g with
  | zero => rw [Nat.lt_one_iff.1 h]; rfl
  | succ n ih =>
    calc gray (g ^^^ grayBin n (g >>> 1))
        = gray g ^^^ gray (grayBin n (g >>> 1)) := gray_xor _ _
      _ = gray g ^^^ (g >>> 1) := by rw [ih (shiftRight_one_lt h)]
      _ = g := Nat.xor_xor_cancel_right _ _

theorem gray_inj {n p q : Nat} (hp : p < 2 ^ n) (hq : q < 2 ^ n) : gray p = gray q ↔ p = q :=
  ⟨fun h => by rw [← grayBin_gray hp, h, grayBin_gray hq], congrArg gray⟩

theorem gray_testBit (p i : Nat) : (gray p).testBit i = ((p.testBit i).xor (p.testBit (i + 1))) := by
  rw [gray_eq, Nat.testBit_xor, Nat.testBit_shiftRight, Nat.add_comm]

/-- R102's bit recurrence of the inverse; at the top bit the second operand is 0. -/
theorem grayBin_testBit {n g : Nat} (h : g < 2 ^ n) (i : Nat) :
    (grayBin n g).testBit i = ((grayBin n g).testBit (i + 1)).xor (g.testBit i) := by
  have hbit := gray_testBit (grayBin n g) i
  rw [gray_grayBin h] at hbit
  rw [hbit, Bool.xor_left_comm, Bool.xor_self, Bool.xor_false]

theorem grayBin_testBit_top {n g : Nat} (hn : 1 ≤ n) (h : g < 2 ^ n) :
    (grayBin n g).testBit (n - 1) = g.testBit (n - 1) := by
  rw [grayBin_testBit h, Nat.sub_add_cancel hn, Nat.testBit_lt_two_pow (grayBin_lt h), Bool.false_xor]

/-! ### Neighbours (R102) -/

/-- Counting on by one inverts the trailing ones and the zero above them, or every bit at the wrap. -/
theorem xor_wrapSucc (n p : Nat) (h : p < 2 ^ (n + 1)) : ∃ k ≤ n, p ^^^ wrapSucc (n + 1) p = 2 ^ (k + 1) - 1 := by
  induction n generalizing p with
  | zero =>
    refine ⟨0, le_rfl, ?_⟩
    obtain rfl | rfl : p = 0 ∨ p = 1 := by omega
    · rfl
    · rfl
  | succ n ih =>
    obtain ⟨q, rfl | rfl⟩ := Nat.even_or_odd' p
    case inl =>
      have hlt : 2 * q + 1 < 2 ^ (n + 2) := by rw [Nat.pow_succ] at h ⊢; omega
      have hsucc : wrapSucc (n + 2) (2 * q) = 2 * q + 1 := Nat.mod_eq_of_lt hlt
      have hxor : 2 * q ^^^ 1 = 2 * q + 1 := Nat.xor_one_of_even (even_two_mul q)
      exact ⟨0, Nat.zero_le _, by rw [hsucc, ← hxor, Nat.xor_xor_cancel_left]; rfl⟩
    case inr =>
      obtain ⟨k, hk, heq⟩ := ih q (by omega)
      have hsucc : wrapSucc (n + 2) (2 * q + 1) = 2 * wrapSucc (n + 1) q := by
        rw [wrapSucc, wrapSucc, ← Nat.mul_mod_mul_left, ← Nat.pow_succ']; rfl
      have hhalf : (2 * q + 1 ^^^ 2 * wrapSucc (n + 1) q) / 2 = q ^^^ wrapSucc (n + 1) q := by
        rw [Nat.xor_div_two]; congr 1 <;> omega
      have hodd : (2 * q + 1 ^^^ 2 * wrapSucc (n + 1) q) % 2 = 1 := by
        rw [Nat.xor_mod_two_eq]; omega
      have hpos : 0 < 2 ^ (k + 1) := Nat.two_pow_pos _
      exact ⟨k + 1, by omega, by rw [hsucc, Nat.pow_succ]; omega⟩

theorem gray_two_pow_sub_one (k : Nat) : gray (2 ^ (k + 1) - 1) = 2 ^ k := by
  refine Nat.eq_of_testBit_eq fun i => ?_
  rw [gray_testBit, Nat.testBit_two_pow_sub_one, Nat.testBit_two_pow_sub_one, Nat.testBit_two_pow]
  obtain hi | rfl | hi := lt_trichotomy i k
  · simp [hi, hi.ne', Nat.lt_succ_of_lt hi]
  · simp
  · simp [hi.ne, Nat.not_lt.2 hi, hi.le]

theorem gray_wrapSucc (n p : Nat) (h : p < 2 ^ (n + 1)) :
    ∃ k ≤ n, gray (wrapSucc (n + 1) p) = gray p ^^^ 2 ^ k := by
  obtain ⟨k, hk, heq⟩ := xor_wrapSucc n p h
  exact ⟨k, hk, by rw [← gray_two_pow_sub_one, ← heq, ← gray_xor, Nat.xor_xor_cancel_left]⟩

/-! ### Half the range ahead (R102) -/

/-- Adding the weight of the top bit, modulo the range, inverts the top bit alone. -/
theorem add_two_pow_mod_eq_xor {n p : Nat} (h : p < 2 ^ (n + 1)) : (p + 2 ^ n) % 2 ^ (n + 1) = p ^^^ 2 ^ n := by
  refine Nat.eq_of_testBit_eq fun i => ?_
  rw [Nat.testBit_mod_two_pow, Nat.testBit_xor, Nat.testBit_two_pow, Nat.add_comm p]
  obtain hi | rfl | hi := lt_trichotomy i n
  · simp [Nat.testBit_two_pow_add_gt hi, Nat.lt_succ_of_lt hi, hi.ne']
  · simp [Nat.testBit_two_pow_add_eq]
  · have hp : p.testBit i = false := Nat.testBit_lt_two_pow (h.trans_le (Nat.pow_le_pow_right two_pos hi))
    simp [hp, hi.ne, Nat.not_lt.2 hi]

theorem gray_two_pow_succ (m : Nat) : gray (2 ^ (m + 1)) = 3 <<< m := by
  have htop : 2 ^ (m + 1) = 2 <<< m := by rw [Nat.shiftLeft_eq, Nat.pow_succ']
  have hnext : 2 ^ (m + 1) >>> 1 = 1 <<< m := by
    rw [Nat.shiftRight_eq_div_pow, Nat.one_shiftLeft, Nat.pow_succ]; simp
  rw [gray_eq, hnext, htop, ← Nat.shiftLeft_xor_distrib]; rfl

theorem gray_add_two_pow_mod {n p : Nat} (hn : 1 ≤ n) (h : p < 2 ^ (n + 1)) :
    gray ((p + 2 ^ n) % 2 ^ (n + 1)) = gray p ^^^ (3 <<< (n - 1)) := by
  rw [add_two_pow_mod_eq_xor h, gray_xor, ← gray_two_pow_succ, Nat.sub_add_cancel hn]

/-- Settles O6: the laws at width `n + 1`, the bit recurrence of the inverse, and the eight codes by evaluation. -/
theorem grayCodeLaws : Obligations.GrayCodeLaws := by
  refine ⟨fun n p hn hp => ⟨gray_eq p, gray_lt hp, grayBin_gray hp, ?neighbours, ?half⟩,
    fun n g hn hg => ⟨grayBin_testBit_top hn hg, fun i _ => grayBin_testBit hg i⟩, by decide⟩
  case neighbours =>
    obtain ⟨n, rfl⟩ := Nat.exists_eq_add_of_le' hn
    obtain ⟨k, hk, heq⟩ := gray_wrapSucc n p hp
    exact ⟨k, Nat.lt_succ_of_le hk, heq⟩
  case half =>
    intro h2
    obtain ⟨n, rfl⟩ := Nat.exists_eq_add_of_le' hn
    exact gray_add_two_pow_mod (Nat.le_of_succ_le_succ h2) hp

/-! ### The counts behind the registers (R25, R101, R104) -/

/-- The difference of two counters modulo the range is the difference of the counts, if that is below the range. -/
theorem wrapSub_mod_mod {n a b : Nat} (hle : b ≤ a) (hlt : a - b < 2 ^ n) :
    wrapSub n (a % 2 ^ n) (b % 2 ^ n) = a - b := by
  have hb : b % 2 ^ n < 2 ^ n := Nat.mod_lt _ (Nat.two_pow_pos n)
  have hsum : a % 2 ^ n + (2 ^ n - b % 2 ^ n) ≡ a - b [MOD 2 ^ n] := by
    refine Nat.ModEq.add_right_cancel' (b % 2 ^ n) ?_
    calc a % 2 ^ n + (2 ^ n - b % 2 ^ n) + b % 2 ^ n
        = a % 2 ^ n + 2 ^ n := by omega
      _ ≡ a [MOD 2 ^ n] := (Nat.add_mod_right _ _).trans (Nat.mod_mod _ _)
      _ = a - b + b := (Nat.sub_add_cancel hle).symm
      _ ≡ a - b + b % 2 ^ n [MOD 2 ^ n] := Nat.ModEq.add_left _ (Nat.mod_modEq _ _).symm
  rw [wrapSub, Nat.mod_mod, hsum, Nat.mod_eq_of_lt hlt]

/-- Two counts less than a range apart are equal when they agree modulo the range. -/
theorem mod_two_pow_inj {n a b : Nat} (hle : b ≤ a) (hlt : a - b < 2 ^ n) : a % 2 ^ n = b % 2 ^ n ↔ a = b := by
  refine ⟨fun h => ?_, congrArg (· % 2 ^ n)⟩
  have hdiff : (a - b) % 2 ^ n = 0 := Nat.sub_mod_eq_zero_of_mod_eq h
  rw [Nat.mod_eq_of_lt hlt] at hdiff
  omega

theorem hrqFull_iff_gray (aw : Nat) (h : Hrq) : hrqFull aw h = true ↔ h.wgray = h.wq2Rgray ^^^ (3 <<< (aw - 1)) :=
  beq_iff_eq

namespace HrqMatches

variable {aw : Nat} {h : Hrq} {c : HrqCounts} (hm : HrqMatches aw h c)
include hm

theorem r2_le_r : c.r2 ≤ c.r := hm.r2_le.trans hm.r1_le

theorem r_le_w : c.r ≤ c.w := hm.r_le.trans (hm.w2_le.trans hm.w1_le)

/-- The writer is less than a whole range ahead of its own view of the reader. -/
theorem w_sub_r2_lt : c.w - c.r2 < 2 ^ (aw + 1) := by
  have := hm.w_le; have := Nat.two_pow_pos aw
  rw [Nat.two_pow_succ]; omega

theorem hrqOcc_eq : hrqOcc aw h = c.w - c.r := by
  have hlt : c.w - c.r < 2 ^ (aw + 1) := (Nat.sub_le_sub_left hm.r2_le_r _).trans_lt hm.w_sub_r2_lt
  rw [hrqOcc, hm.wbin, hm.rbin, wrapSub_mod_mod hm.r_le_w hlt]

/-- The occupancy as the write side sees it. -/
theorem wrapSub_wbin_wq2Rgray : wrapSub (aw + 1) h.wbin (grayBin (aw + 1) h.wq2Rgray) = c.w - c.r2 := by
  rw [hm.wbin, hm.wq2, grayBin_gray (Nat.mod_lt _ (Nat.two_pow_pos _)),
    wrapSub_mod_mod (hm.r2_le_r.trans hm.r_le_w) hm.w_sub_r2_lt]

/-- R104: the gray code test compares the counts, because R102 turns the two inverted top bits into a whole depth. -/
theorem hrqFull_iff (haw : 1 ≤ aw) : hrqFull aw h = true ↔ c.w = c.r2 + 2 ^ aw := by
  have hdiff : c.r2 + 2 ^ aw - c.w < 2 ^ (aw + 1) := by
    have := hm.r2_le_r; have := hm.r_le_w; have := Nat.two_pow_succ aw; have := Nat.two_pow_pos aw
    omega
  have hlt (p : Nat) : p % 2 ^ (aw + 1) < 2 ^ (aw + 1) := Nat.mod_lt _ (Nat.two_pow_pos _)
  calc hrqFull aw h = true
      ↔ gray (c.w % 2 ^ (aw + 1)) = gray (c.r2 % 2 ^ (aw + 1)) ^^^ (3 <<< (aw - 1)) := by
        rw [hrqFull_iff_gray, hm.wgray, hm.wq2]
    _ ↔ c.w % 2 ^ (aw + 1) = (c.r2 + 2 ^ aw) % 2 ^ (aw + 1) := by
        rw [← gray_add_two_pow_mod haw (hlt _), gray_inj (hlt _) (hlt _), Nat.mod_add_mod]
    _ ↔ c.w = c.r2 + 2 ^ aw := by rw [eq_comm, mod_two_pow_inj hm.w_le hdiff, eq_comm]

end HrqMatches

theorem hrqFull_iff_wrapSub {aw : Nat} {h : Hrq} (haw : 1 ≤ aw) (hi : HrqInv aw h) :
    hrqFull aw h = true ↔ wrapSub (aw + 1) h.wbin (grayBin (aw + 1) h.wq2Rgray) = 2 ^ aw := by
  obtain ⟨c, hm⟩ := hi
  have := hm.w_le; have := Nat.two_pow_pos aw
  rw [hm.hrqFull_iff haw, hm.wrapSub_wbin_wq2Rgray]
  omega

/-- R104: never the reverse of pessimistic. A view older than the true read pointer would put the writer more
than a depth ahead of it. -/
theorem hrqFull_of_hrqOcc_eq {aw : Nat} {h : Hrq} (haw : 1 ≤ aw) (hi : HrqInv aw h) (hocc : hrqOcc aw h = 2 ^ aw) :
    hrqFull aw h = true := by
  obtain ⟨c, hm⟩ := hi
  have := hm.r2_le_r; have := hm.w_le; have := Nat.two_pow_pos aw
  rw [hm.hrqOcc_eq] at hocc
  exact (hm.hrqFull_iff haw).2 (by omega)

theorem Inv.one_le_hrqAw {s : State} (hi : Inv s) : 1 ≤ s.build.hrqAw := by
  have hwf := hi.build
  simp only [Build.wf, Bool.and_eq_true, decide_eq_true_eq] at hwf
  omega

/-! ### The push (R105) -/

@[simp] theorem exec_hrqPush (b : Byte) (s : State) : exec (.hrqPush b) s = .next (wirePush b s) := rfl

/-- Settles O7: the test by the counts of the invariant, and the two branches of the push. -/
theorem hrqPushStoresOrDrops : Obligations.HrqPushStoresOrDrops := by
  intro b s
  refine ⟨hrqFull_iff_gray _ _, fun hi => ⟨hrqFull_iff_wrapSub hi.one_le_hrqAw hi.hrq,
    hrqFull_of_hrqOcc_eq hi.one_le_hrqAw hi.hrq⟩, ?stores, ?drops⟩
  case stores =>
    intro hf
    refine ⟨memSet s.hrq.mem (s.hrq.wbin % 2 ^ s.build.hrqAw) b, ?_, fun a => memGet_memSet _ _ a b⟩
    rw [exec_hrqPush, wirePush, pushEdge_of_room hf]
    rfl
  case drops =>
    intro hf
    rw [exec_hrqPush, wirePush, pushEdge_of_full hf]
    rfl

/-! ### The synchronisers (R109, R111) -/

@[simp] theorem exec_hrqWsync (s : State) : exec .hrqWsync s = .next { s with hrq := wsyncEdge s.hrq } := rfl
@[simp] theorem exec_hrqRsync (s : State) : exec .hrqRsync s = .next { s with hrq := rsyncEdge s.hrq } := rfl

/-- Settles O8: each meaning is one edge of its own domain, in every state. -/
theorem hrqSynchronisersShift : Obligations.HrqSynchronisersShift :=
  fun s => ⟨exec_hrqWsync s, exec_hrqRsync s⟩

end Sys2Proof.Machine
end

section
/-! PROOFS of the family 41_rx_feeder.md: what a pop takes from the queue (R108), and where a `FEED` command stores the bytes it
took (R123 to R125). A `FEED` of the bytes `bs` leaves `storeBytes bs`, whatever the number of its lines; that run of stores is one
`arrive` where the bytes fit, and two with the overflow's reset between them where they do not. -/

namespace Sys2Proof.Machine

/-! ### What a pop takes (R108) -/

theorem hrqEmpty_eq_false {h : Hrq} : hrqEmpty h = false ↔ h.rgray ≠ h.rq2Wgray := beq_eq_false_iff_ne

namespace HrqMatches

variable {aw : Nat} {h : Hrq} {c : HrqCounts} (hm : HrqMatches aw h c)
include hm

/-- The queue's cells by the counts instead of the registers. -/
theorem hrqContents_eq :
    hrqContents aw h = (List.range (c.w - c.r)).filterMap fun k => memGet h.mem ((c.r + k) % 2 ^ aw) := by
  have hcell (k : Nat) : (c.r % 2 ^ (aw + 1) + k) % 2 ^ aw = (c.r + k) % 2 ^ aw := by
    rw [Nat.add_mod, Nat.mod_mod_of_dvd _ (Nat.pow_dvd_pow 2 (Nat.le_succ aw)), ← Nat.add_mod]
  rw [hrqContents, hm.hrqOcc_eq]
  simp only [hm.rbin, hcell]

theorem hrqContents_length_le : (hrqContents aw h).length ≤ 2 ^ aw := by
  have hfilter := List.length_filterMap_le (fun k => memGet h.mem ((c.r + k) % 2 ^ aw)) (List.range (c.w - c.r))
  have := hm.r2_le_r; have := hm.w_le; have := Nat.two_pow_pos aw
  rw [List.length_range] at hfilter
  rw [hm.hrqContents_eq]
  omega

/-- R106: where the read side does not see the queue empty, its sample of the writer is ahead of the reader. -/
theorem r_lt_w2 (he : hrqEmpty h = false) : c.r < c.w2 := by
  refine lt_of_le_of_ne hm.r_le fun heq => hrqEmpty_eq_false.1 he ?_
  rw [hm.rgray, hm.rq2, heq]

/-- The counts after a pop: one more byte popped, and both samples of the writer one edge newer (R108, R109). -/
theorem pop (he : hrqEmpty h = false) :
    HrqMatches aw
      { rsyncEdge h with rbin := wrapSucc (aw + 1) h.rbin, rgray := gray (wrapSucc (aw + 1) h.rbin) }
      { c with r := c.r + 1, w2 := c.w1, w1 := c.w } := by
  have hsucc : wrapSucc (aw + 1) h.rbin = (c.r + 1) % 2 ^ (aw + 1) := by rw [wrapSucc, hm.rbin, Nat.mod_add_mod]
  refine { hm with
    r1_le := hm.r1_le.trans (Nat.le_succ _)
    r_le := (hm.r_lt_w2 he).trans_le hm.w2_le
    w2_le := hm.w1_le
    w1_le := le_rfl
    rbin := hsucc
    rgray := congrArg gray hsucc
    rq1 := hm.wgray
    rq2 := hm.rq1
    written := fun j (hj : j < c.w - (c.r + 1)) => ?_ }
  have hcell := hm.written (j + 1) (by omega)
  rw [Nat.add_comm j, ← Nat.add_assoc] at hcell
  exact hcell

end HrqMatches

/-- R60, R108: a pop answers the oldest byte of the queue and leaves the others in their order. -/
theorem popEdge_takes_oldest {aw : Nat} {h h' : Hrq} {b : Byte} (hi : HrqInv aw h) (hp : popEdge aw h = .next (b, h')) :
    HrqInv aw h' ∧ hrqContents aw h = b :: hrqContents aw h' := by
  obtain ⟨c, hm⟩ := hi
  obtain ⟨he, hb, rfl⟩ := popEdge_eq_next.1 hp
  have hm' := hm.pop he
  refine ⟨⟨_, hm'⟩, ?_⟩
  have hlen : c.w - c.r = c.w - (c.r + 1) + 1 := by
    have := hm.r_lt_w2 he; have := hm.w2_le; have := hm.w1_le; omega
  have hfirst : memGet h.mem (c.r % 2 ^ aw) = some b := by
    rwa [hm.rbin, Nat.mod_mod_of_dvd _ (Nat.pow_dvd_pow 2 (Nat.le_succ aw))] at hb
  rw [hm.hrqContents_eq, hm'.hrqContents_eq, hlen, List.range_succ_eq_map, List.filterMap_cons, Nat.add_zero, hfirst,
    List.filterMap_map]
  simp only [Function.comp_def, Nat.succ_eq_add_one, Nat.add_assoc, Nat.add_comm 1]
  rfl

/-- The queue holds fewer bytes than `rx_buf` (R8, R25), so one `FEED` overflows at most once. -/
theorem Inv.hrqContents_length_lt {s : State} (hi : Inv s) :
    (hrqContents s.build.hrqAw s.hrq).length < s.build.rxCap := by
  obtain ⟨c, hm⟩ := hi.hrq
  have hwf := hi.build
  rw [Build.wf, Bool.and_eq_true] at hwf
  exact hm.hrqContents_length_le.trans_lt (of_decide_eq_true hwf.2)

/-! ### The stores of a `FEED` (R124, R125) -/

@[simp] theorem arrive_build (bs : List Byte) (s : State) : (arrive bs s).build = s.build := rfl
@[simp] theorem arrive_rx_head (bs : List Byte) (s : State) : (arrive bs s).rx.head = s.rx.head + bs.length := rfl

theorem arrive_cons (b : Byte) (bs : List Byte) (s : State) : arrive (b :: bs) s = arrive bs (arrive [b] s) := by
  simp only [arrive, memSetRun, List.length_cons, List.length_nil]
  congr 2; omega

/-- What the lines of a `FEED` that pop the bytes `bs` do but for the pops: room is made before each byte, and the byte stored. -/
def storeBytes (bs : List Byte) (s : State) : State := bs.foldl (fun u b => arrive [b] (feedMakeRoom u)) s

/-- R124: bytes that fit are stored without an overflow. -/
theorem storeBytes_of_fits {bs : List Byte} {s : State} (h : s.rx.head + bs.length ≤ s.build.rxCap) :
    storeBytes bs s = arrive bs s := by
  induction bs generalizing s with
  | nil => rfl
  | cons b bs ih =>
    rw [List.length_cons] at h
    have hrest : storeBytes bs (arrive [b] s) = arrive bs (arrive [b] s) :=
      ih (by rw [arrive_rx_head, arrive_build, List.length_singleton]; omega)
    rw [arrive_cons, ← hrest, storeBytes, List.foldl_cons, feedMakeRoom_of_room (by omega), storeBytes]

/-- R125: what fits fills the buffer, the next byte finds it full, and it and the later ones start again at offset 0. -/
theorem storeBytes_of_overflow {bs : List Byte} {s : State} (hhead : s.rx.head ≤ s.build.rxCap)
    (hover : s.build.rxCap < s.rx.head + bs.length) (hlen : bs.length ≤ s.build.rxCap) :
    storeBytes bs s =
      arrive (bs.drop (s.build.rxCap - s.rx.head))
        (feedMakeRoom (arrive (bs.take (s.build.rxCap - s.rx.head)) s)) := by
  set room := s.build.rxCap - s.rx.head
  have htake : (bs.take room).length = room := List.length_take_of_le (by omega)
  obtain ⟨b, rest, hdrop⟩ : ∃ b rest, bs.drop room = b :: rest := ⟨_, _, List.drop_eq_getElem_cons (by omega)⟩
  have hrest : rest.length + 1 = bs.length - room := by rw [← List.length_drop, hdrop, List.length_cons]
  set full := arrive (bs.take room) s
  have hfull : full.rx.head = full.build.rxCap := by rw [arrive_rx_head, arrive_build]; omega
  have hstart : (feedMakeRoom full).rx.head = 0 := by rw [feedMakeRoom_of_full hfull]
  calc storeBytes bs s
      = storeBytes (bs.drop room) (storeBytes (bs.take room) s) := by
        rw [storeBytes, storeBytes, storeBytes, ← List.foldl_append, List.take_append_drop]
    _ = storeBytes (b :: rest) full := by
        rw [storeBytes_of_fits (bs := bs.take room) (by omega), hdrop]
    _ = storeBytes rest (arrive [b] (feedMakeRoom full)) := rfl
    _ = arrive rest (arrive [b] (feedMakeRoom full)) := by
        refine storeBytes_of_fits ?_
        rw [arrive_rx_head, hstart, arrive_build, feedMakeRoom_build, arrive_build, List.length_singleton]; omega
    _ = arrive (bs.drop room) (feedMakeRoom full) := by rw [hdrop, ← arrive_cons]

/-! ### The lines of a `FEED` -/

theorem feedMakeRoom_with_hrq_ctl (h : Hrq) (c : Ctl) (s : State) :
    feedMakeRoom { s with hrq := h, ctl := c } = { feedMakeRoom s with hrq := h, ctl := c } := by
  simp only [feedMakeRoom]; split <;> rfl

/-- Between the start state `s` of a `FEED` and `u`, the `FEED` popped the bytes `bs`, the oldest of the queue, and stored them;
only the control bits are left open. -/
structure FeedTook (s : State) (bs : List Byte) (u : State) : Prop where
  stored : u = { storeBytes bs s with hrq := u.hrq, ctl := u.ctl }
  build : u.build = s.build
  hrq : HrqInv s.build.hrqAw u.hrq
  taken : hrqContents s.build.hrqAw s.hrq = bs ++ hrqContents s.build.hrqAw u.hrq

namespace FeedTook

variable {s u v : State} {bs : List Byte}

theorem start (hi : HrqInv s.build.hrqAw s.hrq) : FeedTook s [] s := ⟨rfl, rfl, hi, rfl⟩

theorem with_ctl (ht : FeedTook s bs u) (c : Ctl) : FeedTook s bs { u with ctl := c } where
  stored := congrArg (fun x : State => { x with ctl := c }) ht.stored
  build := ht.build
  hrq := ht.hrq
  taken := ht.taken

/-- R124, R125: a byte moved is popped and stored behind the earlier ones. -/
theorem feedMove (ht : FeedTook s bs u) (hl : feedMove (feedMakeRoom u) = .next v) : ∃ b, FeedTook s (bs ++ [b]) v := by
  obtain ⟨b, h, hp, -, rfl⟩ := feedMove_eq_next.1 hl
  rw [feedMakeRoom_build, feedMakeRoom_hrq, ht.build] at hp
  obtain ⟨hinv, hcons⟩ := popEdge_takes_oldest ht.hrq hp
  refine ⟨b, ?stored, (feedMakeRoom_build u).trans ht.build, hinv, ?taken⟩
  case stored =>
    have hroom := congrArg feedMakeRoom ht.stored
    rw [feedMakeRoom_with_hrq_ctl u.hrq u.ctl (storeBytes bs s)] at hroom
    rw [storeBytes, List.foldl_append, List.foldl_cons, List.foldl_nil, ← storeBytes]
    exact congrArg (fun x : State => { arrive [b] x with hrq := h, ctl := (feedMakeRoom u).ctl }) hroom
  case taken => rw [ht.taken, hcons, List.append_assoc, List.singleton_append]

end FeedTook

/-- One line of a `FEED` pops and stores at most one byte, and stays at its line of the command in progress. -/
theorem FeedTook.feedLine {s u v : State} {bs : List Byte} (ht : FeedTook s bs u) (hl : feedLine u = .next v) :
    (∃ bs', FeedTook s bs' v) ∧ v.ctl.main = u.ctl.main := by
  obtain ⟨-, rfl⟩ | ⟨-, hmove⟩ := feedLine_cases hl
  · exact ⟨⟨bs, ht.with_ctl _⟩, rfl⟩
  · obtain ⟨b, hb⟩ := ht.feedMove hmove
    obtain ⟨_, _, -, -, rfl⟩ := feedMove_eq_next.1 hmove
    exact ⟨⟨_, hb⟩, congrArg Ctl.main (feedMakeRoom_ctl u)⟩

/-! ### The `FEED` command -/

@[simp] theorem exec_feed (s : State) : exec .feed s = execFeed s := rfl

theorem mainLine_feedRun {s : State} (hm : s.ctl.main = .feedRun) :
    mainLine s = andThen (feedLine s) fun u => .next (if u.ctl.feedActive then u else commandDone u) := by
  simp [mainLine, hm]

/-- The lines of a `FEED` command whose `FEED` has started. -/
theorem FeedTook.mainLines {s t : State} {bs : List Byte} {n : Nat} (ht : FeedTook s bs s) (hm : s.ctl.main = .feedRun)
    (h : mainLines n s = .next t) : ∃ bs', FeedTook s bs' t := by
  refine (mainLines_induct (P := fun u => (∃ bs', FeedTook s bs' u) ∧ (u.ctl.mainBusy = true → u.ctl.main = .feedRun))
    ?line n s t ⟨⟨bs, ht⟩, fun _ => hm⟩ h).1
  rintro u v ⟨⟨_, hu⟩, hrun⟩ hbusy hl
  rw [mainLine_feedRun (hrun hbusy)] at hl
  obtain ⟨w, hw, hv⟩ := andThen_eq_next.1 hl
  obtain ⟨⟨bs', hw'⟩, hmain⟩ := hu.feedLine hw
  obtain rfl := Host.Outcome.next.inj hv
  split
  · exact ⟨⟨bs', hw'⟩, fun _ => hmain.trans (hrun hbusy)⟩
  · exact ⟨⟨bs', hw'.with_ctl _⟩, fun hb => absurd hb (by simp)⟩

/-- The state in which a `FEED` command has been accepted and its `FEED` has started (R121 (c), R123). -/
def feedBegun (s : State) : State := setMain .feedRun (feedStart (acceptCommand .feedWait s))

@[simp] theorem feedBegun_build (s : State) : (feedBegun s).build = s.build := by simp [feedBegun]
@[simp] theorem feedBegun_hrq (s : State) : (feedBegun s).hrq = s.hrq := by simp [feedBegun]
@[simp] theorem feedBegun_rx (s : State) : (feedBegun s).rx = s.rx := by simp [feedBegun]
@[simp] theorem feedBegun_ctl_main (s : State) : (feedBegun s).ctl.main = .feedRun := rfl

/-- R123, R217: the watermark test at entry. -/
theorem feedBegun_diagLog (s : State) :
    (feedBegun s).bnd.diagLog = s.bnd.diagLog ++
      (if s.build.hrqWatermark ≤ hrqAvail s.build.hrqAw s.hrq then [DiagEvent.insufficientReceiveRate] else []) :=
  feedStart_diagLog _

/-- With no command in progress nobody holds the lock (R39). -/
theorem Inv.unlocked_of_ready {s : State} (hi : Inv s) (hr : s.ctl.mainBusy = false) : s.ctl.rxLock = false := by
  have hbusy := hi.ctl.busy
  have hidle : s.ctl.main = .idle := by simpa [hr] using hbusy
  rw [hi.ctl.lock, hidle]; rfl

/-- A `FEED` command to a quiet machine starts its `FEED` in its first line. -/
theorem execFeed_of_quiet {s : State} (hi : Inv s) (hq : Quiet s) : ∃ n, execFeed s = mainLines n (feedBegun s) := by
  obtain ⟨hready, hno, hslice⟩ := hq
  have hlock := hi.unlocked_of_ready hready
  refine ⟨feedFuel s.build + s.build.rxCap + s.rx.head + 7, ?_⟩
  have hfirst : mainLine (acceptCommand .feedWait s) = .next (feedBegun s) := by simp [mainLine, feedBegun, hno, hlock]
  rw [execFeed, whenReady_of_ready hready, runCommand, lines, hslice, Option.getD_none, mainFuel, mainLines,
    if_pos (acceptCommand_ctl_mainBusy _ _), hfirst, andThen_next]

/-- What a `FEED` command has done: the bytes `moved` that left the queue are the ones it stored. -/
theorem feedTook_of_exec_feed {s t : State} {moved : List Byte} (hi : Inv s) (hq : Quiet s) (h : exec .feed s = .next t)
    (htaken : hrqContents s.build.hrqAw s.hrq = moved ++ hrqContents s.build.hrqAw t.hrq) :
    FeedTook (feedBegun s) moved t := by
  obtain ⟨n, hn⟩ := execFeed_of_quiet hi hq
  rw [exec_feed, hn] at h
  have hstart : FeedTook (feedBegun s) [] (feedBegun s) := .start (by simpa using hi.hrq)
  obtain ⟨bs, ht⟩ := hstart.mainLines (feedBegun_ctl_main s) h
  have hbs : moved = bs := by
    have hsame := ht.taken
    rw [feedBegun_build, feedBegun_hrq, htaken] at hsame
    exact List.append_cancel_right hsame
  exact hbs ▸ ht

/-- Settles O14: bytes that fit are one `arrive` on the state after the watermark test. -/
theorem feedStoresInOrder : Obligations.FeedStoresInOrder := by
  intro s t moved hi hq h htaken hfits
  have ht := (feedTook_of_exec_feed hi hq h htaken).stored
  rw [storeBytes_of_fits (by simpa using hfits)] at ht
  have hrx : t.rx = { s.rx with
      buf := memSetRun s.rx.buf s.rx.head moved, head := s.rx.head + moved.length } := by
    rw [ht, arrive, feedBegun_rx]
  refine ⟨by rw [hrx], fun a => by rw [hrx, memGet_memSetRun], ?_⟩
  rw [ht]
  exact feedBegun_diagLog s

/-- Settles O15: the bytes that fill `rx_buf`, the overflow's reset, and the bytes that arrive at offset 0. -/
theorem feedOverflowStartsAgain : Obligations.FeedOverflowStartsAgain := by
  intro s t moved hi hq h htaken hover
  have hhead := hi.rx.head_le
  have hlen : moved.length < s.build.rxCap := by
    have hall := hi.hrqContents_length_lt
    rw [htaken, List.length_append] at hall; omega
  have ht := (feedTook_of_exec_feed hi hq h htaken).stored
  rw [storeBytes_of_overflow (by simpa using hhead) (by simpa using hover) (by simpa using hlen.le), feedBegun_build,
    feedBegun_rx] at ht
  set room := s.build.rxCap - s.rx.head
  have htake : (moved.take room).length = room := List.length_take_of_le (by omega)
  have hdrop : (moved.drop room).length = s.rx.head + moved.length - s.build.rxCap := by rw [List.length_drop]; omega
  have hfull : (arrive (moved.take room) (feedBegun s)).rx.head = (arrive (moved.take room) (feedBegun s)).build.rxCap := by
    rw [arrive_rx_head, arrive_build, feedBegun_rx, feedBegun_build]; omega
  rw [feedMakeRoom_of_full hfull] at ht
  have hrx : t.rx = { s.rx with
      buf := memSetRun (memSetRun s.rx.buf s.rx.head (moved.take room)) 0 (moved.drop room)
      tail := 0, head := s.rx.head + moved.length - s.build.rxCap, state := .awaitStart, active := false } := by
    rw [ht, ← hdrop]; simp only [arrive, feedBegun_rx, Nat.zero_add]
  refine ⟨by rw [hrx], fun a => ?cells, ?log⟩
  case cells =>
    rw [hrx, memGet_memSetRun, memGet_memSetRun, hdrop, htake, List.getElem?_drop]
    have hend : s.rx.head + room = s.build.rxCap := by omega
    simp only [Nat.zero_le, true_and, Nat.zero_add, Nat.sub_zero, hend]
    split
    · rfl
    · split
      · rw [List.getElem?_take_of_lt (by omega)]
      · rfl
  case log =>
    rw [ht, ← feedBegun_diagLog]; rfl

end Sys2Proof.Machine
end

section
/-! PROOFS of the byte classes of 42_rx_framing.md (R144 to R149): the next state of each, written out field by field. Each operation is
first the shared operation of its class, enabled as the next iteration; the fields then follow from the laws of that shared operation. -/

namespace Sys2Proof.Machine

/-! ### A byte class that comes next is its shared operation (R82, R87) -/

section
variable {s : State} {b : Byte}

theorem exec_rxbToken_of_enabled (h : rxbEnabled .rxbToken s = true) : exec .rxbToken s = .next (rxToken s) :=
  onIteration_of_enabled (act := fun s => .next (rxToken s)) h

theorem exec_rxbSkip_of_enabled (h : rxbEnabled (.rxbSkip b) s = true) : exec (.rxbSkip b) s = .next (rxSkip s) :=
  onIteration_of_enabled (act := fun s => .next (rxSkip s)) h

theorem exec_rxbLenH_of_enabled (h : rxbEnabled (.rxbLenH b) s = true) : exec (.rxbLenH b) s = .next (rxLenH b s) :=
  onIteration_of_enabled (act := fun s => .next (rxLenH b s)) h

theorem exec_rxbLenL_of_enabled (h : rxbEnabled (.rxbLenL b) s = true) : exec (.rxbLenL b) s = .next (rxLenL b s) :=
  onIteration_of_enabled (act := fun s => .next (rxLenL b s)) h

theorem exec_rxbBody_of_enabled (h : rxbEnabled (.rxbBody b) s = true) : exec (.rxbBody b) s = rxBody s :=
  onIteration_of_enabled h

end

/-! ### The two halves of the length (R146, R147) -/

theorem setLengthHigh_high (old : Len16) (b : Byte) : (setLengthHigh old b).extractLsb' 8 8 = b :=
  BitVec.extractLsb'_append_eq_left

theorem setLengthHigh_low (old : Len16) (b : Byte) : (setLengthHigh old b).extractLsb' 0 8 = old.extractLsb' 0 8 :=
  BitVec.extractLsb'_append_eq_right

theorem setLengthLow_low (old : Len16) (b : Byte) : (setLengthLow old b).extractLsb' 0 8 = b :=
  BitVec.extractLsb'_append_eq_right

theorem setLengthLow_high (old : Len16) (b : Byte) : (setLengthLow old b).extractLsb' 8 8 = old.extractLsb' 8 8 :=
  BitVec.extractLsb'_append_eq_left

/-! ### `RXB.TOKEN`, `RXB.SKIP`, `RXB.LENH` (R144 to R146) -/

/-- The next state of `RXB.TOKEN`: in `AwaitStart` the log stays, elsewhere the diagnostic is raised first. -/
theorem rxToken_eq (s : State) : rxToken s = { s with
    rx := { s.rx with state := .lengthHigh, active := true, tail := s.rx.tail + 1 }
    bnd := { s.bnd with
      diagLog := s.bnd.diagLog ++
        (if s.rx.state = .awaitStart then [] else [DiagEvent.previousPacketIncomplete]) } } := by
  by_cases h : s.rx.state = .awaitStart
  · simp [rxToken, h]
  · simp [rxToken, h, raiseDiag]

/-- Settles O27: the token opens a frame in any framing state. -/
theorem tokenOpensAFrame : Obligations.TokenOpensAFrame := by
  intro s h
  rw [exec_rxbToken_of_enabled h, rxToken_eq]

/-- Settles O28: the skipped byte, and the high half of the length. -/
theorem skippedAndHighLengthBytes : Obligations.SkippedAndHighLengthBytes := by
  intro s b
  refine ⟨exec_rxbSkip_of_enabled, fun h => ?_⟩
  exact ⟨setLengthHigh s.rx.messageLength b, setLengthHigh_high _ b, setLengthHigh_low _ b, exec_rxbLenH_of_enabled h⟩

/-! ### `RXB.LENL` (R147) -/

/-- R142: what every return of `POLL_RECEIVE` writes. -/
theorem pollReturn_eq (c : ReceiveCode) (s : State) : pollReturn c s = { s with
    ctl := returnedCtl s
    bnd := { s.bnd with
      results := s.bnd.results ++ [.pollReceive c], recordLog := s.bnd.recordLog ++ [s.rx.record] } } := rfl

/-- Settles O29: the completed length against `RX_CAP`. -/
theorem lowLengthByteCompletesTheLength : Obligations.LowLengthByteCompletesTheLength := by
  intro s b h
  refine ⟨setLengthLow s.rx.messageLength b, setLengthLow_low _ b, setLengthLow_high _ b, ?oversized, ?fits⟩
  case oversized =>
    intro hover
    rw [exec_rxbLenL_of_enabled h, rxLenL_of_oversized hover, pollReturn_eq]
    rfl
  case fits =>
    intro hfits
    rw [exec_rxbLenL_of_enabled h, rxLenL_of_fits hfits]

/-! ### `RXB.BODY` (R148, R149) -/

theorem rxBody_of_incomplete {s : State} (h : s.rx.head < payloadEnd s) :
    rxBody s = .next (pollReturn .inProgress { s with rx := { s.rx with tail := s.rx.head } }) := by
  simp [rxBody, Nat.min_eq_right h.le, h]

theorem rxBody_of_complete {s : State} (h : payloadEnd s ≤ s.rx.head) :
    rxBody s = andThen (memReadRun .rxBuf s.build.rxCap s.rx.buf s.rx.messageStart s.rx.messageLength.toNat)
      fun payload => .next (rxDeliver payload { s with rx := { s.rx with tail := payloadEnd s } }) := by
  simp [rxBody, Nat.min_eq_left h]

/-- The cells of a payload that is complete are written (R49), so the window can be read. -/
theorem Inv.payload_readable {s : State} (hi : Inv s) (h : payloadEnd s ≤ s.rx.head) : ∃ payload,
    memReadRun .rxBuf s.build.rxCap s.rx.buf s.rx.messageStart s.rx.messageLength.toNat = .next payload := by
  refine memReadRun_of_written fun k hk => ?_
  have hhead : s.rx.messageStart + k < s.rx.head := by rw [payloadEnd] at h; omega
  exact ⟨hhead.trans_le hi.rx.head_le, hi.rx.written _ hhead⟩

/-- The next state of a delivery (R149): the frame closed, a drained buffer recycled, and what the codec makes of the payload. -/
theorem rxDeliver_eq (payload : List Byte) (s : State) : rxDeliver payload s = { s with
    rx := { s.rx with
      tail := if s.rx.tail = s.rx.head then 0 else s.rx.tail
      head := if s.rx.tail = s.rx.head then 0 else s.rx.head
      state := .awaitStart
      active := false
      record := deliveryRecord s.build payload s.rx.record }
    ctl := returnedCtl s
    bnd := { s.bnd with
      diagLog := s.bnd.diagLog ++ deliveryDiag s.build payload
      results := s.bnd.results ++ [.pollReceive (deliveryCode s.build payload)]
      recordLog := s.bnd.recordLog ++ [deliveryRecord s.build payload s.rx.record] } } := by
  simp only [rxDeliver, deliveryRecord, deliveryDiag, deliveryCode, pollReturn_eq]
  cases decodePayload s.build payload with
  | ok r => by_cases hdrained : s.rx.tail = s.rx.head <;> simp [hdrained, returnedCtl]
  | err e => by_cases hdrained : s.rx.tail = s.rx.head <;> simp [hdrained, returnedCtl, raiseDiag]

/-- Settles O30: by whether the payload's end is among the buffered bytes. -/
theorem bodyAccumulatesAndDelivers : Obligations.BodyAccumulatesAndDelivers := by
  intro s b h
  rw [exec_rxbBody_of_enabled h]
  refine ⟨?incomplete, ?complete⟩
  case incomplete =>
    intro hlt
    rw [rxBody_of_incomplete hlt, pollReturn_eq]
    rfl
  case complete =>
    intro hi hle
    obtain ⟨payload, hread⟩ := hi.payload_readable hle
    obtain ⟨hlen, hcells⟩ := memReadRun_eq_next.1 hread
    refine ⟨payload, hlen, fun k hk => ?_, ?_⟩
    · obtain ⟨-, hk⟩ := hcells k (hlen ▸ hk)
      exact hk.symm
    · rw [rxBody_of_complete hle, hread, andThen_next, rxDeliver_eq]
      rfl

end Sys2Proof.Machine
end

section
/-! PROOFS of the family 43_tx_queue.md: the failures of `ENQUEUE` (R171, R172), `DRAIN` (R175 to R177) and `SINK.POP` (R184).
Each command first runs its shared operation when no command is in progress, and the shared operation has one equation per case. -/

namespace Sys2Proof.Machine

/-! ### Runs of reads -/

/-- The bytes that a run of reads answers, as the streams of R59 and R60 list the cells. -/
theorem filterMap_memGet_of_read {sp : Space} {cap n : Nat} {m : Memory} {a : Nat} {bs : List Byte}
    (h : memReadRun sp cap m a n = .next bs) : ((List.range n).filterMap fun k => memGet m (a + k)) = bs := by
  induction n generalizing a bs with
  | zero => simpa [memReadRun] using h
  | succ n ih =>
    simp only [memReadRun, andThen_eq_next, Host.Outcome.next.injEq] at h
    obtain ⟨b, hb, bs', hrest, rfl⟩ := h
    obtain ⟨-, hb⟩ := memRead_eq_next.1 hb
    rw [List.range_succ_eq_map, List.filterMap_cons_some (by simpa using hb), List.filterMap_map, ← ih hrest]
    simp [Nat.add_assoc, Nat.add_comm 1]

/-- A shorter run of reads answers the first of the bytes. -/
theorem memReadRun_take {sp : Space} {cap n k : Nat} {m : Memory} {a : Nat} {bs : List Byte}
    (h : memReadRun sp cap m a n = .next bs) (hk : k ≤ n) : memReadRun sp cap m a k = .next (bs.take k) := by
  obtain ⟨hlen, hcells⟩ := memReadRun_eq_next.1 h
  refine memReadRun_eq_next.2 ⟨by simp [hlen, hk], fun j hj => ?_⟩
  rw [List.getElem?_take_of_lt hj]
  exact hcells j (by omega)

/-- The buffered bytes can be read (R49), and are those of the transmit stream. -/
theorem Inv.txPending_read {s : State} (hi : Inv s) :
    memReadRun .txBuf s.build.txCap s.tx.buf s.tx.tail (s.tx.head - s.tx.tail) = .next (txPending s) := by
  have hhead := hi.tx.head_le
  obtain ⟨bytes, hread⟩ := memReadRun_of_written (sp := .txBuf) (cap := s.build.txCap) (m := s.tx.buf) (a := s.tx.tail)
    (n := s.tx.head - s.tx.tail) fun k hk => ⟨by omega, hi.tx.written _ (by omega)⟩
  rw [hread, ← filterMap_memGet_of_read hread, txPending]

/-! ### `ENQUEUE` (R170 to R172) -/

theorem exec_enqueue_of_ready {r : Record} {s : State} (h : s.ctl.mainBusy = false) :
    exec (.enqueue r) s = andThen (enqueueRecord r s) fun p => .next (respond (.enqueue p.2) p.1) :=
  (whenReady_of_ready h : execEnqueue r s = _)

theorem enqueueRecord_of_didNotFit {r : Record} {s : State} (h : encodeRecord s.build r = .didNotFit) :
    enqueueRecord r s = .next (scratchUnspecified s, .docOverflow) := by simp [enqueueRecord, h]

theorem enqueueRecord_of_ok {r : Record} {s : State} {p : List Byte} (h : encodeRecord s.build r = .ok p) :
    enqueueRecord r s =
      enqueuePayload p.length { s with tx := { s.tx with encScratch := memSetRun s.tx.encScratch 0 p } } := by
  have hscratch := scratchPayload_eq_next.2 ⟨.inr (encodeRecord_ok_length h), rfl⟩
  simp [enqueueRecord, h, hscratch]

/-- R172: with too little room above `tx_head`, the code says whether there is unsent data. -/
theorem enqueuePayload_of_full {n : Nat} {s : State} (hfull : s.build.txCap - s.tx.head < n + 3) :
    enqueuePayload n s =
      .next (s, if s.tx.tail < s.tx.head then .insufficientTransmitRate else .packetExceedsBufferSize) := by
  rw [enqueuePayload, if_pos hfull]
  split <;> rfl

/-- R172: an encoded packet that does not fit leaves its payload in `enc_scratch`, and everything else as it was. -/
theorem enqueueRecord_of_full {r : Record} {s : State} {p : List Byte} (henc : encodeRecord s.build r = .ok p)
    (hfull : s.build.txCap - s.tx.head < p.length + 3) : enqueueRecord r s =
      .next ({ s with tx := { s.tx with encScratch := memSetRun s.tx.encScratch 0 p } },
        if s.tx.tail < s.tx.head then .insufficientTransmitRate else .packetExceedsBufferSize) :=
  (enqueueRecord_of_ok henc).trans (enqueuePayload_of_full hfull)

/-- R49 (f): with nothing unsent the buffer is recycled. -/
theorem TxInv.head_eq_zero {b : Build} {tx : Tx} (hi : TxInv b tx) (h : ¬ tx.tail < tx.head) : tx.head = 0 :=
  hi.recycled (hi.tail_le.antisymm (Nat.not_lt.1 h))

/-- Settles O34: what `encode` answers, then the space above `tx_head`, then whether there is unsent data. -/
theorem enqueueFailuresLeaveTheBuffer : Obligations.EnqueueFailuresLeaveTheBuffer := by
  intro s r hready
  rw [exec_enqueue_of_ready hready]
  refine ⟨?doc, ?rate, ?size⟩
  case doc =>
    intro henc
    exact ⟨[], by rw [enqueueRecord_of_didNotFit henc]; rfl⟩
  case rate =>
    intro p henc hfull hunsent
    exact ⟨memSetRun s.tx.encScratch 0 p, by
      rw [enqueueRecord_of_full henc hfull, if_pos hunsent]; rfl⟩
  case size =>
    intro p henc hfull hnone
    refine ⟨⟨memSetRun s.tx.encScratch 0 p, by
      rw [enqueueRecord_of_full henc hfull, if_neg hnone]; rfl⟩, fun hi => ?_⟩
    rwa [hi.tx.head_eq_zero hnone] at hfull

/-! ### `DRAIN` (R175 to R177) -/

theorem exec_drain_of_ready {s : State} (h : s.ctl.mainBusy = false) :
    exec .drain s = andThen (drainOnce s) fun p => .next (respond (.drain p.2) p.1) :=
  (whenReady_of_ready h : execDrain s = _)

/-- R177, as one record update: the advance, with the recycling of a drained buffer in the fields. -/
theorem txAdvance_eq (w : Nat) (s : State) : txAdvance w s = { s with tx := { s.tx with
    tail := if s.tx.tail + w = s.tx.head then 0 else s.tx.tail + w
    head := if s.tx.tail + w = s.tx.head then 0 else s.tx.head } } := by
  by_cases h : s.tx.tail + w = s.tx.head
  · rw [txAdvance_of_drained h, if_pos h, if_pos h]
  · rw [txAdvance_of_pending h, if_neg h, if_neg h]

/-- The bytes still pending after an advance (R175), recycled or not. -/
theorem txAdvance_pending (w : Nat) (s : State) :
    (txAdvance w s).tx.head - (txAdvance w s).tx.tail = s.tx.head - s.tx.tail - w := by
  by_cases h : s.tx.tail + w = s.tx.head
  · simp only [txAdvance_of_drained h]; omega
  · simp only [txAdvance_of_pending h]; omega

/-- Under the invariant `DRAIN` answers: the offered bytes can be read, and the sink takes them all. -/
theorem Inv.drainOnce_eq {s : State} (hi : Inv s) {n : Nat} (hn : n = min (sinkSpace s) (s.tx.head - s.tx.tail)) :
    drainOnce s = .next
      (txAdvance n { s with bnd := { s.bnd with sinkQ := s.bnd.sinkQ ++ (txPending s).take n } },
        s.tx.head - s.tx.tail - n) := by
  have hread := memReadRun_take hi.txPending_read (k := n) (by omega)
  obtain ⟨hlen, -⟩ := memReadRun_eq_next.1 hread
  obtain ⟨x, hx⟩ : ∃ x, drainOnce s = .next x := ⟨_, by rw [drainOnce, ← hn, hread, andThen_next]⟩
  obtain ⟨bytes, hbytes, -, hnext, hcount⟩ := drainOnce_eq_next hx
  obtain rfl : (txPending s).take n = bytes := by simpa [← hn, hread] using hbytes
  rw [hlen] at hnext
  rw [hnext, txAdvance_pending] at hcount
  rw [hx, ← hcount, ← hnext]

/-- Settles O36: the shared `DRAIN`, its advance field by field, and the response. -/
theorem drainHandsOverInOrder : Obligations.DrainHandsOverInOrder := by
  intro s n hi hready hn
  rw [exec_drain_of_ready hready, hi.drainOnce_eq hn, andThen_next, txAdvance_eq]
  rfl

/-! ### `SINK.POP` (R184) -/

theorem exec_sinkPop_of_cons {s : State} {b : Byte} {rest : List Byte} (h : s.bnd.sinkQ = b :: rest) :
    exec .sinkPop s = .next { s with bnd := { s.bnd with sinkQ := rest, wireTx := s.bnd.wireTx ++ [b] } } := by
  simp [exec, execSinkPop, h]

/-- Settles O38: the branch of a queue that is not empty. -/
theorem sinkPopSendsTheFront : Obligations.SinkPopSendsTheFront := fun _ _ _ => exec_sinkPop_of_cons

end Sys2Proof.Machine
end

section
/-! PROOFS of the family 44_diag_boundary.md: `DIAG_APPEND` in its two cases (R192), what truncation leaves (R193), and `DIAG_ENQUEUE` as
the `ENQUEUE` of the pending message (R194). -/

namespace Sys2Proof.Machine

/-! ### `DIAG_APPEND` (R192) -/

section
variable {s : State} {t : List Byte} (hready : s.ctl.mainBusy = false)
include hready

theorem exec_diagAppend_of_ready : exec (.diagAppend t) s = .next { s with
    bnd := { s.bnd with
      diagBuf := appendText s.build.diagCap s.build.truncMarker s.bnd.diagBuf t
      results := s.bnd.results ++ [.diagAppend (decide (s.bnd.diagBuf.length + t.length ≤ s.build.diagCap))] } } :=
  (whenReady_of_ready hready : execDiagAppend t s = _)

theorem exec_diagAppend_of_fits (hfits : s.bnd.diagBuf.length + t.length ≤ s.build.diagCap) :
    exec (.diagAppend t) s = .next { s with
      bnd := { s.bnd with
        diagBuf := s.bnd.diagBuf ++ t
        results := s.bnd.results ++ [.diagAppend true] } } := by
  rw [exec_diagAppend_of_ready hready, appendText_of_fits hfits, decide_eq_true hfits]

theorem exec_diagAppend_of_overflow (hover : s.build.diagCap < s.bnd.diagBuf.length + t.length) :
    exec (.diagAppend t) s = .next { s with
      bnd := { s.bnd with
        diagBuf := (s.bnd.diagBuf ++ t).take (s.build.diagCap - s.build.truncMarker.length) ++ s.build.truncMarker
        results := s.bnd.results ++ [.diagAppend false] } } := by
  rw [exec_diagAppend_of_ready hready, appendText_of_overflow hover, decide_eq_false (Nat.not_le.2 hover)]

end

/-- Settles O41: by whether old and new text fit together. -/
theorem diagAppendStoresText : Obligations.DiagAppendStoresText :=
  fun _ _ hready => ⟨exec_diagAppend_of_fits hready, exec_diagAppend_of_overflow hready⟩

/-! ### Truncation (R193) -/

/-- R8: the marker is no longer than the text buffer. -/
theorem Inv.truncMarker_length_le {s : State} (hi : Inv s) : s.build.truncMarker.length ≤ s.build.diagCap := by
  have hwf := hi.build
  simp only [Build.wf, Bool.and_eq_true, decide_eq_true_eq] at hwf
  omega

section
variable {cap : Nat} {marker old t : List Byte}

/-- A truncated text fills its buffer. -/
theorem truncated_length (hmarker : marker.length ≤ cap) (hover : cap < old.length + t.length) :
    ((old ++ t).take (cap - marker.length) ++ marker).length = cap := by
  simp only [List.length_append, List.length_take]
  omega

/-- Truncation keeps a full buffer that ends in the marker: the bytes before the marker are the first `cap - |M|`. -/
theorem truncated_of_truncated (hfull : old.length = cap) (hends : marker <:+ old) :
    (old ++ t).take (cap - marker.length) ++ marker = old := by
  obtain ⟨kept, rfl⟩ := hends
  have hkept : cap - marker.length = kept.length := by
    rw [← hfull, List.length_append, Nat.add_sub_cancel]
  rw [hkept, List.append_assoc, List.take_left]

end

/-- Settles O42: a text that fits is not a non-empty one on a full buffer, and one that does not fit is not empty, as the invariant
bounds the buffer. -/
theorem truncationKeepsTheMarker : Obligations.TruncationKeepsTheMarker := by
  intro s t hi hready
  have hbound := hi.bnd.diag
  obtain hfits | hover := le_or_gt (s.bnd.diagBuf.length + t.length) s.build.diagCap
  case inl =>
    refine ⟨_, exec_diagAppend_of_fits hready hfits, ?truncated, ?stays, ?empty⟩
    case truncated => exact fun hover => absurd hfits (Nat.not_le.2 hover)
    case stays =>
      intro hfull _ hne
      have hpos := List.length_pos_iff.2 hne
      omega
    case empty =>
      rintro rfl
      exact ⟨List.append_nil _, rfl⟩
  case inr =>
    refine ⟨_, exec_diagAppend_of_overflow hready hover, ?truncated, ?stays, ?empty⟩
    case truncated => exact fun _ => ⟨truncated_length hi.truncMarker_length_le hover, rfl, rfl⟩
    case stays => exact fun hfull hends _ => ⟨truncated_of_truncated hfull hends, rfl⟩
    case empty =>
      rintro rfl
      exact absurd hbound (Nat.not_le.2 hover)

/-! ### `DIAG_ENQUEUE` (R194) -/

theorem exec_diagEnqueue_of_ready {s : State} (h : s.ctl.mainBusy = false) :
    exec .diagEnqueue s = andThen (diagEnqueueRecord s) fun p => .next (respond (.diagEnqueue p.2) p.1) :=
  (whenReady_of_ready h : execDiagEnqueue s = _)

/-- R173: with room above `tx_head` the payload is read back from `enc_scratch` and its frame is written. -/
theorem enqueueRecord_of_room {r : Record} {s : State} {p : List Byte} (henc : encodeRecord s.build r = .ok p)
    (hroom : p.length + 3 ≤ s.build.txCap - s.tx.head) : enqueueRecord r s =
      .next ({ s with tx := { s.tx with
        buf := memSetRun s.tx.buf s.tx.head (frameBytes s.build.startToken p)
        head := s.tx.head + (p.length + 3)
        encScratch := memSetRun s.tx.encScratch 0 p } }, .success) := by
  have hframe : s.tx.head + (frameBytes s.build.startToken p).length ≤ s.build.txCap := by
    rw [frameBytes_length]; omega
  rw [enqueueRecord_of_ok henc, enqueuePayload, if_neg (Nat.not_lt.2 hroom),
    memReadRun_scratch (encodeRecord_ok_length henc), andThen_next, memWriteRun_of_fits hframe, andThen_next]

/-- R170 to R173: an `ENQUEUE` whose `encode` the source describes answers, in every state. -/
theorem enqueueRecord_answers {r : Record} {s : State} (h : ∀ c, encodeRecord s.build r ≠ .other c) :
    ∃ x, enqueueRecord r s = .next x := by
  cases henc : encodeRecord s.build r with
  | didNotFit => exact ⟨_, enqueueRecord_of_didNotFit henc⟩
  | other c => exact absurd henc (h c)
  | ok p =>
    obtain hfull | hroom := Nat.lt_or_ge (s.build.txCap - s.tx.head) (p.length + 3)
    · exact ⟨_, enqueueRecord_of_full henc hfull⟩
    · exact ⟨_, enqueueRecord_of_room henc hroom⟩

/-- `ENQUEUE` leaves the boundary as it is; its response comes after. -/
theorem enqueueRecord_bnd {r : Record} {s : State} {x : State × EnqueueCode} (h : enqueueRecord r s = .next x) :
    x.1.bnd = s.bnd := by
  obtain ⟨-, rfl⟩ | ⟨p, -, ⟨-, rfl⟩ | ⟨-, rfl⟩⟩ := enqueueRecord_cases h
  · rfl
  · rfl
  · rfl

/-- Settles O43: both commands run the one shared `ENQUEUE`, which answers and leaves the boundary as it is. -/
theorem diagEnqueueIsEnqueue : Obligations.DiagEnqueueIsEnqueue := by
  intro s hready hdescribed
  obtain ⟨⟨u, c⟩, hu⟩ := enqueueRecord_answers hdescribed
  have hbnd : u.bnd = s.bnd := enqueueRecord_bnd hu
  have hdiag : diagEnqueueRecord s = .next (diagClear u, c) := diagEnqueueRecord_eq_next.2 ⟨u, c, hu, rfl⟩
  refine ⟨respond (.enqueue c) u, c, ?enqueue, ?response, ?diagEnqueue⟩
  case enqueue => rw [exec_enqueue_of_ready hready, hu, andThen_next]
  case response => rw [← hbnd]; rfl
  case diagEnqueue =>
    rw [exec_diagEnqueue_of_ready hready, hdiag, andThen_next, ← hbnd]
    rfl

end Sys2Proof.Machine
end

section
/-! PROOFS of the family 60_exceptions.md: the tick (R214), and the tick-started `FEED` beside a command (R218). -/

namespace Sys2Proof.Machine

/-! ### The tick (R214) -/

theorem exec_tick_of_interrupt {s : State} (h : s.build.feedMode = .interrupt) :
    exec .tick s = .next { s with ctl := { s.ctl with feedPending := true } } := if_pos h

theorem exec_tick_of_poll {s : State} (h : s.build.feedMode = .poll) : exec .tick s = .next s := if_neg (by simp [h])

/-- Settles O18: one case for each drive mode. -/
theorem tickIsLatched : Obligations.TickIsLatched := fun _ => ⟨exec_tick_of_interrupt, exec_tick_of_poll⟩

/-! ### A `FEED` and the control bits

A `FEED` writes HRQ, the receive side and the trace, and reads none of the control bits but `feed_active`: so its
lines do the same for a tick (R121 (a)) and for a command (R121 (c)). -/

/-- `s`, with all that a `FEED` writes besides `feed_active` as it is in `u`, and with the control state `c`. -/
def fedAs (u : State) (c : Ctl) (s : State) : State := { s with hrq := u.hrq, rx := u.rx, bnd := u.bnd, ctl := c }

theorem fedAs_feedStart (u : State) (c : Ctl) (s : State) : fedAs u c (feedStart s) = fedAs u c s := by
  simp [fedAs]

theorem feedStart_with_ctl (c : Ctl) (s : State) :
    feedStart { s with ctl := c } = { feedStart s with ctl := { c with feedActive := true } } := by
  simp only [feedStart]; split <;> rfl

theorem feedMakeRoom_with_ctl (c : Ctl) (s : State) :
    feedMakeRoom { s with ctl := c } = { s with rx := (feedMakeRoom s).rx, bnd := (feedMakeRoom s).bnd, ctl := c } := by
  by_cases hfull : s.rx.head = s.build.rxCap
  · rw [feedMakeRoom_of_full hfull, feedMakeRoom_of_full (s := { s with ctl := c }) hfull]; rfl
  · rw [feedMakeRoom_of_room hfull, feedMakeRoom_of_room (s := { s with ctl := c }) hfull]

/-- R125: after the overflow test there is room for a byte. -/
theorem feedMakeRoom_head_lt {s : State} (hcap : 0 < s.build.rxCap) (hhead : s.rx.head ≤ s.build.rxCap) :
    (feedMakeRoom s).rx.head < s.build.rxCap := by
  by_cases hfull : s.rx.head = s.build.rxCap
  · rw [feedMakeRoom_of_full hfull]; exact hcap
  · rw [feedMakeRoom_of_room hfull]; omega

namespace HrqMatches

variable {aw : Nat} {h : Hrq} {c : HrqCounts} (hm : HrqMatches aw h c)
include hm

/-- R106, R107: a byte that the read side counts is one it sees: on an empty queue the two gray codes decode to one count. -/
theorem hrqEmpty_of_hrqAvail_ne_zero (h0 : hrqAvail aw h ≠ 0) : hrqEmpty h = false := by
  refine hrqEmpty_eq_false.2 fun heq => h0 ?_
  rw [hrqAvail, ← heq, hm.rgray, hm.rbin, grayBin_gray (Nat.mod_lt _ (Nat.two_pow_pos _)), wrapSub_mod_mod le_rfl]
  · exact Nat.sub_self _
  · simp

/-- R108, R110: where the read side sees the queue nonempty, the oldest cell has been written, and a pop answers it. -/
theorem popEdge_answers (he : hrqEmpty h = false) :
    ∃ b h', popEdge aw h = .next (b, h') ∧ HrqMatches aw h' { c with r := c.r + 1, w2 := c.w1, w1 := c.w } := by
  have hlt : 0 < c.w - c.r := by have := hm.r_lt_w2 he; have := hm.w2_le; have := hm.w1_le; omega
  have hcell := hm.written 0 hlt
  rw [Nat.add_zero, ← Nat.mod_mod_of_dvd c.r (Nat.pow_dvd_pow 2 (Nat.le_succ aw)), ← hm.rbin] at hcell
  obtain ⟨b, hb⟩ := Option.isSome_iff_exists.1 hcell
  exact ⟨b, _, popEdge_eq_next.2 ⟨he, hb, rfl⟩, hm.pop he⟩

end HrqMatches

/-- R124: a line that sees a byte takes one from the queue, whatever the control bits. -/
theorem feedLine_takes_byte {s : State} {k : HrqCounts} (hm : HrqMatches s.build.hrqAw s.hrq k)
    (hcap : 0 < s.build.rxCap) (hhead : s.rx.head ≤ s.build.rxCap) (h0 : hrqAvail s.build.hrqAw s.hrq ≠ 0) :
    ∃ u, u = fedAs u s.ctl s ∧ HrqMatches s.build.hrqAw u.hrq { k with r := k.r + 1, w2 := k.w1, w1 := k.w } ∧
      k.r < k.w ∧ u.rx.head ≤ s.build.rxCap ∧ ∀ c, feedLine { s with ctl := c } = .next { u with ctl := c } := by
  have he := hm.hrqEmpty_of_hrqAvail_ne_zero h0
  obtain ⟨b, h, hpop, hm'⟩ := hm.popEdge_answers he
  have hroom := feedMakeRoom_head_lt hcap hhead
  refine ⟨fedAs { arrive [b] (feedMakeRoom s) with hrq := h } s.ctl s, rfl, hm',
    (hm.r_lt_w2 he).trans_le (hm.w2_le.trans hm.w1_le), hroom, fun c => ?_⟩
  have hline : feedLine { s with ctl := c } = feedMove (feedMakeRoom { s with ctl := c }) := if_neg h0
  rw [hline, feedMakeRoom_with_ctl]
  exact feedMove_eq_next.2 ⟨b, h, hpop, hroom, rfl⟩

/-- R120, R126: the lines of a `FEED` come to its end, in a state that does not depend on the control bits. -/
theorem feedLines_end {s : State} {k : HrqCounts} (hm : HrqMatches s.build.hrqAw s.hrq k) (hcap : 0 < s.build.rxCap)
    (hhead : s.rx.head ≤ s.build.rxCap) :
    ∃ u, hrqAvail s.build.hrqAw u.hrq = 0 ∧ ∀ c n, c.feedActive = true → k.w - k.r < n →
      feedLines n { s with ctl := c } = .next (fedAs u { c with feedActive := false } s) := by
  by_cases h0 : hrqAvail s.build.hrqAw s.hrq = 0
  · refine ⟨s, h0, fun c n hactive hn => ?_⟩
    obtain ⟨n, rfl⟩ := Nat.exists_eq_add_one_of_ne_zero (Nat.ne_zero_of_lt hn)
    have hline : feedLine { s with ctl := c } = .next (fedAs s { c with feedActive := false } s) := if_pos h0
    rw [feedLines, if_pos hactive, hline, andThen_next, feedLines_idle rfl]
  · obtain ⟨v, hv, hm', hlt, hhead', hline⟩ := feedLine_takes_byte hm hcap hhead h0
    have hbuild : v.build = s.build := (congrArg State.build hv :)
    rw [← hbuild] at hm' hcap hhead'
    obtain ⟨u, hend, hlines⟩ := feedLines_end hm' hcap hhead'
    refine ⟨u, hbuild ▸ hend, fun c n hactive hn => ?_⟩
    obtain ⟨n, rfl⟩ := Nat.exists_eq_add_one_of_ne_zero (Nat.ne_zero_of_lt hn)
    rw [feedLines, if_pos hactive, hline, andThen_next, hlines c n hactive (by dsimp only; omega)]
    exact (congrArg (fun x => Host.Outcome.next (fedAs u { c with feedActive := false } x)) hv :)
termination_by k.w - k.r
decreasing_by omega

/-- A line of a `FEED` writes no control bit but `feed_active`, and that only to clear it. -/
theorem feedLine_ctl {s t : State} (h : feedLine s = .next t) :
    t.ctl = { s.ctl with feedActive := t.ctl.feedActive } ∧ (t.ctl.feedActive = true → s.ctl.feedActive = true) := by
  obtain ⟨-, rfl⟩ | ⟨-, hmove⟩ := feedLine_cases h
  · exact ⟨rfl, fun ha => absurd ha (by simp)⟩
  · obtain ⟨_, _, -, -, rfl⟩ := feedMove_eq_next.1 hmove
    rw [feedMakeRoom_ctl]
    exact ⟨rfl, id⟩

theorem mainLines_of_busy {n : Nat} {s : State} (h : s.ctl.mainBusy = true) :
    mainLines (n + 1) s = andThen (mainLine s) (mainLines n) := if_pos h

/-- A `FEED` command whose `FEED` has started does what the lines of that `FEED` do, and completes with its end (R120). -/
theorem mainLines_feedRun {n : Nat} {s : State} (hm : s.ctl.main = .feedRun) (hb : s.ctl.mainBusy = true)
    (ha : s.ctl.feedActive = true) :
    mainLines n s = andThen (feedLines n s) fun t => .next (if t.ctl.feedActive then t else commandDone t) := by
  induction n generalizing s with
  | zero => simp [mainLines, feedLines, ha]
  | succ n ih =>
    rw [mainLines_of_busy hb, mainLine_feedRun hm, feedLines, if_pos ha, andThen_assoc, andThen_assoc]
    cases hl : feedLine s with
    | fault f => rfl
    | refused r => rfl
    | next u =>
      obtain ⟨hctl, -⟩ := feedLine_ctl hl
      simp only [andThen_next]
      by_cases hu : u.ctl.feedActive = true
      · rw [if_pos hu]
        exact ih (by rw [hctl]; exact hm) (by rw [hctl]; exact hb) hu
      · rw [if_neg hu, mainLines_ready (commandDone_ctl_mainBusy u), feedLines_idle (by simpa using hu), andThen_next,
          if_neg hu]

/-! ### The tick-started `FEED` beside a command (R218) -/

theorem feedTickEnabled_iff {s : State} :
    feedTickEnabled s = true ↔ s.build.feedMode = .interrupt ∧ s.ctl.feedPending = true ∧ s.ctl.feedIe = true ∧
      s.ctl.rxLock = false ∧ s.ctl.feedActive = false := by
  simp [feedTickEnabled, and_assoc]

/-- Lines that are enough for any `FEED` (R126): it takes no more bytes than the queue is deep. -/
theorem HrqMatches.lt_feedFuel {b : Build} {h : Hrq} {k : HrqCounts} (hm : HrqMatches b.hrqAw h k) :
    k.w - k.r < feedFuel b := by
  have := hm.w_le; have := hm.r2_le_r
  rw [feedFuel, Nat.pow_succ]
  omega

/-- A `FEED` that starts in `s` and runs to its end takes HRQ, the receive side and the trace to what they are in `u`,
whatever the control state in which it starts. -/
structure FeedEndsIn (s u : State) : Prop where
  empty : hrqAvail s.build.hrqAw u.hrq = 0
  reaches : ∀ c n, feedFuel s.build ≤ n →
    feedLines n (feedStart { s with ctl := c }) = .next (fedAs u { c with feedActive := false } s)

theorem Inv.exists_feedEndsIn {s : State} (hi : Inv s) : ∃ u, FeedEndsIn s u := by
  obtain ⟨k, hm⟩ := hi.hrq
  have hcap : 0 < s.build.rxCap := Nat.zero_lt_of_lt hi.hrqContents_length_lt
  obtain ⟨u, hempty, hlines⟩ := feedLines_end (s := feedStart s) (k := k) (by simpa using hm) (by simpa using hcap)
    (by simpa using hi.rx.head_le)
  refine ⟨u, by simpa using hempty, fun c n hn => ?_⟩
  rw [feedStart_with_ctl, hlines _ n rfl (hm.lt_feedFuel.trans_le hn), fedAs_feedStart]

theorem exec_feedTick_eq {s : State} (h : feedTickEnabled s = true) :
    exec .feedTick s = feedLines (lines s (feedFuel s.build)) (feedTickStart s) := if_pos h

/-- A `FEED` command to a machine in which nothing stands in its way: accepted and started in its first line. -/
theorem execFeed_of_unlocked {s : State} (hq : Quiet s) (hlock : s.ctl.rxLock = false) :
    execFeed s = mainLines (feedFuel s.build + s.build.rxCap + s.rx.head + 7) (feedBegun s) := by
  obtain ⟨hready, hno, hslice⟩ := hq
  have hfirst : mainLine (acceptCommand .feedWait s) = .next (feedBegun s) := by simp [mainLine, feedBegun, hno, hlock]
  rw [execFeed, whenReady_of_ready hready, runCommand, lines, hslice, Option.getD_none, mainFuel,
    mainLines_of_busy (acceptCommand_ctl_mainBusy _ _), hfirst, andThen_next]

theorem feedBegun_eq (s : State) : feedBegun s = feedStart (acceptCommand .feedRun s) :=
  (congrArg (setMain .feedRun) (feedStart_with_ctl (acceptCommand .feedWait s).ctl s)).trans
    (feedStart_with_ctl (acceptCommand .feedRun s).ctl s).symm

namespace FeedEndsIn

variable {s u : State} (hf : FeedEndsIn s u) (hslice : s.slice = none)
include hf hslice

/-- R218: a tick-started `FEED` clears `feed_pending`. -/
theorem exec_feedTick_of_enabled (henabled : feedTickEnabled s = true) :
    exec .feedTick s = .next (fedAs u { s.ctl with feedPending := false, feedActive := false } s) := by
  rw [exec_feedTick_eq henabled, lines, hslice, Option.getD_none]
  exact hf.reaches { s.ctl with feedPending := false } _ le_rfl

/-- R121 (c): a `FEED` command. -/
theorem exec_feed_of_ready (hready : s.ctl.mainBusy = false) (hno : s.ctl.feedActive = false)
    (hlock : s.ctl.rxLock = false) :
    exec .feed s = .next (fedAs u { s.ctl with feedActive := false, mainBusy := false, main := .idle } s) := by
  have hlines := hf.reaches { s.ctl with mainBusy := true, main := .feedRun }
    (feedFuel s.build + s.build.rxCap + s.rx.head + 7) (by omega)
  rw [exec_feed, execFeed_of_unlocked ⟨hready, hno, hslice⟩ hlock,
    mainLines_feedRun (feedBegun_ctl_main s) (by simp [feedBegun]) (by simp [feedBegun]), feedBegun_eq]
  exact congrArg (andThen · fun t => .next (if t.ctl.feedActive then t else commandDone t)) hlines

end FeedEndsIn

/-- Settles O16: the one `FEED`, started by the tick and started by a command. -/
theorem feedTickRunsAFeed : Obligations.FeedTickRunsAFeed := by
  intro s hi hslice henabled
  obtain ⟨-, -, -, hlock, hno⟩ := feedTickEnabled_iff.1 henabled
  obtain ⟨u, hf⟩ := hi.exists_feedEndsIn
  let ready : State := { s with ctl := { s.ctl with mainBusy := false, main := .idle } }
  have hready : FeedEndsIn ready u := ⟨hf.empty, hf.reaches⟩
  refine ⟨_, _, hf.exec_feedTick_of_enabled hslice henabled, hready.exec_feed_of_ready hslice rfl hno hlock, hf.empty, ?_⟩
  rw [← hno]
  rfl

end Sys2Proof.Machine
end

section
/-! PROOFS of the family 60_exceptions.md, continued: feeder and state machine exclude each other (R216). The exclusion is
carried by four clauses of `CtlInv`, which speak of the control bits and the drive mode alone. Every operation leaves the
control state as it is, or makes one of a few moves, each of which keeps those clauses. -/

namespace Sys2Proof.Machine

/-! ### The clauses that carry the exclusion (R216) -/

/-- R39, R216: what of the control state carries the exclusion. -/
structure Excludes (mode : FeedMode) (c : Ctl) : Prop where
  busy : c.mainBusy = (c.main != .idle)
  lock : c.rxLock = pollHoldsLock c.main
  innerFeed : c.main = .pollFeed → mode = .poll
  scanning : c.main = .pollTest ∨ c.main = .pollScan → c.feedActive = false

theorem CtlInv.excludes {s : State} (h : CtlInv s) : Excludes s.build.feedMode s.ctl :=
  ⟨h.busy, h.lock, h.innerFeed, h.scanning⟩

namespace Excludes

variable {mode : FeedMode} {c : Ctl}

/-- The lock beside a `FEED` leaves the inner `FEED` of `POLL_RECEIVE` as the one line at which the command can stand. -/
theorem innerFeed_of_both (h : Excludes mode c) (hlock : c.rxLock = true) (hactive : c.feedActive = true) :
    mode = .poll ∧ c.main = .pollFeed := by
  have hholds := h.lock.symm.trans hlock
  have hscan : ¬(c.main = .pollTest ∨ c.main = .pollScan) := fun hs => absurd (h.scanning hs) (by simp [hactive])
  have hmain : c.main = .pollFeed := by simp only [pollHoldsLock, Bool.or_eq_true, beq_iff_eq] at hholds; tauto
  exact ⟨h.innerFeed hmain, hmain⟩

/-- Outside the locked lines of `POLL_RECEIVE` the lock alone decides. -/
theorem of_unlocked (hbusy : c.mainBusy = (c.main != .idle)) (hlock : c.rxLock = false)
    (hmain : pollHoldsLock c.main = false) : Excludes mode c where
  busy := hbusy
  lock := hlock.trans hmain.symm
  innerFeed h := absurd hmain (by simp [h, pollHoldsLock])
  scanning h := absurd hmain (by obtain h | h := h <;> simp [h, pollHoldsLock])

/-- A `FEED` may go on or end. -/
theorem with_feedActive (h : Excludes mode c) {a : Bool} (ha : a = true → c.feedActive = true) :
    Excludes mode { c with feedActive := a } where
  busy := h.busy
  lock := h.lock
  innerFeed := h.innerFeed
  scanning hs := by have := h.scanning hs; simpa [this] using ha

theorem unlocked_of_ready (h : Excludes mode c) (hready : c.mainBusy = false) : c.rxLock = false := by
  have hidle : c.main = .idle := by simpa [hready] using h.busy
  rw [h.lock, hidle]; rfl

/-- At the locked lines after the feeding no `FEED` runs. -/
theorem of_locked (hbusy : c.mainBusy = true) (hlock : c.rxLock = true) (hmain : c.main = .pollTest ∨ c.main = .pollScan)
    (hno : c.feedActive = false) : Excludes mode c where
  busy := by obtain h | h := hmain <;> simp [hbusy, h]
  lock := by obtain h | h := hmain <;> simp [hlock, h, pollHoldsLock]
  innerFeed h := absurd hmain (by simp [h])
  scanning _ := hno

end Excludes

/-- The exclusion's clauses in a state of the machine. -/
def Excluded (s : State) : Prop := Excludes s.build.feedMode s.ctl

/-- What writes neither the parameters nor the control state keeps the exclusion. -/
theorem Excluded.of_ctl_eq {s t : State} (hs : Excluded s) (hbuild : t.build = s.build) (hctl : t.ctl = s.ctl) :
    Excluded t := by
  rw [Excluded, hbuild, hctl]; exact hs

/-! ### The lines of the operations keep the exclusion -/

theorem feedLine_build {s t : State} (h : feedLine s = .next t) : t.build = s.build := by
  obtain ⟨-, rfl⟩ | ⟨-, hmove⟩ := feedLine_cases h
  · rfl
  · obtain ⟨_, _, -, -, rfl⟩ := feedMove_eq_next.1 hmove
    exact feedMakeRoom_build s

theorem excluded_pollReturn (c : ReceiveCode) (s : State) : Excluded (pollReturn c s) := .of_unlocked rfl rfl rfl

theorem excluded_commandDone {s : State} (hlock : s.ctl.rxLock = false) : Excluded (commandDone s) :=
  .of_unlocked rfl hlock rfl

theorem excluded_rxDeliver (payload : List Byte) (s : State) : Excluded (rxDeliver payload s) := by
  rw [rxDeliver_eq]; exact .of_unlocked rfl rfl rfl

theorem excluded_of_rxBody {s t : State} (h : rxBody s = .next t) : Excluded t := by
  obtain ⟨-, rfl⟩ | ⟨-, _, -, rfl⟩ := rxBody_cases h
  · exact excluded_pollReturn _ _
  · exact excluded_rxDeliver _ _

namespace Excluded

variable {s t : State} (hs : Excluded s)
include hs

theorem after_feedLine (h : feedLine s = .next t) : Excluded t := by
  obtain ⟨hctl, hactive⟩ := feedLine_ctl h
  rw [Excluded, feedLine_build h, hctl]
  exact hs.with_feedActive hactive

theorem after_rxToken : Excluded (rxToken s) := hs.of_ctl_eq (rxToken_build s) (rxToken_ctl s)

theorem after_rxLenL (b : Byte) : Excluded (rxLenL b s) := by
  obtain hover | hfits := Nat.lt_or_ge s.build.rxCap (setLengthLow s.rx.messageLength b).toNat
  · rw [rxLenL_of_oversized hover]; exact excluded_pollReturn _ _
  · rw [rxLenL_of_fits hfits]; exact hs

theorem after_scanLine (h : scanLine s = .next t) : Excluded t := by
  obtain ⟨-, rfl⟩ | ⟨-, b, -, hb⟩ := scanLine_cases h
  · exact excluded_pollReturn _ _
  · obtain ⟨-, rfl⟩ | ⟨-, -, rfl⟩ | ⟨-, -, rfl⟩ | ⟨-, -, rfl⟩ | ⟨-, -, hbody⟩ := rxIterate_cases hb
    · exact hs.after_rxToken
    · exact hs
    · exact hs
    · exact hs.after_rxLenL b
    · exact excluded_of_rxBody hbody

theorem after_drainOnce {x : State × Nat} (h : drainOnce s = .next x) : Excluded x.1 := by
  obtain ⟨bytes, -, -, hx, -⟩ := drainOnce_eq_next h
  rw [hx]
  exact hs.of_ctl_eq (txAdvance_build _ _) (txAdvance_ctl _ _)

theorem after_enqueueRecord {r : Record} {x : State × EnqueueCode} (h : enqueueRecord r s = .next x) : Excluded x.1 := by
  obtain ⟨-, rfl⟩ | ⟨p, -, ⟨-, rfl⟩ | ⟨-, rfl⟩⟩ := enqueueRecord_cases h
  · exact hs
  · exact hs
  · exact hs

/-- One line of the command in progress, at each of its lines. -/
theorem after_mainLine (h : mainLine s = .next t) : Excluded t := by
  have hbusy (hm : s.ctl.main ≠ .idle) : s.ctl.mainBusy = true := hs.busy.trans (by simpa using hm)
  have hlock (hm : pollHoldsLock s.ctl.main = false) : s.ctl.rxLock = false := hs.lock.trans hm
  obtain ⟨-, rfl⟩ | ⟨-, -, rfl⟩ | ⟨hm, -, hunlocked, rfl⟩ | ⟨hm, u, hu, rfl⟩ | ⟨-, -, rfl⟩ |
    ⟨hm, hno, hpoll, rfl⟩ | ⟨hm, hno, -, rfl⟩ | ⟨hm, u, hu, rfl⟩ | ⟨-, -, rfl⟩ | ⟨hm, -, rfl⟩ | ⟨-, hscan⟩ |
    ⟨_, -, -, x, hx, rfl⟩ | ⟨_, hm, -, rfl⟩ | ⟨hm, rfl⟩ | ⟨rest, hm, -, rfl⟩ := mainLine_cases h
  · exact hs -- no command
  · exact hs -- a `FEED` command that waits
  · exact .of_unlocked (by simp [hbusy, hm]) (by simpa using hunlocked) rfl -- a `FEED` command that starts
  · split -- a `FEED` command's `FEED`, which goes on or ends
    · exact hs.after_feedLine hu
    · refine excluded_commandDone ?_
      rw [(feedLine_ctl hu).1]
      exact hlock (by rw [hm]; rfl)
  · exact hs -- a `POLL_RECEIVE` that waits
  · exact -- a `POLL_RECEIVE` that starts its inner `FEED`: the exception of R216
      { busy := by simp [hbusy, hm], lock := by simp [pollHoldsLock]
        innerFeed := fun _ => by simpa using hpoll, scanning := by simp }
  · exact .of_locked (by simp [hbusy, hm]) rfl (.inl rfl) hno -- a `POLL_RECEIVE` that starts without one
  · have hfed := hs.after_feedLine hu -- the inner `FEED`, which goes on or ends
    split
    · exact hfed
    · next hend =>
      obtain ⟨hctl, -⟩ := feedLine_ctl hu
      refine .of_locked ?busy ?lock (.inl rfl) (by simpa using hend)
      case busy => rw [setMain_ctl_mainBusy, hctl]; exact hbusy (by simp [hm])
      case lock => rw [setMain_ctl_rxLock, hctl]; exact hs.lock.trans (by rw [hm]; rfl)
  · exact excluded_pollReturn _ _ -- the no-data test returns
  · exact .of_locked (hbusy (by simp [hm])) (hs.lock.trans (by rw [hm]; rfl)) (.inr rfl) (hs.scanning (.inl hm))
  · exact hs.after_scanLine hscan
  · exact hs.after_drainOnce hx
  · exact .of_unlocked (by simp [hbusy, hm]) (hlock (by rw [hm]; rfl)) rfl -- `EMIT_NOW` goes to phase 2
  · exact excluded_commandDone (hlock (by rw [hm]; rfl))
  · rw [emitWrite_eq] -- `EMIT_NOW` writes
    exact .of_unlocked (by simp [hbusy, hm]) (hlock (by rw [hm]; rfl)) rfl

theorem after_mainLines {n : Nat} (h : mainLines n s = .next t) : Excluded t :=
  mainLines_induct (P := Excluded) (fun _ _ hu _ hl => hu.after_mainLine hl) n s t hs h

theorem after_feedLines {n : Nat} (h : feedLines n s = .next t) : Excluded t :=
  feedLines_induct (P := Excluded) (fun _ _ hu _ hl => hu.after_feedLine hl) n s t hs h

/-! ### The operations keep the exclusion -/

theorem after_whenReady {act : State → Out State} (hact : s.ctl.mainBusy = false → act s = .next t → Excluded t)
    (h : whenReady act s = .next t) : Excluded t := by
  cases hb : s.ctl.mainBusy
  · rw [whenReady_of_ready hb] at h; exact hact hb h
  · rw [whenReady_of_busy hb] at h; exact Host.Outcome.next.inj h ▸ hs

theorem after_onIteration {i : Instr} {act : State → Out State} (hact : act s = .next t → Excluded t)
    (h : onIteration i act s = .next t) : Excluded t := by
  cases hen : rxbEnabled i s
  · rw [onIteration_of_disabled hen] at h; exact Host.Outcome.next.inj h ▸ hs
  · rw [onIteration_of_enabled hen] at h; exact hact h

theorem after_onPop (h : onPop s = .next t) : Excluded t := by
  cases he : hrqEmpty s.hrq
  · cases hp : popIsNext s
    · rw [onPop_of_other he hp] at h; exact Host.Outcome.next.inj h ▸ hs
    · rw [onPop_of_next he hp] at h
      obtain ⟨_, -, h⟩ := andThen_eq_next.1 h
      obtain ⟨u, hu, h⟩ := andThen_eq_next.1 h
      obtain rfl := Host.Outcome.next.inj h
      exact (hs.after_feedLine hu).of_ctl_eq rfl rfl
  · rw [onPop_of_empty he] at h; cases h

theorem after_onWrite {bytes : List Byte} (h : onWrite bytes s = .next t) : Excluded t := by
  by_cases hw : nextWrite s = some bytes
  · rw [onWrite_of_next hw] at h
    obtain ⟨u, hu, h⟩ := andThen_eq_next.1 h
    obtain rfl := Host.Outcome.next.inj h
    exact (hs.after_mainLine hu).of_ctl_eq rfl rfl
  · rw [onWrite_of_other hw] at h; exact Host.Outcome.next.inj h ▸ hs

theorem after_wirePushAll (bs : List Byte) : Excluded (wirePushAll bs s) := by
  induction bs generalizing s with
  | nil => exact hs
  | cons b bs ih => exact ih (s := wirePush b s) hs

theorem after_acceptCommand (hready : s.ctl.mainBusy = false) {m : MainPhase} (hm : m ≠ .idle)
    (hfree : pollHoldsLock m = false) : Excluded (acceptCommand m s) :=
  .of_unlocked (by simpa using hm) (hs.unlocked_of_ready hready) hfree

theorem after_runCommand (hready : s.ctl.mainBusy = false) {m : MainPhase} (hm : m ≠ .idle)
    (hfree : pollHoldsLock m = false) (h : runCommand m s = .next t) : Excluded t :=
  (hs.after_acceptCommand hready hm hfree).after_mainLines h

theorem after_feedTick (h : execFeedTick s = .next t) : Excluded t := by
  rw [execFeedTick] at h
  split at h
  · next hen =>
    obtain ⟨-, -, -, hlock, -⟩ := feedTickEnabled_iff.1 hen
    have hmain : pollHoldsLock s.ctl.main = false := hs.lock.symm.trans hlock
    have hstart : Excluded (feedTickStart s) :=
      .of_unlocked (by simpa using hs.busy) (by simpa using hlock) (by simpa using hmain)
    exact hstart.after_feedLines h
  · exact Host.Outcome.next.inj h ▸ hs

theorem after_emitPrepare {x : List Byte} (hready : s.ctl.mainBusy = false) (h : emitPrepare x s = .next t) :
    Excluded t := by
  obtain ⟨p, -, rfl⟩ := emitPrepare_eq_next h
  exact .of_unlocked rfl (hs.unlocked_of_ready hready) rfl

theorem after_emitNow {x : List Byte} (h : execEmitNow x s = .next t) : Excluded t := by
  refine hs.after_whenReady (fun hready h => ?_) h
  obtain ⟨u, hu, h⟩ := andThen_eq_next.1 h
  exact (hs.after_emitPrepare hready hu).after_mainLines h

/-- A command that is done at once and answers a response. -/
theorem after_command {α : Type} {op : State → Out (State × α)} {r : α → Response}
    (hop : ∀ x, op s = .next x → Excluded x.1)
    (h : whenReady (fun s => andThen (op s) fun p => .next (respond (r p.2) p.1)) s = .next t) : Excluded t := by
  refine hs.after_whenReady (fun _ h => ?_) h
  obtain ⟨x, hx, h⟩ := andThen_eq_next.1 h
  obtain rfl := Host.Outcome.next.inj h
  exact hop x hx

theorem after_diagEnqueueRecord {x : State × EnqueueCode} (h : diagEnqueueRecord s = .next x) : Excluded x.1 := by
  obtain ⟨u, c, hu, rfl⟩ := diagEnqueueRecord_eq_next.1 h
  exact (hs.after_enqueueRecord hu).of_ctl_eq rfl rfl

theorem after_tick (h : execTick s = .next t) : Excluded t := by
  cases hmode : s.build.feedMode
  case interrupt =>
    obtain rfl := Host.Outcome.next.inj ((exec_tick_of_interrupt hmode).symm.trans h)
    exact ⟨hs.busy, hs.lock, hs.innerFeed, hs.scanning⟩
  case poll =>
    obtain rfl := Host.Outcome.next.inj ((exec_tick_of_poll hmode).symm.trans h)
    exact hs

theorem after_sinkPop (h : execSinkPop s = .next t) : Excluded t := by
  rw [execSinkPop] at h
  split at h
  · exact Host.Outcome.next.inj h ▸ hs
  · exact Host.Outcome.next.inj h ▸ hs

/-- Every operation keeps the exclusion; `RESET` establishes it. -/
theorem after_exec {i : Instr} (h : exec i s = .next t) : Excluded t := by
  cases i with
  | nop | hrqPush _ | hrqWsync | hrqRsync | hrqAvail | sinkSpace => exact Host.Outcome.next.inj h ▸ hs
  | feed | pollReceive => exact hs.after_whenReady (fun hr => hs.after_runCommand hr (by simp) rfl) h
  | enqueue r => exact hs.after_command (op := enqueueRecord r) (r := .enqueue) (fun _ => hs.after_enqueueRecord) h
  | drain => exact hs.after_command (op := drainOnce) (r := .drain) (fun _ => hs.after_drainOnce) h
  | diagAppend x =>
    exact hs.after_command (op := fun s => .next (diagAppendText x s)) (r := .diagAppend)
      (fun _ h => Host.Outcome.next.inj h ▸ hs) h
  | diagEnqueue =>
    exact hs.after_command (op := diagEnqueueRecord) (r := .diagEnqueue) (fun _ => hs.after_diagEnqueueRecord) h
  | emitNow x => exact hs.after_emitNow h
  | rxbToken =>
    exact hs.after_onIteration (act := fun s => .next (rxToken s)) (fun h => Host.Outcome.next.inj h ▸ hs.after_rxToken) h
  | rxbSkip b =>
    exact hs.after_onIteration (act := fun s => .next (rxSkip s)) (fun h => Host.Outcome.next.inj h ▸ hs) h
  | rxbLenH b =>
    exact hs.after_onIteration (act := fun s => .next (rxLenH b s)) (fun h => Host.Outcome.next.inj h ▸ hs) h
  | rxbLenL b =>
    exact hs.after_onIteration (act := fun s => .next (rxLenL b s)) (fun h => Host.Outcome.next.inj h ▸ hs.after_rxLenL b) h
  | rxbBody b => exact hs.after_onIteration excluded_of_rxBody h
  | hrqPop => exact hs.after_onPop h
  | tick => exact hs.after_tick h
  | feedTick => exact hs.after_feedTick h
  | sinkWrite bytes => exact hs.after_onWrite h
  | sinkPop => exact hs.after_sinkPop h
  | reset => exact Host.Outcome.next.inj h ▸ .of_unlocked rfl rfl rfl
  | frame payload => exact Host.Outcome.next.inj h ▸ hs.after_wirePushAll _

theorem after_runFeed (h : runFeed s = .next t) : Excluded t := by
  rw [runFeed] at h
  split at h
  · exact Host.Outcome.next.inj h ▸ hs
  · exact hs.after_feedLines h

theorem after_step (h : step s = .next t) : Excluded t := by
  obtain ⟨-, ⟨-, rfl⟩ | ⟨_, slice, rest, i, -, -, h⟩ | ⟨slice, rest, -, h⟩ | ⟨slice, rest, -, h⟩⟩ := step_cases h
  · exact hs
  · exact after_exec (s := takeTurn rest slice s) hs h
  · exact after_mainLines (s := takeTurn rest slice s) hs h
  · exact after_runFeed (s := takeTurn rest slice s) hs h

end Excluded

/-- Settles O50: the exclusion holds in every state that meets the invariant, and the step keeps it. -/
theorem feederAndFramingExclude : Obligations.FeederAndFramingExclude := by
  intro s t hi h
  have ht : Excluded t := Excluded.after_step hi.ctl.excludes h
  exact ht.innerFeed_of_both

end Sys2Proof.Machine
end

section
/-! PROOFS over all operations, the groundwork: everything that a turn of the schedule can do, as a chain of small changes. The changes
of the receive side are `RxLine` and `RxEvent`, those of the transmit side `TxChange`; each writes its next state out and
says where the machine stands when it happens. What every change keeps, every operation and every resumed line keeps. -/

namespace Sys2Proof.Machine

open Relation (ReflTransGen)

/-! ### The lines of a `FEED` -/

/-- R124, R125: the state after the line of a `FEED` that popped the byte `b` and left HRQ as `h`. -/
def feedMoved (b : Byte) (h : Hrq) (s : State) : State := { arrive [b] (feedMakeRoom s) with hrq := h }

@[simp] theorem feedMoved_build (b : Byte) (h : Hrq) (s : State) : (feedMoved b h s).build = s.build := feedMakeRoom_build s
@[simp] theorem feedMoved_hrq (b : Byte) (h : Hrq) (s : State) : (feedMoved b h s).hrq = h := rfl
@[simp] theorem feedMoved_tx (b : Byte) (h : Hrq) (s : State) : (feedMoved b h s).tx = s.tx := feedMakeRoom_tx s
@[simp] theorem feedMoved_ctl (b : Byte) (h : Hrq) (s : State) : (feedMoved b h s).ctl = s.ctl := feedMakeRoom_ctl s
@[simp] theorem feedMoved_slice (b : Byte) (h : Hrq) (s : State) : (feedMoved b h s).slice = s.slice := feedMakeRoom_slice s
@[simp] theorem feedMoved_rx_record (b : Byte) (h : Hrq) (s : State) : (feedMoved b h s).rx.record = s.rx.record :=
  feedMakeRoom_rx_record s
@[simp] theorem feedMoved_bnd (b : Byte) (h : Hrq) (s : State) : (feedMoved b h s).bnd = (feedMakeRoom s).bnd := rfl

theorem feedMove_iff_moved {s t : State} :
    feedMove (feedMakeRoom s) = .next t ↔ ∃ b h, popEdge s.build.hrqAw s.hrq = .next (b, h) ∧
      (feedMakeRoom s).rx.head < s.build.rxCap ∧ t = feedMoved b h s := by
  rw [← feedMakeRoom_build s, ← feedMakeRoom_hrq s]
  exact feedMove_eq_next

/-- What a line of a `FEED` can do: end it, or move one byte. -/
theorem feedLine_ends_or_moves {s t : State} (h : feedLine s = .next t) :
    (hrqAvail s.build.hrqAw s.hrq = 0 ∧ t = feedEnd s) ∨
    (hrqAvail s.build.hrqAw s.hrq ≠ 0 ∧ ∃ b h, popEdge s.build.hrqAw s.hrq = .next (b, h) ∧
      (feedMakeRoom s).rx.head < s.build.rxCap ∧ t = feedMoved b h s) := by
  obtain hend | ⟨h0, hmove⟩ := feedLine_cases h
  · exact .inl hend
  · exact .inr ⟨h0, feedMove_iff_moved.1 hmove⟩

/-! ### The changes of the receive side -/

/-- What a line of a `FEED` or `POLL_RECEIVE` in progress changes, and where the machine stands when it does (R120, R151). The two
`stray` changes are of a `FEED` command or inner `FEED` without `feed_active`, which the invariant excludes. -/
inductive RxLine (s : State) : State → Prop
  | feedStarts (hm : s.ctl.main = .feedWait) (hno : s.ctl.feedActive = false) (hlock : s.ctl.rxLock = false) :
      RxLine s (setMain .feedRun (feedStart s))
  | innerFeedStarts (hm : s.ctl.main = .pollWait) (hno : s.ctl.feedActive = false) (hmode : s.build.feedMode = .poll) :
      RxLine s (setMain .pollFeed (feedStart (pollLock s)))
  | pollStarts (hm : s.ctl.main = .pollWait) (hno : s.ctl.feedActive = false) (hmode : s.build.feedMode = .interrupt) :
      RxLine s (setMain .pollTest (pollLock s))
  | feedMoves {b : Byte} {h : Hrq} (hm : feedIsMains s = true) (hpop : popEdge s.build.hrqAw s.hrq = .next (b, h))
      (hroom : (feedMakeRoom s).rx.head < s.build.rxCap) : RxLine s (feedMoved b h s)
  | feedEnds (hm : s.ctl.main = .feedRun) : RxLine s (commandDone (feedEnd s))
  | innerFeedEnds (hm : s.ctl.main = .pollFeed) : RxLine s (setMain .pollTest (feedEnd s))
  | strayFeedEnds (hm : s.ctl.main = .feedRun) (hno : s.ctl.feedActive = false) : RxLine s (commandDone s)
  | strayInnerFeedEnds (hm : s.ctl.main = .pollFeed) (hno : s.ctl.feedActive = false) : RxLine s (setMain .pollTest s)
  | noData (hm : s.ctl.main = .pollTest) (hnone : s.rx.tail = s.rx.head) : RxLine s (pollReturn .noDataAvailable s)
  | scanStarts (hm : s.ctl.main = .pollTest) (hsome : s.rx.tail ≠ s.rx.head) : RxLine s (setMain .pollScan s)
  | scanEnds (hm : s.ctl.main = .pollScan) (hnone : s.rx.head ≤ s.rx.tail) : RxLine s (pollReturn .inProgress s)
  | token (hm : s.ctl.main = .pollScan) (hsome : s.rx.tail < s.rx.head) : RxLine s (rxToken s)
  | skip (hm : s.ctl.main = .pollScan) (hsome : s.rx.tail < s.rx.head) (hst : s.rx.state = .awaitStart) :
      RxLine s (rxSkip s)
  | lenH (b : Byte) (hm : s.ctl.main = .pollScan) (hsome : s.rx.tail < s.rx.head) (hst : s.rx.state = .lengthHigh) :
      RxLine s (rxLenH b s)
  | lenL (b : Byte) (hm : s.ctl.main = .pollScan) (hsome : s.rx.tail < s.rx.head) (hst : s.rx.state = .lengthLow)
      (hfits : (setLengthLow s.rx.messageLength b).toNat ≤ s.build.rxCap) : RxLine s (rxLenL b s)
  | oversized (b : Byte) (hm : s.ctl.main = .pollScan) (hsome : s.rx.tail < s.rx.head) (hst : s.rx.state = .lengthLow)
      (hover : s.build.rxCap < (setLengthLow s.rx.messageLength b).toNat) : RxLine s (rxLenL b s)
  | bodyGoesOn (hm : s.ctl.main = .pollScan) (hsome : s.rx.tail < s.rx.head) (hst : s.rx.state = .body)
      (hlt : s.rx.head < payloadEnd s) :
      RxLine s (pollReturn .inProgress { s with rx := { s.rx with tail := s.rx.head } })
  | delivers {payload : List Byte} (hm : s.ctl.main = .pollScan) (hsome : s.rx.tail < s.rx.head)
      (hst : s.rx.state = .body) (hle : payloadEnd s ≤ s.rx.head)
      (hread : memReadRun .rxBuf s.build.rxCap s.rx.buf s.rx.messageStart s.rx.messageLength.toNat = .next payload) :
      RxLine s (rxDeliver payload { s with rx := { s.rx with tail := payloadEnd s } })

/-- What the receive side changes besides: the lines of a tick-started `FEED`, and the operations of HRQ and of the environment. `sound`
says that the turn began in a state that meets the invariant, so that no `FEED` command was at its `FEED` when a tick
started one (R216). -/
inductive RxEvent (sound : Prop) (s : State) : State → Prop
  | latchesTick (hmode : s.build.feedMode = .interrupt) :
      RxEvent sound s { s with ctl := { s.ctl with feedPending := true } }
  | tickStarts (h : feedTickEnabled s = true) : RxEvent sound s (feedTickStart s)
  | feedMoves {b : Byte} {h : Hrq} (ha : s.ctl.feedActive = true) (hpop : popEdge s.build.hrqAw s.hrq = .next (b, h))
      (hroom : (feedMakeRoom s).rx.head < s.build.rxCap) : RxEvent sound s (feedMoved b h s)
  | feedEnds (hm : sound → feedIsMains s = false) : RxEvent sound s (feedEnd s)
  | push (b : Byte) : RxEvent sound s (wirePush b s)
  | wsync : RxEvent sound s { s with hrq := wsyncEdge s.hrq }
  | rsync : RxEvent sound s { s with hrq := rsyncEdge s.hrq }
  | answers (c : CallResult) : RxEvent sound s { s with callResult := some c }

/-- `u` is `s`, or `s` with a `FEED` or `POLL_RECEIVE` just accepted: where the lines of a command begin. -/
inductive LinesBegin (s : State) : State → Prop
  | inProgress : LinesBegin s s
  | accepted {m : MainPhase} (hready : s.ctl.mainBusy = false) (hm : m = .feedWait ∨ m = .pollWait) :
      LinesBegin s (acceptCommand m s)

/-! ### The changes of the transmit side -/

/-- R195, R196: the state in which an `EMIT_NOW` stands with its packet, the payload `p` framed. -/
def emitBegun (p : List Byte) (s : State) : State :=
  { s with
    tx := { s.tx with encScratch := memSetRun s.tx.encScratch 0 p }
    ctl := { s.ctl with mainBusy := true, main := .emitDrain (frameBytes s.build.startToken p) }
    bnd := { s.bnd with diagBuf := [] } }

/-- What a line of an `EMIT_NOW` in progress changes (R196). -/
inductive TxLine (s : State) : State → Prop
  | drains {packet : List Byte} {u : State} {n : Nat} (hm : s.ctl.main = .emitDrain packet)
      (hlt : s.tx.tail < s.tx.head) (h : drainOnce s = .next (u, n)) : TxLine s u
  | drained {packet : List Byte} (hm : s.ctl.main = .emitDrain packet) (hge : s.tx.head ≤ s.tx.tail) :
      TxLine s (setMain (.emitSend packet) s)
  | writes {rest : List Byte} (hm : s.ctl.main = .emitSend rest) (hne : rest ≠ []) : TxLine s (emitWrite rest s)
  | ends (hm : s.ctl.main = .emitSend []) : TxLine s (commandDone s)

/-- What an operation of the transmit side changes. -/
inductive TxChange (s : State) : State → Prop
  | line {t : State} (h : TxLine s t) : TxChange s t
  | enqueues {r : Record} {u : State} {c : EnqueueCode} (hready : s.ctl.mainBusy = false)
      (h : enqueueRecord r s = .next (u, c)) : TxChange s (respond (.enqueue c) u)
  | diagEnqueues {u : State} {c : EnqueueCode} (hready : s.ctl.mainBusy = false)
      (h : enqueueRecord (diagRecord s.build s.bnd.diagBuf) s = .next (u, c)) :
      TxChange s (respond (.diagEnqueue c) (diagClear u))
  | drains {u : State} {n : Nat} (hready : s.ctl.mainBusy = false) (h : drainOnce s = .next (u, n)) :
      TxChange s (respond (.drain n) u)
  | appends (x : List Byte) (hready : s.ctl.mainBusy = false) :
      TxChange s (respond (.diagAppend (diagAppendText x s).2) (diagAppendText x s).1)
  | emitBegins {x p : List Byte} (hready : s.ctl.mainBusy = false)
      (h : encodeRecord s.build (emitRecord x s) = .ok p) : TxChange s (emitBegun p s)
  | sinkPops {b : Byte} {rest : List Byte} (h : s.bnd.sinkQ = b :: rest) :
      TxChange s { s with bnd := { s.bnd with sinkQ := rest, wireTx := s.bnd.wireTx ++ [b] } }
  | answers (c : CallResult) : TxChange s { s with callResult := some c }

/-! ### One line of the command in progress -/

theorem feedIsMains_of_feedRun {s : State} (h : s.ctl.main = .feedRun) : feedIsMains s = true := by simp [feedIsMains, h]

theorem feedIsMains_of_pollFeed {s : State} (h : s.ctl.main = .pollFeed) : feedIsMains s = true := by
  simp [feedIsMains, h]

/-- R82, R151: an iteration of the loop is the change of one byte class. -/
theorem RxLine.of_rxIterate {b : Byte} {s t : State} (hm : s.ctl.main = .pollScan) (hsome : s.rx.tail < s.rx.head)
    (h : rxIterate b s = .next t) : RxLine s t := by
  obtain ⟨-, rfl⟩ | ⟨-, hst, rfl⟩ | ⟨-, hst, rfl⟩ | ⟨-, hst, rfl⟩ | ⟨-, hst, hbody⟩ := rxIterate_cases h
  · exact .token hm hsome
  · exact .skip hm hsome hst
  · exact .lenH b hm hsome hst
  · obtain hover | hfits := Nat.lt_or_ge s.build.rxCap (setLengthLow s.rx.messageLength b).toNat
    · exact .oversized b hm hsome hst hover
    · exact .lenL b hm hsome hst hfits
  · obtain ⟨hlt, rfl⟩ | ⟨hle, payload, hread, rfl⟩ := rxBody_cases hbody
    · exact .bodyGoesOn hm hsome hst hlt
    · exact .delivers hm hsome hst hle hread

/-- A line of the command in progress waits, or is a chain of changes of the command's side. -/
theorem changes_of_mainLine {s t : State} (h : mainLine s = .next t) :
    t = s ∨ (receivePhase s.ctl.main = true ∧ ReflTransGen RxLine s t) ∨
      (transmitPhase s.ctl.main = true ∧ TxLine s t) := by
  obtain ⟨-, rfl⟩ | ⟨-, -, rfl⟩ | ⟨hm, hno, hlock, rfl⟩ | ⟨hm, u, hu, rfl⟩ | ⟨-, -, rfl⟩ |
    ⟨hm, hno, hmode, rfl⟩ | ⟨hm, hno, hmode, rfl⟩ | ⟨hm, u, hu, rfl⟩ | ⟨hm, hnone, rfl⟩ | ⟨hm, hsome, rfl⟩ | ⟨hm, hscan⟩ |
    ⟨_, hm, hlt, ⟨u, n⟩, hx, rfl⟩ | ⟨_, hm, hge, rfl⟩ | ⟨hm, rfl⟩ | ⟨rest, hm, hne, rfl⟩ := mainLine_cases h
  · exact .inl rfl
  · exact .inl rfl
  · exact .inr (.inl ⟨by rw [hm]; rfl, .single (.feedStarts hm hno hlock)⟩)
  · refine .inr (.inl ⟨by rw [hm]; rfl, ?_⟩)
    obtain ⟨-, rfl⟩ | ⟨-, b, q, hpop, hroom, rfl⟩ := feedLine_ends_or_moves hu
    · exact .single (.feedEnds hm)
    · have hmoves : ReflTransGen RxLine s (feedMoved b q s) := .single (.feedMoves (feedIsMains_of_feedRun hm) hpop hroom)
      split
      · exact hmoves
      · next hno => exact hmoves.tail (.strayFeedEnds (by simpa using hm) (by simpa using hno))
  · exact .inl rfl
  · exact .inr (.inl ⟨by rw [hm]; rfl, .single (.innerFeedStarts hm hno hmode)⟩)
  · exact .inr (.inl ⟨by rw [hm]; rfl, .single (.pollStarts hm hno hmode)⟩)
  · refine .inr (.inl ⟨by rw [hm]; rfl, ?_⟩)
    obtain ⟨-, rfl⟩ | ⟨-, b, q, hpop, hroom, rfl⟩ := feedLine_ends_or_moves hu
    · exact .single (.innerFeedEnds hm)
    · have hmoves : ReflTransGen RxLine s (feedMoved b q s) := .single (.feedMoves (feedIsMains_of_pollFeed hm) hpop hroom)
      split
      · exact hmoves
      · next hno => exact hmoves.tail (.strayInnerFeedEnds (by simpa using hm) (by simpa using hno))
  · exact .inr (.inl ⟨by rw [hm]; rfl, .single (.noData hm hnone)⟩)
  · exact .inr (.inl ⟨by rw [hm]; rfl, .single (.scanStarts hm hsome)⟩)
  · refine .inr (.inl ⟨by rw [hm]; rfl, .single ?_⟩)
    obtain ⟨hnone, rfl⟩ | ⟨hsome, b, -, hb⟩ := scanLine_cases hscan
    · exact .scanEnds hm hnone
    · exact .of_rxIterate hm hsome hb
  · exact .inr (.inr ⟨by rw [hm]; rfl, .drains hm hlt hx⟩)
  · exact .inr (.inr ⟨by rw [hm]; rfl, .drained hm hge⟩)
  · exact .inr (.inr ⟨by rw [hm]; rfl, .ends hm⟩)
  · exact .inr (.inr ⟨by rw [hm]; rfl, .writes hm hne⟩)

/-! ### The lines of an operation in progress -/

theorem RxLine.transmitPhase_eq_false {s t : State} (h : RxLine s t) : transmitPhase t.ctl.main = false := by
  cases h with
  | feedMoves hm =>
    have hline : s.ctl.main = .feedRun ∨ s.ctl.main = .pollFeed := by simpa [feedIsMains] using hm
    rw [feedMoved_ctl]
    obtain hline | hline := hline <;> rw [hline] <;> rfl
  | token hm => rw [rxToken_ctl, hm]; rfl
  | skip hm => rw [rxSkip_ctl, hm]; rfl
  | lenH _ hm => rw [rxLenH_ctl, hm]; rfl
  | lenL b hm _ _ hfits => rw [rxLenL_of_fits hfits, hm]; rfl
  | oversized b _ _ _ hover => rw [rxLenL_of_oversized hover]; rfl
  | delivers => rw [rxDeliver_eq]; rfl
  | _ => rfl

theorem TxLine.receivePhase_eq_false {s t : State} (h : TxLine s t) : receivePhase t.ctl.main = false := by
  cases h with
  | drains hm _ h =>
    obtain ⟨_, -, -, hu, -⟩ := drainOnce_eq_next h
    rw [show t = _ from hu, txAdvance_ctl, hm]; rfl
  | writes => rw [emitWrite_eq]; rfl
  | _ => rfl

section
variable {s t : State} {n : Nat}

theorem transmitPhase_eq_false_of_chain (hm : transmitPhase s.ctl.main = false) (h : ReflTransGen RxLine s t) :
    transmitPhase t.ctl.main = false := by
  cases h with
  | refl => exact hm
  | tail _ hlast => exact hlast.transmitPhase_eq_false

theorem rxLines_of_mainLines (hm : transmitPhase s.ctl.main = false) (h : mainLines n s = .next t) :
    ReflTransGen RxLine s t := by
  refine mainLines_induct (P := ReflTransGen RxLine s) (fun u v hu _ hl => ?_) n s t .refl h
  obtain rfl | ⟨-, hv⟩ | ⟨hu', -⟩ := changes_of_mainLine hl
  · exact hu
  · exact hu.trans hv
  · exact absurd hu' (by simp [transmitPhase_eq_false_of_chain hm hu])

theorem receivePhase_eq_false_of_chain (hm : receivePhase s.ctl.main = false) (h : ReflTransGen TxLine s t) :
    receivePhase t.ctl.main = false := by
  cases h with
  | refl => exact hm
  | tail _ hlast => exact hlast.receivePhase_eq_false

theorem txLines_of_mainLines (hm : receivePhase s.ctl.main = false) (h : mainLines n s = .next t) :
    ReflTransGen TxLine s t := by
  refine mainLines_induct (P := ReflTransGen TxLine s) (fun u v hu _ hl => ?_) n s t .refl h
  obtain rfl | ⟨hu', -⟩ | ⟨-, hv⟩ := changes_of_mainLine hl
  · exact hu
  · exact absurd hu' (by simp [receivePhase_eq_false_of_chain hm hu])
  · exact hu.tail hv

variable {sound : Prop}

/-- A line of a `FEED` that a tick started. -/
theorem RxEvent.of_feedLine (hm : sound → feedIsMains s = false) (ha : s.ctl.feedActive = true)
    (h : feedLine s = .next t) : RxEvent sound s t := by
  obtain ⟨-, rfl⟩ | ⟨-, b, q, hpop, hroom, rfl⟩ := feedLine_ends_or_moves h
  · exact .feedEnds hm
  · exact .feedMoves ha hpop hroom

theorem feedIsMains_of_feedLine (h : feedLine s = .next t) : feedIsMains t = feedIsMains s := by
  rw [feedIsMains, (feedLine_ctl h).1]
  rfl

theorem rxEvents_of_feedLines (hm : sound → feedIsMains s = false) (h : feedLines n s = .next t) :
    ReflTransGen (RxEvent sound) s t := by
  refine (feedLines_induct (P := fun u => (sound → feedIsMains u = false) ∧ ReflTransGen (RxEvent sound) s u)
    (fun u v hu ha hl => ?_) n s t ⟨hm, .refl⟩ h).2
  obtain ⟨hu, hchain⟩ := hu
  exact ⟨fun hs => (feedIsMains_of_feedLine hl).trans (hu hs), hchain.tail (.of_feedLine hu ha hl)⟩

theorem txChanges_of_txLines (h : ReflTransGen TxLine s t) : ReflTransGen TxChange s t :=
  h.lift id fun _ _ => .line

end

/-! ### The operations -/

/-- R82: the operation of a byte class that comes next is the iteration on the byte at `rx_tail`. -/
theorem exec_of_rxbEnabled {i : Instr} {s : State} (h : rxbEnabled i s = true) :
    ∃ b, memGet s.rx.buf s.rx.tail = some b ∧ exec i s = rxIterate b s := by
  obtain ⟨-, -, b, hb, rfl⟩ := rxbEnabled_iff.1 h
  refine ⟨b, hb, ?_⟩
  by_cases htok : b = s.build.startToken
  · have hclass : classify (decodeCtx s) b = .rxbToken := by rw [htok]; exact classify_startToken (decodeCtx s)
    rw [hclass] at h ⊢
    rw [exec_rxbToken_of_enabled h, rxIterate, if_pos htok]
  · cases hst : s.rx.state
    case awaitStart =>
      have hclass : classify (decodeCtx s) b = .rxbSkip b := by rw [decodeCtx, hst]; exact classify_awaitStart htok
      rw [hclass] at h ⊢
      rw [exec_rxbSkip_of_enabled h, rxIterate, if_neg htok, hst]
    case lengthHigh =>
      have hclass : classify (decodeCtx s) b = .rxbLenH b := by rw [decodeCtx, hst]; exact classify_lengthHigh htok
      rw [hclass] at h ⊢
      rw [exec_rxbLenH_of_enabled h, rxIterate, if_neg htok, hst]
    case lengthLow =>
      have hclass : classify (decodeCtx s) b = .rxbLenL b := by rw [decodeCtx, hst]; exact classify_lengthLow htok
      rw [hclass] at h ⊢
      rw [exec_rxbLenL_of_enabled h, rxIterate, if_neg htok, hst]
    case body =>
      have hclass : classify (decodeCtx s) b = .rxbBody b := by rw [decodeCtx, hst]; exact classify_body htok
      rw [hclass] at h ⊢
      rw [exec_rxbBody_of_enabled h, rxIterate, if_neg htok, hst]

/-- Log 11: a byte class that is not the next iteration's is no step. -/
theorem exec_of_rxbDisabled {i : Instr} {b : Byte} {s : State}
    (hi : i = .rxbToken ∨ i = .rxbSkip b ∨ i = .rxbLenH b ∨ i = .rxbLenL b ∨ i = .rxbBody b)
    (h : rxbEnabled i s = false) : exec i s = .next s := by
  have hnot : ¬ rxbEnabled i s = true := by simp [h]
  obtain rfl | rfl | rfl | rfl | rfl := hi <;> exact if_neg hnot

theorem rxLines_of_byteClass {i : Instr} (b : Byte) {s t : State}
    (hi : i = .rxbToken ∨ i = .rxbSkip b ∨ i = .rxbLenH b ∨ i = .rxbLenL b ∨ i = .rxbBody b)
    (h : exec i s = .next t) : ReflTransGen RxLine s t := by
  cases hen : rxbEnabled i s
  · rw [exec_of_rxbDisabled hi hen] at h
    exact Host.Outcome.next.inj h ▸ .refl
  · obtain ⟨b, -, hexec⟩ := exec_of_rxbEnabled hen
    obtain ⟨hm, hsome, -⟩ := rxbEnabled_iff.1 hen
    exact .single (.of_rxIterate hm hsome (hexec ▸ h))

section
variable {s t : State}

theorem rxLines_of_runCommand {m : MainPhase} (hm : m = .feedWait ∨ m = .pollWait)
    (h : whenReady (runCommand m) s = .next t) : ∃ u, LinesBegin s u ∧ ReflTransGen RxLine u t := by
  cases hb : s.ctl.mainBusy
  · rw [whenReady_of_ready hb] at h
    have hphase : transmitPhase (acceptCommand m s).ctl.main = false := by obtain rfl | rfl := hm <;> rfl
    exact ⟨_, .accepted hb hm, rxLines_of_mainLines hphase h⟩
  · rw [whenReady_of_busy hb] at h
    exact ⟨s, .inProgress, Host.Outcome.next.inj h ▸ .refl⟩

theorem rxEvents_of_onPop {sound : Prop} (h : onPop s = .next t) : ReflTransGen (RxEvent sound) s t := by
  cases he : hrqEmpty s.hrq
  case true => rw [onPop_of_empty he] at h; cases h
  case false =>
    cases hp : popIsNext s
    · rw [onPop_of_other he hp] at h
      exact Host.Outcome.next.inj h ▸ .refl
    · rw [onPop_of_next he hp] at h
      obtain ⟨p, -, h⟩ := andThen_eq_next.1 h
      obtain ⟨u, hu, h⟩ := andThen_eq_next.1 h
      obtain ⟨ha, h0, -⟩ := popIsNext_iff.1 hp
      obtain ⟨hend, -⟩ | ⟨-, b, q, hpop, hroom, rfl⟩ := feedLine_ends_or_moves hu
      · exact absurd hend h0
      · obtain rfl := Host.Outcome.next.inj h
        exact .head (.feedMoves ha hpop hroom) (.single (.answers _))

theorem rxEvents_of_wirePushAll {sound : Prop} (bs : List Byte) : ReflTransGen (RxEvent sound) s (wirePushAll bs s) := by
  induction bs generalizing s with
  | nil => exact .refl
  | cons b bs ih => exact .head (.push b) ih

theorem exec_feedTick_of_disabled (h : feedTickEnabled s = false) : exec .feedTick s = .next s := if_neg (by simp [h])

/-- R216: in a state that meets the invariant a tick starts no `FEED` beside that of a command. -/
theorem CtlInv.feedIsMains_eq_false (hc : CtlInv s) (hno : s.ctl.feedActive = false) : feedIsMains s = false := by
  by_contra hm
  exact absurd (hc.mainFeeds (by simpa using hm)) (by simp [hno])

theorem rxEvents_of_feedTick (h : exec .feedTick s = .next t) : ReflTransGen (RxEvent (CtlInv s)) s t := by
  cases hen : feedTickEnabled s
  · exact Host.Outcome.next.inj ((exec_feedTick_of_disabled hen).symm.trans h) ▸ .refl
  · rw [exec_feedTick_eq hen] at h
    refine .head (.tickStarts hen) (rxEvents_of_feedLines (fun hs => ?_) h)
    obtain ⟨-, -, -, -, hno⟩ := feedTickEnabled_iff.1 hen
    simpa [feedIsMains] using hs.feedIsMains_eq_false hno

/-- Every operation but those of the transmit side and `RESET` is lines of one command, or a chain of the other changes
of the receive side. -/
theorem rxChanges_of_exec {i : Instr} (hside : transmitSide i = false) (hi : i ≠ .reset) (h : exec i s = .next t) :
    (∃ u, LinesBegin s u ∧ ReflTransGen RxLine u t) ∨ ReflTransGen (RxEvent (CtlInv s)) s t := by
  cases i with
  | nop => exact .inr (Host.Outcome.next.inj h ▸ .refl)
  | feed => exact .inl (rxLines_of_runCommand (.inl rfl) h)
  | pollReceive => exact .inl (rxLines_of_runCommand (.inr rfl) h)
  | rxbToken => exact .inl ⟨s, .inProgress, rxLines_of_byteClass 0#8 (by simp) h⟩
  | rxbSkip b | rxbLenH b | rxbLenL b | rxbBody b => exact .inl ⟨s, .inProgress, rxLines_of_byteClass b (by simp) h⟩
  | hrqPush b => exact .inr (Host.Outcome.next.inj h ▸ .single (.push b))
  | hrqWsync => exact .inr (Host.Outcome.next.inj h ▸ .single .wsync)
  | hrqRsync => exact .inr (Host.Outcome.next.inj h ▸ .single .rsync)
  | hrqAvail => exact .inr (Host.Outcome.next.inj h ▸ .single (.answers _))
  | hrqPop => exact .inr (rxEvents_of_onPop h)
  | tick =>
    refine .inr ?_
    cases hmode : s.build.feedMode
    · exact Host.Outcome.next.inj ((exec_tick_of_poll hmode).symm.trans h) ▸ .refl
    · exact Host.Outcome.next.inj ((exec_tick_of_interrupt hmode).symm.trans h) ▸ .single (.latchesTick hmode)
  | feedTick => exact .inr (rxEvents_of_feedTick h)
  | frame payload => exact .inr (Host.Outcome.next.inj h ▸ rxEvents_of_wirePushAll _)
  | reset => exact absurd rfl hi
  | enqueue _ | drain | diagAppend _ | diagEnqueue | emitNow _ | sinkSpace | sinkWrite _ | sinkPop => cases hside

/-- R183: a write as a step of its own is a line of the `EMIT_NOW` in progress, or no step. -/
theorem txLines_of_onWrite {bytes : List Byte} (h : onWrite bytes s = .next t) :
    t = s ∨ ∃ u c, ReflTransGen TxLine s u ∧ t = { u with callResult := some c } := by
  by_cases hw : nextWrite s = some bytes
  · have hphase : receivePhase s.ctl.main = false := by
      obtain ⟨_, hm, -⟩ | ⟨_, hm, -⟩ := nextWrite_eq_some.1 hw <;> rw [hm] <;> rfl
    rw [onWrite_of_next hw] at h
    obtain ⟨u, hu, h⟩ := andThen_eq_next.1 h
    refine .inr ⟨u, _, ?_, (Host.Outcome.next.inj h).symm⟩
    obtain rfl | ⟨hu', -⟩ | ⟨-, hline⟩ := changes_of_mainLine hu
    · exact .refl
    · exact absurd hu' (by simp [hphase])
    · exact .single hline
  · rw [onWrite_of_other hw] at h; exact .inl (Host.Outcome.next.inj h).symm

/-- Log 11: while a command is in progress no other is accepted. -/
theorem exec_of_busy {i : Instr} (hi : i = .feed ∨ i = .pollReceive ∨ (∃ r, i = .enqueue r) ∨ i = .drain ∨
    (∃ x, i = .diagAppend x) ∨ i = .diagEnqueue ∨ ∃ x, i = .emitNow x) (h : s.ctl.mainBusy = true) : exec i s = .next s := by
  have hbusy : ¬ cmdReady s = true := by simp [cmdReady, h]
  obtain rfl | rfl | ⟨r, rfl⟩ | rfl | ⟨x, rfl⟩ | rfl | ⟨x, rfl⟩ := hi <;> exact if_neg hbusy

theorem exec_emitNow_of_ready {x : List Byte} (h : s.ctl.mainBusy = false) :
    exec (.emitNow x) s = andThen (emitPrepare x s) fun u => mainLines (lines u (mainFuel u)) u :=
  (whenReady_of_ready h : execEmitNow x s = _)

theorem emitPrepare_begins {x : List Byte} (h : emitPrepare x s = .next t) :
    ∃ p, encodeRecord s.build (emitRecord x s) = .ok p ∧ t = emitBegun p s := emitPrepare_eq_next h

/-- A command of the transmit side that is accepted. -/
theorem txChanges_of_accepted {i : Instr} (hi : (∃ r, i = .enqueue r) ∨ i = .drain ∨ (∃ x, i = .diagAppend x) ∨
    i = .diagEnqueue ∨ ∃ x, i = .emitNow x) (hready : s.ctl.mainBusy = false) (h : exec i s = .next t) :
    ReflTransGen TxChange s t := by
  obtain ⟨r, rfl⟩ | rfl | ⟨x, rfl⟩ | rfl | ⟨x, rfl⟩ := hi
  · rw [exec_enqueue_of_ready hready] at h
    obtain ⟨⟨u, c⟩, hu, h⟩ := andThen_eq_next.1 h
    exact Host.Outcome.next.inj h ▸ .single (.enqueues hready hu)
  · rw [exec_drain_of_ready hready] at h
    obtain ⟨⟨u, n⟩, hu, h⟩ := andThen_eq_next.1 h
    exact Host.Outcome.next.inj h ▸ .single (.drains hready hu)
  · rw [exec_diagAppend_of_ready hready] at h
    exact Host.Outcome.next.inj h ▸ .single (.appends x hready)
  · rw [exec_diagEnqueue_of_ready hready] at h
    obtain ⟨_, hx, h⟩ := andThen_eq_next.1 h
    obtain ⟨u, c, hu, rfl⟩ := diagEnqueueRecord_eq_next.1 hx
    exact Host.Outcome.next.inj h ▸ .single (.diagEnqueues hready hu)
  · rw [exec_emitNow_of_ready hready] at h
    obtain ⟨u, hu, h⟩ := andThen_eq_next.1 h
    obtain ⟨p, hp, rfl⟩ := emitPrepare_begins hu
    exact .head (.emitBegins hready hp) (txChanges_of_txLines (txLines_of_mainLines rfl h))

theorem txChanges_of_command {i : Instr} (hi : (∃ r, i = .enqueue r) ∨ i = .drain ∨ (∃ x, i = .diagAppend x) ∨
    i = .diagEnqueue ∨ ∃ x, i = .emitNow x) (h : exec i s = .next t) : ReflTransGen TxChange s t := by
  cases hb : s.ctl.mainBusy
  · exact txChanges_of_accepted hi hb h
  · have hnone := exec_of_busy (.inr (.inr (by tauto))) hb
    exact Host.Outcome.next.inj (hnone.symm.trans h) ▸ .refl

theorem txChanges_of_exec {i : Instr} (hside : transmitSide i = true) (h : exec i s = .next t) :
    ReflTransGen TxChange s t := by
  cases i with
  | enqueue _ | drain | diagAppend _ | diagEnqueue | emitNow _ => exact txChanges_of_command (by simp) h
  | sinkSpace => exact Host.Outcome.next.inj h ▸ .single (.answers _)
  | sinkWrite bytes =>
    obtain rfl | ⟨u, c, hchain, rfl⟩ := txLines_of_onWrite h
    · exact .refl
    · exact (txChanges_of_txLines hchain).tail (.answers c)
  | sinkPop =>
    cases hq : s.bnd.sinkQ with
    | nil =>
      have hnone : exec .sinkPop s = .next s := by simp [exec, execSinkPop, hq]
      exact Host.Outcome.next.inj (hnone.symm.trans h) ▸ .refl
    | cons b rest => exact Host.Outcome.next.inj ((exec_sinkPop_of_cons hq).symm.trans h) ▸ .single (.sinkPops hq)
  | nop | feed | pollReceive | rxbToken | rxbSkip _ | rxbLenH _ | rxbLenL _ | rxbBody _ | hrqPush _ | hrqWsync | hrqRsync
  | hrqAvail | hrqPop | tick | feedTick | reset | frame _ => cases hside

/-- A resumed command is a chain of changes of its own side. -/
theorem changes_of_runMain (h : runMain s = .next t) :
    (transmitPhase s.ctl.main = false ∧ ReflTransGen RxLine s t) ∨ (transmitPhase s.ctl.main = true ∧ ReflTransGen TxLine s t) := by
  cases hphase : transmitPhase s.ctl.main
  · exact .inl ⟨rfl, rxLines_of_mainLines hphase h⟩
  · refine .inr ⟨rfl, txLines_of_mainLines ?_ h⟩
    cases hm : s.ctl.main <;> simp_all [transmitPhase, receivePhase]

theorem rxEvents_of_runFeed (h : runFeed s = .next t) : ReflTransGen (RxEvent (CtlInv s)) s t := by
  rw [runFeed] at h
  split at h
  · exact Host.Outcome.next.inj h ▸ .refl
  · next hm => exact rxEvents_of_feedLines (fun _ => by simpa using hm) h

/-- What one turn of the schedule can do, a `RESET` apart: lines of a command of the receive side, or a chain of its other changes, or
a chain of changes of the transmit side. -/
theorem Moves.changes (h : Moves s t) : (∃ u, LinesBegin s u ∧ ReflTransGen RxLine u t) ∨
    ReflTransGen (RxEvent (CtlInv s)) s t ∨ ReflTransGen TxChange s t := by
  obtain ⟨i, hi, h⟩ | h | h := h
  · cases hside : transmitSide i
    · exact (rxChanges_of_exec hside hi h).imp_right .inl
    · exact .inr (.inr (txChanges_of_exec hside h))
  · obtain ⟨-, h⟩ | ⟨-, h⟩ := changes_of_runMain h
    · exact .inl ⟨s, .inProgress, h⟩
    · exact .inr (.inr (txChanges_of_txLines h))
  · exact .inr (.inl (rxEvents_of_runFeed h))

/-- A step does nothing, or takes a turn off the schedule and does what a turn can do, or resets. -/
theorem step_moves (h : step s = .next t) : t = s ∨ ∃ rest slice,
    Moves (takeTurn rest slice s) t ∨ t = { State.resetOf s.build with agenda := rest, slice := slice } := by
  obtain ⟨-, ⟨-, rfl⟩ | ⟨_, slice, rest, i, -, -, h⟩ | ⟨slice, rest, -, h⟩ | ⟨slice, rest, -, h⟩⟩ := step_cases h
  · exact .inl rfl
  · refine .inr ⟨rest, slice, ?_⟩
    by_cases hi : i = .reset
    · subst hi; exact .inr (Host.Outcome.next.inj h).symm
    · exact .inl (.inl ⟨i, hi, h⟩)
  · exact .inr ⟨rest, slice, .inl (.inr (.inl h))⟩
  · exact .inr ⟨rest, slice, .inl (.inr (.inr h))⟩

end

/-! ### What every change keeps -/

section
variable {P : State → Prop} {r : State → State → Prop} {s t : State}

theorem chain_induct (step : ∀ u v, P u → r u v → P v) (hs : P s) (h : ReflTransGen r s t) : P t := by
  induction h with
  | refl => exact hs
  | tail _ hlast ih => exact step _ _ ih hlast

/-- What each change of either side keeps, every turn but a `RESET` keeps. -/
theorem Moves.induct (h : Moves s t) (begins : ∀ u v, P u → LinesBegin u v → P v) (line : ∀ u v, P u → RxLine u v → P v)
    (event : ∀ u v, P u → RxEvent (CtlInv s) u v → P v) (tx : ∀ u v, P u → TxChange u v → P v) (hs : P s) : P t := by
  obtain ⟨u, hu, hchain⟩ | hchain | hchain := h.changes
  · exact chain_induct line (begins s u hs hu) hchain
  · exact chain_induct event hs hchain
  · exact chain_induct tx hs hchain

end

end Sys2Proof.Machine
end

section
/-! PROOFS over all operations: what each side leaves to the other (R217), the parameters (R9), the traces (R41 to R45), the record
(R33) and the diagnostic events (R191). Each is a fact about one change, carried along the chain of a turn. -/

namespace Sys2Proof.Machine

open Relation (ReflTransGen)

/-! ### What the receive side leaves (R217) -/

/-- The transmit side and the wire are in `t` as they are in `s`. -/
structure TxKept (s t : State) : Prop where
  build : t.build = s.build
  tx : t.tx = s.tx
  sinkQ : t.bnd.sinkQ = s.bnd.sinkQ
  wireTx : t.bnd.wireTx = s.bnd.wireTx
  diagBuf : t.bnd.diagBuf = s.bnd.diagBuf

theorem TxKept.refl (s : State) : TxKept s s := ⟨rfl, rfl, rfl, rfl, rfl⟩

theorem TxKept.trans {s t u : State} (h : TxKept s t) (h' : TxKept t u) : TxKept s u :=
  ⟨h'.build.trans h.build, h'.tx.trans h.tx, h'.sinkQ.trans h.sinkQ, h'.wireTx.trans h.wireTx, h'.diagBuf.trans h.diagBuf⟩

theorem txKept_feedMoved (b : Byte) (h : Hrq) (s : State) : TxKept s (feedMoved b h s) :=
  ⟨by simp, by simp, by simp, by simp, by simp⟩

theorem RxLine.txKept {s t : State} (h : RxLine s t) : TxKept s t := by
  cases h with
  | feedStarts | innerFeedStarts => exact ⟨by simp, by simp, by simp, by simp, by simp⟩
  | feedMoves => exact txKept_feedMoved _ _ s
  | token => exact ⟨by simp, by simp, by simp, by simp, by simp⟩
  | lenL b _ _ _ hfits => rw [rxLenL_of_fits hfits]; exact ⟨rfl, rfl, rfl, rfl, rfl⟩
  | oversized b _ _ _ hover => rw [rxLenL_of_oversized hover]; exact ⟨rfl, rfl, rfl, rfl, rfl⟩
  | delivers => rw [rxDeliver_eq]; exact ⟨rfl, rfl, rfl, rfl, rfl⟩
  | _ => exact ⟨rfl, rfl, rfl, rfl, rfl⟩

theorem RxEvent.txKept {sound : Prop} {s t : State} (h : RxEvent sound s t) : TxKept s t := by
  cases h with
  | tickStarts => exact ⟨by simp, by simp, by simp, by simp, by simp⟩
  | feedMoves => exact txKept_feedMoved _ _ s
  | _ => exact ⟨rfl, rfl, rfl, rfl, rfl⟩

theorem LinesBegin.txKept {s t : State} (h : LinesBegin s t) : TxKept s t := by
  cases h <;> exact ⟨rfl, rfl, rfl, rfl, rfl⟩

theorem txKept_of_rxLines {s t : State} (h : ReflTransGen RxLine s t) : TxKept s t :=
  chain_induct (P := TxKept s) (fun _ _ hu hl => hu.trans hl.txKept) (.refl s) h

theorem txKept_of_rxEvents {sound : Prop} {s t : State} (h : ReflTransGen (RxEvent sound) s t) : TxKept s t :=
  chain_induct (P := TxKept s) (fun _ _ hu hl => hu.trans hl.txKept) (.refl s) h

theorem txKept_of_exec {i : Instr} {s t : State} (hside : transmitSide i = false) (hi : i ≠ .reset)
    (h : exec i s = .next t) : TxKept s t := by
  obtain ⟨u, hu, hchain⟩ | hchain := rxChanges_of_exec hside hi h
  · exact hu.txKept.trans (txKept_of_rxLines hchain)
  · exact txKept_of_rxEvents hchain

theorem txKept_of_runFeed {s t : State} (h : runFeed s = .next t) : TxKept s t :=
  txKept_of_rxEvents (rxEvents_of_runFeed h)

/-! ### What the transmit side leaves (R217) -/

/-- HRQ, the receive side and its traces, and the control bits of feeder and lock are in `t` as they are in `s`. -/
structure RxKept (s t : State) : Prop where
  build : t.build = s.build
  hrq : t.hrq = s.hrq
  rx : t.rx = s.rx
  diagLog : t.bnd.diagLog = s.bnd.diagLog
  recordLog : t.bnd.recordLog = s.bnd.recordLog
  wireRxCount : t.bnd.wireRxCount = s.bnd.wireRxCount
  feedIe : t.ctl.feedIe = s.ctl.feedIe
  feedPending : t.ctl.feedPending = s.ctl.feedPending
  rxLock : t.ctl.rxLock = s.ctl.rxLock
  feedActive : t.ctl.feedActive = s.ctl.feedActive

theorem RxKept.refl (s : State) : RxKept s s := ⟨rfl, rfl, rfl, rfl, rfl, rfl, rfl, rfl, rfl, rfl⟩

theorem RxKept.trans {s t u : State} (h : RxKept s t) (h' : RxKept t u) : RxKept s u :=
  ⟨h'.build.trans h.build, h'.hrq.trans h.hrq, h'.rx.trans h.rx, h'.diagLog.trans h.diagLog,
    h'.recordLog.trans h.recordLog, h'.wireRxCount.trans h.wireRxCount, h'.feedIe.trans h.feedIe,
    h'.feedPending.trans h.feedPending, h'.rxLock.trans h.rxLock, h'.feedActive.trans h.feedActive⟩

/-- `ENQUEUE` before its response writes the transmit buffer and `enc_scratch` only (R50, R173). -/
theorem enqueueRecord_writes_tx {r : Record} {s u : State} {c : EnqueueCode} (h : enqueueRecord r s = .next (u, c)) :
    u = { s with tx := u.tx } := by
  obtain ⟨-, hx⟩ | ⟨p, -, ⟨-, hx⟩ | ⟨-, hx⟩⟩ := enqueueRecord_cases h <;> obtain ⟨rfl, -⟩ := Prod.mk.inj hx <;> rfl

/-- `DRAIN` before its response writes the offsets and the sink only (R175 to R177). -/
theorem drainOnce_writes_tx {s u : State} {n : Nat} (h : drainOnce s = .next (u, n)) : ∃ bytes,
    u = { s with
      tx := { s.tx with tail := u.tx.tail, head := u.tx.head }, bnd := { s.bnd with sinkQ := s.bnd.sinkQ ++ bytes } } := by
  obtain ⟨bytes, -, -, hu, -⟩ := drainOnce_eq_next h
  refine ⟨bytes, ?_⟩
  rw [txAdvance_eq] at hu
  obtain rfl : u = _ := hu
  rfl

theorem rxKept_enqueueRecord {r : Record} {s u : State} {c : EnqueueCode} (h : enqueueRecord r s = .next (u, c)) :
    RxKept s u := by
  rw [enqueueRecord_writes_tx h]; exact ⟨rfl, rfl, rfl, rfl, rfl, rfl, rfl, rfl, rfl, rfl⟩

theorem rxKept_drainOnce {s u : State} {n : Nat} (h : drainOnce s = .next (u, n)) : RxKept s u := by
  obtain ⟨bytes, hu⟩ := drainOnce_writes_tx h
  rw [hu]; exact ⟨rfl, rfl, rfl, rfl, rfl, rfl, rfl, rfl, rfl, rfl⟩

theorem TxLine.rxKept {s t : State} (h : TxLine s t) : RxKept s t := by
  cases h with
  | drains _ _ h => exact rxKept_drainOnce h
  | writes => rw [emitWrite_eq]; exact ⟨rfl, rfl, rfl, rfl, rfl, rfl, rfl, rfl, rfl, rfl⟩
  | _ => exact ⟨rfl, rfl, rfl, rfl, rfl, rfl, rfl, rfl, rfl, rfl⟩

theorem TxChange.rxKept {s t : State} (h : TxChange s t) : RxKept s t := by
  cases h with
  | line h => exact h.rxKept
  | enqueues _ h | diagEnqueues _ h => exact (rxKept_enqueueRecord h).trans ⟨rfl, rfl, rfl, rfl, rfl, rfl, rfl, rfl, rfl, rfl⟩
  | drains _ h => exact (rxKept_drainOnce h).trans ⟨rfl, rfl, rfl, rfl, rfl, rfl, rfl, rfl, rfl, rfl⟩
  | _ => exact ⟨rfl, rfl, rfl, rfl, rfl, rfl, rfl, rfl, rfl, rfl⟩

theorem rxKept_of_txChanges {s t : State} (h : ReflTransGen TxChange s t) : RxKept s t :=
  chain_induct (P := RxKept s) (fun _ _ hu hl => hu.trans hl.rxKept) (.refl s) h

theorem rxKept_of_exec {i : Instr} {s t : State} (hside : transmitSide i = true) (h : exec i s = .next t) : RxKept s t :=
  rxKept_of_txChanges (txChanges_of_exec hside h)

theorem transmitSide_of_receiveSide {i : Instr} (h : receiveSide i = true) : transmitSide i = false ∧ i ≠ .reset := by
  cases i <;> simp_all [receiveSide, transmitSide]

theorem transmitPhase_of_receivePhase {m : MainPhase} (h : receivePhase m = true) : transmitPhase m = false := by
  cases m <;> simp_all [receivePhase, transmitPhase]

/-- Settles O58: the frames of the two sides, of an operation and of the lines of a resumed one. -/
theorem sidesShareNoState : Obligations.SidesShareNoState := by
  intro s t
  refine ⟨fun h => ?transmit, fun h => ?receive⟩
  case transmit =>
    have hk : RxKept s t := by
      obtain ⟨i, hside, h⟩ | ⟨hphase, h⟩ := h
      · exact rxKept_of_exec hside h
      · obtain ⟨hphase', -⟩ | ⟨-, hchain⟩ := changes_of_runMain h
        · exact absurd hphase (by simp [hphase'])
        · exact rxKept_of_txChanges (txChanges_of_txLines hchain)
    exact ⟨hk.hrq, hk.rx, hk.diagLog, hk.recordLog, hk.wireRxCount, hk.feedIe, hk.feedPending, hk.rxLock, hk.feedActive⟩
  case receive =>
    have hk : TxKept s t := by
      obtain ⟨i, hside, h⟩ | ⟨hphase, h⟩ | h := h
      · obtain ⟨hside, hi⟩ := transmitSide_of_receiveSide hside
        exact txKept_of_exec hside hi h
      · exact txKept_of_rxLines (rxLines_of_mainLines (transmitPhase_of_receivePhase hphase) h)
      · exact txKept_of_runFeed h
    exact ⟨hk.tx, hk.sinkQ, hk.wireTx, hk.diagBuf⟩

/-! ### The parameters (R9, R37) -/

theorem Moves.build_eq {s t : State} (h : Moves s t) : t.build = s.build := by
  refine h.induct (P := fun u => u.build = s.build) ?_ ?_ ?_ ?_ rfl
  · exact fun _ _ hu hv => hv.txKept.build.trans hu
  · exact fun _ _ hu hv => hv.txKept.build.trans hu
  · exact fun _ _ hu hv => hv.txKept.build.trans hu
  · exact fun _ _ hu hv => hv.rxKept.build.trans hu

/-- Settles O55: no change of either side writes a parameter, and `RESET` keeps them. -/
theorem stepNeverChangesTheBuild : Obligations.StepNeverChangesTheBuild := by
  intro s t h
  obtain rfl | ⟨rest, slice, hmoves | rfl⟩ := step_moves h
  · rfl
  · exact hmoves.build_eq
  · rfl

/-! ### The traces (R41, R44, R45) and the sticky flag (R23) -/

/-- `t` is later than `s`: each trace goes on from where it was, and a byte once lost stays recorded. -/
structure Later (s t : State) : Prop where
  diagLog : s.bnd.diagLog <+: t.bnd.diagLog
  wireTx : s.bnd.wireTx <+: t.bnd.wireTx
  results : s.bnd.results <+: t.bnd.results
  recordLog : s.bnd.recordLog <+: t.bnd.recordLog
  wireRxCount : s.bnd.wireRxCount ≤ t.bnd.wireRxCount
  lost : s.hrq.lost = true → t.hrq.lost = true

theorem Later.trans {s t u : State} (h : Later s t) (h' : Later t u) : Later s u :=
  ⟨h.diagLog.trans h'.diagLog, h.wireTx.trans h'.wireTx, h.results.trans h'.results, h.recordLog.trans h'.recordLog,
    h.wireRxCount.trans h'.wireRxCount, h'.lost ∘ h.lost⟩

theorem Later.refl (s : State) : Later s s :=
  ⟨List.prefix_rfl, List.prefix_rfl, List.prefix_rfl, List.prefix_rfl, le_rfl, id⟩

/-- What writes neither the boundary nor HRQ. -/
theorem Later.of_bnd_eq {s t : State} (hbnd : t.bnd = s.bnd) (hlost : t.hrq.lost = s.hrq.lost) : Later s t := by
  have := Later.refl t
  exact ⟨hbnd ▸ this.diagLog, hbnd ▸ this.wireTx, hbnd ▸ this.results, hbnd ▸ this.recordLog, hbnd ▸ this.wireRxCount,
    fun h => hlost.trans h⟩

theorem later_pollReturn (c : ReceiveCode) (rx : Rx) (s : State) : Later s (pollReturn c { s with rx := rx }) :=
  ⟨List.prefix_rfl, List.prefix_rfl, List.prefix_append .., List.prefix_append .., le_rfl, id⟩

theorem later_feedStart (c : Ctl) (s : State) : Later s (feedStart { s with ctl := c }) :=
  ⟨by rw [feedStart_diagLog]; exact List.prefix_append .., by simp, by simp, by simp, by simp, by simp⟩

theorem later_feedMakeRoom (s : State) : Later s (feedMakeRoom s) := by
  by_cases hfull : s.rx.head = s.build.rxCap
  · rw [feedMakeRoom_of_full hfull]
    exact ⟨List.prefix_append .., List.prefix_rfl, List.prefix_rfl, List.prefix_rfl, le_rfl, id⟩
  · rw [feedMakeRoom_of_room hfull]; exact .refl s

theorem popEdge_lost {aw : Nat} {h h' : Hrq} {b : Byte} (hp : popEdge aw h = .next (b, h')) : h'.lost = h.lost := by
  obtain ⟨-, -, rfl⟩ := popEdge_eq_next.1 hp; rfl

theorem pushEdge_lost {aw : Nat} {h : Hrq} {b : Byte} (hl : h.lost = true) : (pushEdge aw b h).lost = true := by
  cases hf : hrqFull aw h
  · rw [pushEdge_of_room hf]; exact hl
  · rw [pushEdge_of_full hf]

theorem later_feedMoved {s : State} {b : Byte} {h : Hrq} (hp : popEdge s.build.hrqAw s.hrq = .next (b, h)) :
    Later s (feedMoved b h s) :=
  (later_feedMakeRoom s).trans (.of_bnd_eq rfl ((popEdge_lost hp).trans (by simp)))

theorem later_rxToken (s : State) : Later s (rxToken s) := by
  rw [rxToken_eq]
  exact ⟨List.prefix_append .., List.prefix_rfl, List.prefix_rfl, List.prefix_rfl, le_rfl, id⟩

theorem RxLine.later {s t : State} (h : RxLine s t) : Later s t := by
  cases h with
  | feedStarts => exact (later_feedStart s.ctl s).trans (.of_bnd_eq rfl rfl)
  | innerFeedStarts => exact (later_feedStart (pollLock s).ctl s).trans (.of_bnd_eq rfl rfl)
  | feedMoves _ hpop => exact later_feedMoved hpop
  | noData | scanEnds => exact later_pollReturn _ s.rx s
  | token => exact later_rxToken s
  | lenL b _ _ _ hfits => rw [rxLenL_of_fits hfits]; exact .of_bnd_eq rfl rfl
  | oversized b _ _ _ hover => rw [rxLenL_of_oversized hover]; exact later_pollReturn _ _ s
  | bodyGoesOn => exact later_pollReturn _ _ s
  | delivers =>
    rw [rxDeliver_eq]
    exact ⟨List.prefix_append .., List.prefix_rfl, List.prefix_append .., List.prefix_append .., le_rfl, id⟩
  | _ => exact .of_bnd_eq rfl rfl

theorem RxEvent.later {sound : Prop} {s t : State} (h : RxEvent sound s t) : Later s t := by
  cases h with
  | tickStarts => exact later_feedStart _ s
  | feedMoves _ hpop => exact later_feedMoved hpop
  | push b =>
    exact ⟨List.prefix_rfl, List.prefix_rfl, List.prefix_rfl, List.prefix_rfl, Nat.le_succ _, pushEdge_lost⟩
  | _ => exact .of_bnd_eq rfl rfl

theorem later_drainOnce {s u : State} {n : Nat} (h : drainOnce s = .next (u, n)) : Later s u := by
  obtain ⟨bytes, hu⟩ := drainOnce_writes_tx h
  rw [hu]
  exact ⟨List.prefix_rfl, List.prefix_rfl, List.prefix_rfl, List.prefix_rfl, le_rfl, id⟩

theorem later_respond (r : Response) (s : State) : Later s (respond r s) :=
  ⟨List.prefix_rfl, List.prefix_rfl, List.prefix_append .., List.prefix_rfl, le_rfl, id⟩

/-- What writes of the traces none, as the clearing of the diagnostic text does. -/
theorem later_diagBuf (x : List Byte) (s : State) : Later s { s with bnd := { s.bnd with diagBuf := x } } :=
  ⟨List.prefix_rfl, List.prefix_rfl, List.prefix_rfl, List.prefix_rfl, le_rfl, id⟩

theorem later_enqueueRecord {r : Record} {s u : State} {c : EnqueueCode} (h : enqueueRecord r s = .next (u, c)) :
    Later s u := by
  rw [enqueueRecord_writes_tx h]; exact .of_bnd_eq rfl rfl

theorem TxChange.later {s t : State} (h : TxChange s t) : Later s t := by
  cases h with
  | line h =>
    cases h with
    | drains _ _ h => exact later_drainOnce h
    | writes =>
      rw [emitWrite_eq]
      exact ⟨List.prefix_rfl, List.prefix_rfl, List.prefix_rfl, List.prefix_rfl, le_rfl, id⟩
    | drained | ends => exact .of_bnd_eq rfl rfl
  | enqueues _ h => exact (later_enqueueRecord h).trans (later_respond _ _)
  | diagEnqueues _ h => exact ((later_enqueueRecord h).trans (later_diagBuf [] _)).trans (later_respond _ _)
  | drains _ h => exact (later_drainOnce h).trans (later_respond _ _)
  | appends x => exact (later_diagBuf _ s).trans (later_respond _ _)
  | emitBegins => exact ⟨List.prefix_rfl, List.prefix_rfl, List.prefix_rfl, List.prefix_rfl, le_rfl, id⟩
  | sinkPops => exact ⟨List.prefix_rfl, List.prefix_append .., List.prefix_rfl, List.prefix_rfl, le_rfl, id⟩
  | answers => exact .of_bnd_eq rfl rfl

theorem LinesBegin.later {s t : State} (h : LinesBegin s t) : Later s t := by
  cases h <;> exact .of_bnd_eq rfl rfl

theorem Moves.later {s t : State} (h : Moves s t) : Later s t := by
  refine h.induct (P := Later s) ?_ ?_ ?_ ?_ (.refl s)
  · exact fun _ _ hu hv => hu.trans hv.later
  · exact fun _ _ hu hv => hu.trans hv.later
  · exact fun _ _ hu hv => hu.trans hv.later
  · exact fun _ _ hu hv => hu.trans hv.later

/-- Settles O56: every change lets the traces grow at their end and keeps the flag. -/
theorem tracesOnlyGrow : Obligations.TracesOnlyGrow := fun _ _ h =>
  have hl := h.later
  ⟨hl.diagLog, hl.wireTx, hl.results, hl.recordLog, hl.wireRxCount, hl.lost⟩

/-! ### The record (R33) -/

theorem feedIsMains_iff {s : State} : feedIsMains s = true ↔ s.ctl.main = .feedRun ∨ s.ctl.main = .pollFeed := by
  simp [feedIsMains]

/-- A line is one of a `FEED` or `POLL_RECEIVE` in progress. -/
theorem RxLine.receivePhase_eq_true {s t : State} (h : RxLine s t) : receivePhase s.ctl.main = true := by
  cases h with
  | feedMoves hm => obtain hm | hm := feedIsMains_iff.1 hm <;> rw [hm] <;> rfl
  | feedStarts hm | innerFeedStarts hm | pollStarts hm | feedEnds hm | innerFeedEnds hm | strayFeedEnds hm
  | strayInnerFeedEnds hm | noData hm | scanStarts hm | scanEnds hm | token hm | skip hm | lenH _ hm | lenL _ hm
  | oversized _ hm | bodyGoesOn hm | delivers hm => rw [hm]; rfl

/-- With no command in progress there is no line. -/
theorem RxLine.main_ne_idle {s t : State} (h : RxLine s t) : s.ctl.main ≠ .idle := fun hm => by
  have := h.receivePhase_eq_true
  rw [hm] at this; cases this

/-- R142: a line that answers a response returns from `POLL_RECEIVE`. -/
theorem RxLine.results_eq {s t : State} (h : RxLine s t) :
    t.bnd.results = s.bnd.results ∨ t.ctl.main = .idle ∧ ∃ c, t.bnd.results = s.bnd.results ++ [.pollReceive c] := by
  cases h with
  | noData | scanEnds | bodyGoesOn => exact .inr ⟨rfl, _, rfl⟩
  | oversized b _ _ _ hover => rw [rxLenL_of_oversized hover]; exact .inr ⟨rfl, _, rfl⟩
  | delivers => rw [rxDeliver_eq]; exact .inr ⟨rfl, _, rfl⟩
  | feedStarts | innerFeedStarts | feedMoves | token => exact .inl (by simp)
  | lenL b _ _ _ hfits => rw [rxLenL_of_fits hfits]; exact .inl rfl
  | _ => exact .inl rfl

/-- R33, R149: the record changes in a delivery that decodes. -/
theorem RxLine.record_eq {s t : State} (h : RxLine s t) : t.rx.record = s.rx.record ∨
    t.ctl.main = .idle ∧ ∃ p r, decodePayload s.build p = .ok r ∧ t.rx.record = some r ∧
      t.bnd.results = s.bnd.results ++ [.pollReceive .packetReceived] := by
  cases h with
  | delivers =>
    rename_i payload _ _ _ _ _
    obtain ⟨r, hok, hrec, -, hres⟩ | ⟨_, -, hrec, -⟩ :=
      rxDeliver_cases payload { s with rx := { s.rx with tail := payloadEnd s } }
    · exact .inr ⟨by rw [rxDeliver_eq]; rfl, payload, r, hok, hrec, hres⟩
    · exact .inl hrec
  | oversized b _ _ _ hover => rw [rxLenL_of_oversized hover]; exact .inl rfl
  | lenL b _ _ _ hfits => rw [rxLenL_of_fits hfits]; exact .inl rfl
  | feedStarts | innerFeedStarts | feedMoves | token => exact .inl (by simp)
  | _ => exact .inl rfl

theorem RxEvent.record_eq {sound : Prop} {s t : State} (h : RxEvent sound s t) : t.rx.record = s.rx.record := by
  cases h with
  | tickStarts | feedMoves => simp
  | _ => rfl

/-- Along the lines of one command the record stays, and so do the results until the command returns; or a delivery has
decoded the record and returned. -/
def RecordDecoded (s u : State) : Prop :=
  u.build = s.build ∧
  ((u.rx.record = s.rx.record ∧ (u.ctl.main ≠ .idle → u.bnd.results = s.bnd.results)) ∨
    u.ctl.main = .idle ∧ ∃ p r, decodePayload s.build p = .ok r ∧ u.rx.record = some r ∧
      u.bnd.results = s.bnd.results ++ [.pollReceive .packetReceived])

theorem RecordDecoded.line {s u v : State} (hu : RecordDecoded s u) (h : RxLine u v) : RecordDecoded s v := by
  obtain ⟨hbuild, ⟨hrec, hres⟩ | ⟨hidle, -⟩⟩ := hu
  · refine ⟨h.txKept.build.trans hbuild, ?_⟩
    have hres := hres h.main_ne_idle
    obtain hsame | ⟨hidle, hdec⟩ := h.record_eq
    · refine .inl ⟨hsame.trans hrec, fun hm => ?_⟩
      obtain hsame | ⟨hidle, -⟩ := h.results_eq
      · exact hsame.trans hres
      · exact absurd hidle hm
    · rw [hbuild, hres] at hdec
      exact .inr ⟨hidle, hdec⟩
  · exact absurd hidle h.main_ne_idle

theorem record_eq_of_runFeed {s t : State} (h : runFeed s = .next t) : t.rx.record = s.rx.record :=
  chain_induct (P := fun u => u.rx.record = s.rx.record) (fun _ _ hu hv => hv.record_eq.trans hu) rfl (rxEvents_of_runFeed h)

/-- Settles O32: of all changes only a delivery writes the record, and it ends its command. -/
theorem recordChangesOnlyByDecode : Obligations.RecordChangesOnlyByDecode := by
  refine ⟨fun s t h hne => ?_, fun s t => record_eq_of_runFeed⟩
  obtain ⟨u, hu, hchain⟩ | hchain | hchain := h.changes
  · have hstart : RecordDecoded s u := by cases hu <;> exact ⟨rfl, .inl ⟨rfl, fun _ => rfl⟩⟩
    obtain ⟨-, ⟨hrec, -⟩ | ⟨-, hdec⟩⟩ := chain_induct (P := RecordDecoded s) (fun _ _ hu => hu.line) hstart hchain
    · exact absurd hrec hne
    · exact hdec
  · exact absurd (chain_induct (P := fun u => u.rx.record = s.rx.record)
      (fun _ _ hu hv => hv.record_eq.trans hu) rfl hchain) hne
  · exact absurd (congrArg Rx.record (rxKept_of_txChanges hchain).rx) hne

/-! ### The diagnostic events (R191) -/

/-- Between `s` and `t` the trace grew by events of which `p` holds. -/
def Logged (p : DiagEvent → Prop) (s t : State) : Prop := ∃ new, t.bnd.diagLog = s.bnd.diagLog ++ new ∧ ∀ e ∈ new, p e

namespace Logged

variable {p q : DiagEvent → Prop} {s t u : State}

theorem of_eq (h : t.bnd.diagLog = s.bnd.diagLog) : Logged p s t := ⟨[], by simp [h], by simp⟩

theorem of_one {e : DiagEvent} (h : t.bnd.diagLog = s.bnd.diagLog ++ [e]) (he : p e) : Logged p s t :=
  ⟨[e], h, by simpa using he⟩

theorem trans (h : Logged p s t) (h' : Logged p t u) : Logged p s u := by
  obtain ⟨new, ht, hp⟩ := h
  obtain ⟨new', hu, hp'⟩ := h'
  refine ⟨new ++ new', by rw [hu, ht, List.append_assoc], fun e he => ?_⟩
  obtain he | he := List.mem_append.1 he
  · exact hp e he
  · exact hp' e he

theorem mono (h : Logged p s t) (hpq : ∀ e, p e → q e) : Logged q s t := by
  obtain ⟨new, ht, hp⟩ := h
  exact ⟨new, ht, fun e he => hpq e (hp e he)⟩

end Logged

/-- R123: the watermark test. -/
theorem logged_feedStart (c : Ctl) (s : State) :
    Logged (· = .insufficientReceiveRate) s (feedStart { s with ctl := c }) := by
  refine ⟨_, feedStart_diagLog _, fun e he => ?_⟩
  split at he
  · simpa using he
  · simp at he

/-- R125: the overflow. -/
theorem logged_feedMoved (b : Byte) (h : Hrq) (s : State) :
    Logged (· = .incomingDataRateTooFast) s (feedMoved b h s) := by
  by_cases hfull : s.rx.head = s.build.rxCap
  · exact .of_one (e := .incomingDataRateTooFast) (by rw [feedMoved_bnd, feedMakeRoom_of_full hfull]; simp) rfl
  · exact .of_eq (by rw [feedMoved_bnd, feedMakeRoom_of_room hfull])

theorem logged_rxToken (s : State) : Logged (· = .previousPacketIncomplete) s (rxToken s) := by
  refine ⟨_, rxToken_diagLog s, fun e he => ?_⟩
  split at he
  · simp at he
  · simpa using he

theorem logged_rxDeliver (payload : List Byte) (s : State) :
    Logged (fun e => framingEvent e = true ∧ e ≠ .previousPacketIncomplete) s (rxDeliver payload s) := by
  obtain ⟨_, -, -, hlog, -⟩ | ⟨e, -, -, hlog, -⟩ := rxDeliver_cases payload s
  · exact .of_eq hlog
  · exact .of_one hlog ⟨rfl, by simp⟩

theorem framingEvent_of_mayRaiseFrom {mode : FeedMode} {e : DiagEvent} {m : MainPhase} (h : m = .pollScan)
    (he : framingEvent e = true) : mayRaiseFrom mode e m = true := by
  rw [h]; exact he

/-- R191: the events of a line are among those of the command from the line at which it stands. -/
theorem RxLine.logged {s t : State} (h : RxLine s t) :
    Logged (fun e => mayRaiseFrom s.build.feedMode e s.ctl.main = true) s t := by
  cases h with
  | feedStarts hm =>
    refine (logged_feedStart s.ctl s).mono ?_
    rintro e rfl; rw [hm]; rfl
  | innerFeedStarts hm _ hmode =>
    refine (logged_feedStart (pollLock s).ctl s).mono ?_
    rintro e rfl; rw [hm, hmode]; rfl
  | feedMoves hm =>
    refine (logged_feedMoved _ _ s).mono ?_
    rintro e rfl
    obtain hm | hm := feedIsMains_iff.1 hm <;> rw [hm] <;> rfl
  | token hm =>
    refine (logged_rxToken s).mono ?_
    rintro e rfl; exact framingEvent_of_mayRaiseFrom hm rfl
  | lenL b _ _ _ hfits => rw [rxLenL_of_fits hfits]; exact .of_eq rfl
  | oversized b _ _ _ hover => rw [rxLenL_of_oversized hover]; exact .of_eq rfl
  | delivers hm =>
    exact (logged_rxDeliver _ _).mono fun e he => framingEvent_of_mayRaiseFrom hm he.1
  | _ => exact .of_eq rfl

/-- R191: a line leads to lines from which no other events come. -/
theorem RxLine.mayRaiseFrom_of {s t : State} (h : RxLine s t) {e : DiagEvent}
    (he : mayRaiseFrom s.build.feedMode e t.ctl.main = true) : mayRaiseFrom s.build.feedMode e s.ctl.main = true := by
  cases h with
  | feedStarts hm =>
    obtain rfl : e = .incomingDataRateTooFast := by simpa [mayRaiseFrom] using he
    rw [hm]; rfl
  | innerFeedStarts hm _ hmode =>
    have he : framingEvent e = true ∨ e = .incomingDataRateTooFast := by simpa [mayRaiseFrom] using he
    rw [hm, hmode]
    obtain he | rfl := he
    · simp [mayRaiseFrom, he]
    · rfl
  | feedMoves => rwa [feedMoved_ctl] at he
  | pollStarts hm | innerFeedEnds hm | strayInnerFeedEnds hm =>
    have he : framingEvent e = true := he
    rw [hm]; simp [mayRaiseFrom, he]
  | scanStarts hm => rw [hm]; exact he
  | token => rwa [rxToken_ctl] at he
  | skip | lenH => exact he
  | lenL b _ _ _ hfits => rw [rxLenL_of_fits hfits] at he; exact he
  | oversized b _ _ _ hover => rw [rxLenL_of_oversized hover] at he; cases he
  | delivers => rw [rxDeliver_eq] at he; cases he
  | feedEnds | strayFeedEnds | noData | scanEnds | bodyGoesOn => cases he

theorem logged_of_rxLines {s t : State} (h : ReflTransGen RxLine s t) :
    Logged (fun e => mayRaiseFrom s.build.feedMode e s.ctl.main = true) s t := by
  refine (chain_induct (P := fun u => u.build = s.build ∧
      (∀ e, mayRaiseFrom s.build.feedMode e u.ctl.main = true → mayRaiseFrom s.build.feedMode e s.ctl.main = true) ∧
      Logged (fun e => mayRaiseFrom s.build.feedMode e s.ctl.main = true) s u) ?_ ⟨rfl, fun _ => id, .of_eq rfl⟩ h).2.2
  rintro u v ⟨hbuild, hmay, hlog⟩ hv
  have hvlog := hv.logged
  rw [hbuild] at hvlog
  refine ⟨hv.txKept.build.trans hbuild, fun e he => hmay e ?_, hlog.trans (hvlog.mono hmay)⟩
  rw [← hbuild] at he ⊢
  exact hv.mayRaiseFrom_of he

/-- R123, R125: the lines of a `FEED` that has started raise the overflow alone. -/
theorem logged_of_feedLines {n : Nat} {s t : State} (h : feedLines n s = .next t) :
    Logged (· = .incomingDataRateTooFast) s t := by
  refine feedLines_induct (P := Logged (· = .incomingDataRateTooFast) s) (fun u v hu _ hl => hu.trans ?_) n s t (.of_eq rfl) h
  obtain ⟨-, rfl⟩ | ⟨-, b, q, -, -, rfl⟩ := feedLine_ends_or_moves hl
  · exact .of_eq rfl
  · exact logged_feedMoved _ _ u

theorem logged_of_runFeed {s t : State} (h : runFeed s = .next t) : Logged (· = .incomingDataRateTooFast) s t := by
  rw [runFeed] at h
  split at h
  · exact Host.Outcome.next.inj h ▸ .of_eq rfl
  · exact logged_of_feedLines h

theorem logged_of_feedTick {s t : State} (h : exec .feedTick s = .next t) : Logged (feedEvent · = true) s t := by
  cases hen : feedTickEnabled s
  · exact Host.Outcome.next.inj ((exec_feedTick_of_disabled hen).symm.trans h) ▸ .of_eq rfl
  · rw [exec_feedTick_eq hen] at h
    refine ((logged_feedStart _ s).mono ?_).trans ((logged_of_feedLines h).mono ?_)
    · rintro e rfl; rfl
    · rintro e rfl; rfl

/-- R191: a pop as a step of its own raises no event, as it does not come to the overflow's reset. -/
theorem logged_of_hrqPop {p : DiagEvent → Prop} {s t : State} (h : onPop s = .next t) : Logged p s t := by
  cases he : hrqEmpty s.hrq
  case true => rw [onPop_of_empty he] at h; cases h
  case false =>
    cases hp : popIsNext s
    · rw [onPop_of_other he hp] at h
      exact Host.Outcome.next.inj h ▸ .of_eq rfl
    · rw [onPop_of_next he hp, feedLine_of_popIsNext hp] at h
      obtain ⟨_, -, h⟩ := andThen_eq_next.1 h
      obtain ⟨u, hu, h⟩ := andThen_eq_next.1 h
      obtain ⟨_, _, -, -, rfl⟩ := feedMove_eq_next.1 hu
      exact Host.Outcome.next.inj h ▸ .of_eq rfl

theorem wirePushAll_diagLog (bs : List Byte) (s : State) : (wirePushAll bs s).bnd.diagLog = s.bnd.diagLog := by
  induction bs generalizing s with
  | nil => rfl
  | cons b bs ih => exact ih (wirePush b s)

/-- R191: the events of a byte class. -/
theorem logged_of_byteClass {mode : FeedMode} {i : Instr} (b : Byte) {s t : State}
    (hi : i = .rxbToken ∨ i = .rxbSkip b ∨ i = .rxbLenH b ∨ i = .rxbLenL b ∨ i = .rxbBody b)
    (h : exec i s = .next t) : Logged (mayRaise mode · i = true) s t := by
  cases hen : rxbEnabled i s
  case false => rw [exec_of_rxbDisabled hi hen] at h; exact Host.Outcome.next.inj h ▸ .of_eq rfl
  case true =>
    obtain rfl | rfl | rfl | rfl | rfl := hi
    · rw [exec_rxbToken_of_enabled hen] at h
      refine Host.Outcome.next.inj h ▸ (logged_rxToken s).mono ?_
      rintro e rfl; rfl
    · rw [exec_rxbSkip_of_enabled hen] at h; exact Host.Outcome.next.inj h ▸ .of_eq rfl
    · rw [exec_rxbLenH_of_enabled hen] at h; exact Host.Outcome.next.inj h ▸ .of_eq rfl
    · rw [exec_rxbLenL_of_enabled hen] at h
      obtain hover | hfits := Nat.lt_or_ge s.build.rxCap (setLengthLow s.rx.messageLength b).toNat
      · rw [rxLenL_of_oversized hover] at h; exact Host.Outcome.next.inj h ▸ .of_eq rfl
      · rw [rxLenL_of_fits hfits] at h; exact Host.Outcome.next.inj h ▸ .of_eq rfl
    · rw [exec_rxbBody_of_enabled hen] at h
      obtain ⟨-, rfl⟩ | ⟨-, payload, -, rfl⟩ := rxBody_cases h
      · exact .of_eq rfl
      · refine (logged_rxDeliver payload { s with rx := { s.rx with tail := payloadEnd s } }).mono fun e he => ?_
        simpa [mayRaise] using he

theorem logged_of_runCommand {m : MainPhase} (hm : m = .feedWait ∨ m = .pollWait) {s t : State}
    (h : whenReady (runCommand m) s = .next t) :
    Logged (fun e => mayRaiseFrom s.build.feedMode e m = true) s t := by
  cases hb : s.ctl.mainBusy
  · rw [whenReady_of_ready hb] at h
    have hphase : transmitPhase (acceptCommand m s).ctl.main = false := by obtain rfl | rfl := hm <;> rfl
    exact logged_of_rxLines (rxLines_of_mainLines hphase h)
  · rw [whenReady_of_busy hb] at h
    exact Host.Outcome.next.inj h ▸ .of_eq rfl

/-- R191, operation by operation. -/
theorem logged_of_exec {i : Instr} {s t : State} (hi : i ≠ .reset) (h : exec i s = .next t) :
    Logged (mayRaise s.build.feedMode · i = true) s t := by
  cases i with
  | nop | hrqWsync | hrqRsync | hrqAvail | hrqPush _ => exact Host.Outcome.next.inj h ▸ .of_eq rfl
  | frame payload => exact Host.Outcome.next.inj h ▸ .of_eq (wirePushAll_diagLog _ s)
  | tick =>
    cases hmode : s.build.feedMode
    · exact Host.Outcome.next.inj ((exec_tick_of_poll hmode).symm.trans h) ▸ .of_eq rfl
    · exact Host.Outcome.next.inj ((exec_tick_of_interrupt hmode).symm.trans h) ▸ .of_eq rfl
  | feed => exact logged_of_runCommand (.inl rfl) h
  | pollReceive => exact logged_of_runCommand (.inr rfl) h
  | rxbToken => exact logged_of_byteClass 0#8 (by simp) h
  | rxbSkip b | rxbLenH b | rxbLenL b | rxbBody b => exact logged_of_byteClass b (by simp) h
  | hrqPop => exact logged_of_hrqPop h
  | feedTick => exact logged_of_feedTick h
  | reset => exact absurd rfl hi
  | enqueue _ | drain | diagAppend _ | diagEnqueue | emitNow _ | sinkSpace | sinkWrite _ | sinkPop =>
    exact .of_eq (rxKept_of_exec rfl h).diagLog

/-- Settles O57: each operation by its own rule, and a resumed command by the line at which it stands. -/
theorem eventsComeFromTheirOperations : Obligations.EventsComeFromTheirOperations := by
  intro s t
  refine ⟨fun i => logged_of_exec, fun h => ?_, logged_of_runFeed⟩
  obtain ⟨-, hchain⟩ | ⟨-, hchain⟩ := changes_of_runMain h
  · exact logged_of_rxLines hchain
  · exact Logged.of_eq (p := fun e => mayRaiseFrom s.build.feedMode e s.ctl.main = true)
      (rxKept_of_txChanges (txChanges_of_txLines hchain)).diagLog

end Sys2Proof.Machine
end

section
/-! PROOFS of the family 30_encoding.md, continued: decoding is inverse to encoding on well-formed operations, and answers no others
(R70, R82, R84, R87). -/

namespace Sys2Proof

/-! ### Decoding an encoded operation -/

/-- R72: the two length bytes carry a length of 16 bits. -/
theorem lengthOf_lengthHi_lengthLo {n : Nat} (h : n ≤ 65535) : lengthOf (lengthHi n) (lengthLo n) = n := by
  simp only [lengthOf, lengthHi, lengthLo, BitVec.toNat_ofNat]
  omega

theorem lengthOf_le (hi lo : Byte) : lengthOf hi lo ≤ 65535 := by
  have := hi.isLt; have := lo.isLt
  rw [lengthOf]; omega

theorem decode_frame {c : DecodeCtx} {p : List Byte} (h : p.length ≤ 65535) :
    decode c (encode c (.frame p)) = .ok (.frame p) := by
  have hword : decode c (encode c (.frame p)) = decodeFrame c c.token (lengthHi p.length) (lengthLo p.length) p := rfl
  rw [hword, decodeFrame, lengthOf_lengthHi_lengthLo h]
  simp

/-- A byte class is decoded from the inspected byte (R82). -/
theorem decode_rxb (c : DecodeCtx) (b : Byte) (rest : List Byte) : decode c (portRxb :: b :: rest) = .ok (classify c b) := rfl

/-- Settles O1: a byte class by its row of R82, a frame by its length, and every other word as it is written. -/
theorem decodeEncodeRoundTrip : Obligations.DecodeEncodeRoundTrip := by
  rintro ⟨tok, st⟩ i hwf
  cases i with
  | rxbToken => exact (decode_rxb _ tok []).trans (congrArg _ (Machine.classify_startToken ⟨tok, st⟩))
  | rxbSkip b =>
    obtain ⟨hb, rfl⟩ : b ≠ tok ∧ st = .awaitStart := by simpa [Instr.wf] using hwf
    exact (decode_rxb _ b []).trans (congrArg _ (Machine.classify_awaitStart hb))
  | rxbLenH b =>
    obtain ⟨hb, rfl⟩ : b ≠ tok ∧ st = .lengthHigh := by simpa [Instr.wf] using hwf
    exact (decode_rxb _ b []).trans (congrArg _ (Machine.classify_lengthHigh hb))
  | rxbLenL b =>
    obtain ⟨hb, rfl⟩ : b ≠ tok ∧ st = .lengthLow := by simpa [Instr.wf] using hwf
    exact (decode_rxb _ b []).trans (congrArg _ (Machine.classify_lengthLow hb))
  | rxbBody b =>
    obtain ⟨hb, rfl⟩ : b ≠ tok ∧ st = .body := by simpa [Instr.wf] using hwf
    exact (decode_rxb _ b []).trans (congrArg _ (Machine.classify_body hb))
  | frame p => exact decode_frame (by simpa [Instr.wf] using hwf)
  | nop | feed | pollReceive | enqueue _ | drain | diagAppend _ | diagEnqueue | emitNow _ | hrqPush _ | hrqWsync | hrqRsync
  | hrqAvail | hrqPop | tick | feedTick | sinkSpace | sinkWrite _ | sinkPop | reset => rfl

/-- Settles O3: the words are short enough to be read by evaluation. -/
theorem decodeReadsSpecWords : Obligations.DecodeReadsSpecWords := ⟨rfl, rfl, rfl, rfl, rfl, rfl, rfl, rfl⟩

/-! ### What the decoder answers -/

theorem classify_wf (c : DecodeCtx) (b : Byte) : (classify c b).wf c = true := by
  obtain ⟨tok, st⟩ := c
  by_cases h : b = tok
  · rw [h]; exact (congrArg (Instr.wf _) (Machine.classify_startToken ⟨tok, st⟩)).trans rfl
  · cases st
    · simp [Machine.classify_awaitStart h, Instr.wf, h]
    · simp [Machine.classify_lengthHigh h, Instr.wf, h]
    · simp [Machine.classify_lengthLow h, Instr.wf, h]
    · simp [Machine.classify_body h, Instr.wf, h]

theorem decodeLevel_wf {c : DecodeCtx} {level bits : Byte} {i j : Instr} (hi : i.wf c = true)
    (h : decodeLevel level bits i = .ok j) : j.wf c = true := by
  unfold decodeLevel at h
  split at h
  · exact Except.ok.inj h ▸ hi
  · cases h

theorem decodeCmd_wf {c : DecodeCtx} {cmd : Byte} {arg : List Byte} {i : Instr} (h : decodeCmd cmd arg = .ok i) :
    i.wf c = true := by
  unfold decodeCmd at h
  repeat' split at h
  all_goals cases h <;> rfl

theorem decodeClkW_wf {c : DecodeCtx} {data valid : Byte} {i : Instr} (h : decodeClkW data valid = .ok i) :
    i.wf c = true := by
  unfold decodeClkW at h
  split at h
  · exact Except.ok.inj h ▸ rfl
  · split at h
    · exact Except.ok.inj h ▸ rfl
    · cases h

theorem decodeFrame_wf {c : DecodeCtx} {t hi lo : Byte} {p : List Byte} {i : Instr}
    (h : decodeFrame c t hi lo p = .ok i) : i.wf c = true := by
  unfold decodeFrame at h
  split at h
  · next hframe =>
    have hlen : p.length = lengthOf hi lo := by simpa using (Bool.and_eq_true_iff.1 hframe).2
    refine Except.ok.inj h ▸ ?_
    simp [Instr.wf, hlen, lengthOf_le]
  · cases h

section
variable {c : DecodeCtx} {p : Prop} [Decidable p] {x y : Except DecodeReject Instr} {i : Instr}

/-- One test of the port number. -/
theorem wf_of_ite (h : (if p then x else y) = .ok i) (hx : x = .ok i → i.wf c = true) (hy : y = .ok i → i.wf c = true) :
    i.wf c = true := by
  split at h
  · exact hx h
  · exact hy h

end

theorem decodePort_wf {c : DecodeCtx} {port : Byte} {w : List Byte} {i : Instr} (h : decode c (port :: w) = .ok i) :
    i.wf c = true := by
  refine wf_of_ite h (fun h => ?cmd) fun h => wf_of_ite h (fun h => ?clkW) fun h => wf_of_ite h (fun h => ?frame)
    fun h => ?strobe
  case cmd =>
    split at h
    · cases h
    · exact decodeCmd_wf h
  case clkW =>
    split at h
    · exact decodeClkW_wf h
    · cases h
  case frame =>
    split at h
    · exact decodeFrame_wf h
    · cases h
  case strobe =>
    cases w with
    | nil => exact wf_of_ite h (fun h => by cases h) fun h => by cases h
    | cons b rest =>
      refine wf_of_ite h (fun h => Except.ok.inj h ▸ classify_wf c b) fun h => ?_
      iterate 10 refine wf_of_ite h (decodeLevel_wf rfl) fun h => ?_
      cases h

/-- Settles O2: port by port, each with what its own decoder answers. -/
theorem decodedIsWellFormed : Obligations.DecodedIsWellFormed := by
  intro c w i h
  cases w with
  | nil => cases h
  | cons port w => exact decodePort_wf h

end Sys2Proof
end

section
/-! PROOFS of the schedule and of the reset: the turns of a step (R11, R48, R84), operations that are no step (log 11), and the state after
reset (R47, R240, R241). -/

namespace Sys2Proof.Machine

/-! ### The turns of a step -/

theorem step_of_wf {s : State} (h : s.build.wf = true) : step s = runTurn s := if_pos h

/-- Settles O52: the turn is taken and the decoded operation runs. -/
theorem stepRunsTheDecodedOperation : Obligations.StepRunsTheDecodedOperation := by
  intro s word slice rest i hwf hturn hdecode
  have hword : runWord word (takeTurn rest slice s) = exec i (takeTurn rest slice s) := by
    have hctx : decode (decodeCtx (takeTurn rest slice s)) word = .ok i := hdecode
    rw [runWord, hctx]
  rw [step_of_wf hwf, runTurn, hturn]
  exact hword

/-- Settles O53: one case for each kind of turn, and the test before them. -/
theorem stepTakesTheNextTurn : Obligations.StepTakesTheNextTurn := by
  intro s slice rest
  refine ⟨?main, ?feed, ?reject, ?none, ?outOfRange⟩
  case main => intro hwf hturn; rw [step_of_wf hwf, runTurn, hturn]; rfl
  case feed => intro hwf hturn; rw [step_of_wf hwf, runTurn, hturn]; rfl
  case reject =>
    intro hwf word why hturn hdecode
    have hword : runWord word (takeTurn rest slice s) = .refused (.notAnOperation why) := by
      have hctx : decode (decodeCtx (takeTurn rest slice s)) word = .error why := hdecode
      rw [runWord, hctx]
    rw [step_of_wf hwf, runTurn, hturn]
    exact hword
  case none => intro hwf hturn; rw [step_of_wf hwf, runTurn, hturn]
  case outOfRange => intro hwf; rw [step, hwf]; rfl

/-! ### Operations that are no step (log 11) -/

/-- R108, R125: with no `FEED` in progress, or with `rx_buf` full, no pop comes next. -/
theorem exec_hrqPop_of_other {s : State} (he : hrqEmpty s.hrq = false)
    (h : s.ctl.feedActive = false ∨ s.rx.head = s.build.rxCap) : exec .hrqPop s = .next s := by
  have hnext : popIsNext s = false := by obtain h | h := h <;> simp [popIsNext, h]
  exact onPop_of_other he hnext

theorem exec_sinkPop_of_nil {s : State} (h : s.bnd.sinkQ = []) : exec .sinkPop s = .next s := by simp [exec, execSinkPop, h]

/-- Settles O54: each operation by the test that stands before its effect. -/
theorem operationOutOfTurnIsNoStep : Obligations.OperationOutOfTurnIsNoStep := by
  intro s r t
  refine ⟨fun hb => ?busy, fun i b hi => exec_of_rxbDisabled hi, exec_feedTick_of_disabled, exec_hrqPop_of_other,
    fun bytes => onWrite_of_other, exec_sinkPop_of_nil⟩
  case busy =>
    exact ⟨exec_of_busy (by simp) hb, exec_of_busy (by simp) hb, exec_of_busy (by simp) hb, exec_of_busy (by simp) hb,
      exec_of_busy (by simp) hb, exec_of_busy (by simp) hb, exec_of_busy (by simp) hb⟩

/-! ### The reset (R47, R240, R241) -/

theorem exec_reset (s : State) :
    exec .reset s = .next { State.resetOf s.build with agenda := s.agenda, slice := s.slice } := rfl

/-- Settles O47: the reset state, register by register. -/
theorem resetLeavesTheResetState : Obligations.ResetLeavesTheResetState := fun s =>
  ⟨_, exec_reset s, rfl, ⟨rfl, rfl, rfl, rfl⟩, rfl, rfl, rfl, rfl, rfl, ⟨rfl, rfl, rfl, rfl, rfl, rfl, rfl, rfl⟩, rfl, rfl,
    ⟨rfl, rfl, rfl, rfl⟩, rfl, rfl, rfl, rfl, rfl, rfl, rfl⟩

/-- The counts behind the registers after reset: nothing was accepted or popped. -/
def zeroCounts : HrqCounts := { r2 := 0, r1 := 0, r := 0, w2 := 0, w1 := 0, w := 0 }

theorem hrqMatches_resetOf (b : Build) : HrqMatches b.hrqAw (State.resetOf b).hrq zeroCounts where
  r2_le := le_rfl
  r1_le := le_rfl
  r_le := le_rfl
  w2_le := le_rfl
  w1_le := le_rfl
  w_le := Nat.zero_le _
  wbin := (Nat.zero_mod _).symm
  wgray := (congrArg gray (Nat.zero_mod _)).symm
  wq1 := (congrArg gray (Nat.zero_mod _)).symm
  wq2 := (congrArg gray (Nat.zero_mod _)).symm
  rbin := (Nat.zero_mod _).symm
  rgray := (congrArg gray (Nat.zero_mod _)).symm
  rq1 := (congrArg gray (Nat.zero_mod _)).symm
  rq2 := (congrArg gray (Nat.zero_mod _)).symm
  written := fun j hj => absurd hj (Nat.not_lt_zero j)
  memWf := rfl
  memWithin := by simp [State.resetOf]

theorem inv_resetOf {b : Build} (h : b.wf = true) : Inv (State.resetOf b) where
  build := h
  hrq := ⟨_, hrqMatches_resetOf b⟩
  rx := by constructor <;> simp [State.resetOf, Memory.wf]
  tx := by constructor <;> simp [State.resetOf, Memory.wf]
  ctl := by constructor <;> simp [State.resetOf, pollHoldsLock, feedIsMains]
  bnd := by constructor <;> simp [State.resetOf]

/-- Before the first frame there is none (R49 (g)). -/
theorem wholeFrames_of_empty {s : State} (h : s.tx.head = 0) : WholeFrames s := ⟨[], by simp, by rw [h]; rfl⟩

/-- Settles O48: the zero counts stand behind the registers, and every memory is empty. -/
theorem resetMeetsTheInvariant : Obligations.ResetMeetsTheInvariant :=
  ⟨fun _ h => ⟨inv_resetOf h, wholeFrames_of_empty rfl⟩, by decide, fun s => ⟨exec_reset s, fun _ => ⟨rfl, rfl, rfl, rfl⟩⟩⟩

end Sys2Proof.Machine
end

section
/-! PROOFS of the families 41 to 44 and 60, continued: the lines of a command one by one, commands that wait (R121, R141, R215),
refused encodings (R171, R196), a fitting `ENQUEUE` (R173), the sink (R182, R183), and the table of R150. -/

namespace Sys2Proof.Machine

/-! ### One line of the command in progress, by the line at which it stands -/

section
variable {s : State}

theorem mainLine_feedWait_of_held (hm : s.ctl.main = .feedWait) (h : s.ctl.feedActive = true ∨ s.ctl.rxLock = true) :
    mainLine s = .next s := by
  rw [mainLine, hm]; exact if_pos (by simpa using h)

theorem mainLine_feedWait (hm : s.ctl.main = .feedWait) (hno : s.ctl.feedActive = false) (hlock : s.ctl.rxLock = false) :
    mainLine s = .next (setMain .feedRun (feedStart s)) := by
  rw [mainLine, hm]; exact if_neg (by simp [hno, hlock])

theorem mainLine_pollWait_of_held (hm : s.ctl.main = .pollWait) (h : s.ctl.feedActive = true) : mainLine s = .next s := by
  rw [mainLine, hm]; exact if_pos h

theorem mainLine_pollWait_of_poll (hm : s.ctl.main = .pollWait) (hno : s.ctl.feedActive = false)
    (hmode : s.build.feedMode = .poll) : mainLine s = .next (setMain .pollFeed (feedStart (pollLock s))) := by
  simp [mainLine, hm, hno, hmode]

theorem mainLine_pollWait_of_interrupt (hm : s.ctl.main = .pollWait) (hno : s.ctl.feedActive = false)
    (hmode : s.build.feedMode = .interrupt) : mainLine s = .next (setMain .pollTest (pollLock s)) := by
  simp [mainLine, hm, hno, hmode]

theorem mainLine_pollFeed (hm : s.ctl.main = .pollFeed) :
    mainLine s = andThen (feedLine s) fun u => .next (if u.ctl.feedActive then u else setMain .pollTest u) := by
  simp [mainLine, hm]

theorem mainLine_pollTest_of_none (hm : s.ctl.main = .pollTest) (h : s.rx.tail = s.rx.head) :
    mainLine s = .next (pollReturn .noDataAvailable s) := by
  rw [mainLine, hm]; exact if_pos h

theorem mainLine_pollTest_of_some (hm : s.ctl.main = .pollTest) (h : s.rx.tail ≠ s.rx.head) :
    mainLine s = .next (setMain .pollScan s) := by
  rw [mainLine, hm]; exact if_neg h

theorem mainLine_pollScan (hm : s.ctl.main = .pollScan) : mainLine s = scanLine s := by
  rw [mainLine, hm]

theorem mainLine_emitDrain {packet : List Byte} (hm : s.ctl.main = .emitDrain packet) (h : s.tx.tail < s.tx.head) :
    mainLine s = andThen (drainOnce s) fun p => .next p.1 := by
  rw [mainLine, hm]; exact if_pos h

theorem mainLine_emitDrain_of_drained {packet : List Byte} (hm : s.ctl.main = .emitDrain packet)
    (h : ¬ s.tx.tail < s.tx.head) : mainLine s = .next (setMain (.emitSend packet) s) := by
  rw [mainLine, hm]; exact if_neg h

theorem mainLine_emitSend {rest : List Byte} (hm : s.ctl.main = .emitSend rest) (h : rest ≠ []) :
    mainLine s = .next (emitWrite rest s) := by
  rw [mainLine, hm]; exact if_neg h

theorem mainLine_emitSend_nil (hm : s.ctl.main = .emitSend []) : mainLine s = .next (commandDone s) := by
  rw [mainLine, hm]; exact if_pos rfl

theorem scanLine_of_none (h : s.rx.head ≤ s.rx.tail) : scanLine s = .next (pollReturn .inProgress s) :=
  if_neg (Nat.not_lt.2 h)

theorem scanLine_of_some {b : Byte} (hsome : s.rx.tail < s.rx.head) (hcap : s.rx.head ≤ s.build.rxCap)
    (hb : memGet s.rx.buf s.rx.tail = some b) : scanLine s = rxIterate b s := by
  have hread : memRead .rxBuf s.build.rxCap s.rx.buf s.rx.tail = .next b := memRead_eq_next.2 ⟨hsome.trans_le hcap, hb⟩
  rw [scanLine, if_pos hsome, hread, andThen_next]

/-- A line that changes nothing leaves its command where it is, however many lines are granted (R196, R227). -/
theorem mainLines_of_spin (h : mainLine s = .next s) (n : Nat) : mainLines n s = .next s := by
  induction n with
  | zero => rfl
  | succ n ih =>
    rw [mainLines, h, andThen_next, ih]
    exact ite_self _

/-- One line granted (log 10). -/
theorem mainLines_one (hb : s.ctl.mainBusy = true) : mainLines 1 s = mainLine s := by
  rw [mainLines_of_busy hb]
  cases mainLine s <;> rfl

end

/-! ### Commands that wait for the feeder (R121, R141), and the held tick (R215) -/

theorem exec_pollReceive (s : State) : exec .pollReceive s = execPollReceive s := rfl

/-- A `FEED` or `POLL_RECEIVE` that is accepted and waits. -/
theorem runCommand_of_spin {m : MainPhase} {s : State} (hready : s.ctl.mainBusy = false)
    (h : mainLine (acceptCommand m s) = .next (acceptCommand m s)) :
    whenReady (runCommand m) s = .next { s with ctl := { s.ctl with mainBusy := true, main := m } } := by
  rw [whenReady_of_ready hready]
  exact mainLines_of_spin h _

/-- Settles O17: the first line of either command spins while a `FEED` is in progress. -/
theorem commandsWaitForTheFeeder : Obligations.CommandsWaitForTheFeeder := fun _ hready hactive =>
  ⟨runCommand_of_spin hready (mainLine_feedWait_of_held rfl (.inl hactive)),
    runCommand_of_spin hready (mainLine_pollWait_of_held rfl hactive)⟩

/-- Settles O19: the lock stops the tick-started `FEED`, and the return leaves every other condition of its trigger standing. -/
theorem tickDuringPollIsHeld : Obligations.TickDuringPollIsHeld := by
  intro s c hmode hlock hno
  refine ⟨_, exec_tick_of_interrupt hmode, exec_feedTick_of_disabled ?_, feedTickEnabled_iff.2 ?_⟩
  · simp [feedTickEnabled, hlock]
  · exact ⟨hmode, rfl, if_pos hmode, rfl, hno⟩

/-! ### The table of R150 -/

/-- Settles O31: the byte classes, each with its row; the length against `RX_CAP`, and the payload's end against the bytes buffered. -/
theorem framingTransitions : Obligations.FramingTransitions := by
  intro s t b h
  obtain ⟨hb, rfl⟩ | ⟨hb, hst, rfl⟩ | ⟨hb, hst, rfl⟩ | ⟨hb, hst, rfl⟩ | ⟨hb, hst, hbody⟩ := rxIterate_cases h
  · exact ⟨by rw [if_pos hb]; rfl, fun _ => rxToken_diagLog s, fun hne => absurd hb hne⟩
  · exact ⟨by rw [if_neg hb, hst]; exact hst, fun he => absurd he hb, fun _ hl => absurd hl (by simp [hst])⟩
  · exact ⟨by rw [if_neg hb, hst]; rfl, fun he => absurd he hb, fun _ hl => absurd hl (by simp [hst])⟩
  · refine ⟨?_, fun he => absurd he hb, fun _ _ hover => by rw [rxLenL_of_oversized hover]; rfl⟩
    rw [if_neg hb, hst]
    obtain hover | hfits := Nat.lt_or_ge s.build.rxCap (setLengthLow s.rx.messageLength b).toNat
    · rw [rxLenL_of_oversized hover]; exact (if_neg (Nat.not_le.2 hover)).symm
    · rw [rxLenL_of_fits hfits]; exact (if_pos hfits).symm
  · refine ⟨?_, fun he => absurd he hb, fun _ hl => absurd hl (by simp [hst])⟩
    rw [if_neg hb, hst]
    obtain ⟨hlt, rfl⟩ | ⟨hle, payload, -, rfl⟩ := rxBody_cases hbody
    · exact hst.trans (if_pos hlt).symm
    · rw [rxDeliver_eq]; exact (if_neg (Nat.not_lt.2 hle)).symm

/-! ### `ENQUEUE`, `DIAG_ENQUEUE` and `EMIT_NOW` with an `encode` error (R171, R196) -/

theorem enqueueRecord_of_other {r : Record} {s : State} {c : Nat} (h : encodeRecord s.build r = .other c) :
    enqueueRecord r s = .refused (.encodeErrorNotDescribed c) := by simp [enqueueRecord, h]

theorem emitPrepare_of_ok {x p : List Byte} {s : State} (h : encodeRecord s.build (emitRecord x s) = .ok p) :
    emitPrepare x s = .next (emitBegun p s) := by
  have henc : encodeRecord (diagAppendText x s).1.build
      (diagRecord (diagAppendText x s).1.build (diagAppendText x s).1.bnd.diagBuf) = .ok p := h
  have hscratch := scratchPayload_eq_next (s := diagClear (diagAppendText x s).1).2
    ⟨.inr (encodeRecord_ok_length henc), rfl⟩
  simp only [emitPrepare, henc, hscratch, andThen_next]
  rfl

theorem emitPrepare_of_failure {x : List Byte} {s : State} (h : ∀ p, encodeRecord s.build (emitRecord x s) ≠ .ok p) :
    emitPrepare x s = .refused .emitNowEncodeFailed := by
  have henc (p : List Byte) : encodeRecord (diagAppendText x s).1.build
      (diagRecord (diagAppendText x s).1.build (diagAppendText x s).1.bnd.diagBuf) ≠ .ok p := h p
  simp only [emitPrepare]
  cases hr : encodeRecord (diagAppendText x s).1.build
      (diagRecord (diagAppendText x s).1.build (diagAppendText x s).1.bnd.diagBuf) with
  | ok p => exact absurd hr (henc p)
  | didNotFit => rfl
  | other c => rfl

/-- Settles O35: the shared `ENQUEUE` and the lines before the packet refuse, and so do their commands. -/
theorem encodeErrorsAreRefused : Obligations.EncodeErrorsAreRefused := by
  intro s hready
  refine ⟨fun r c h => ?enqueue, fun c h => ?diagEnqueue, fun t h => ?emitNow⟩
  case enqueue => rw [exec_enqueue_of_ready hready, enqueueRecord_of_other h, andThen_refused]
  case diagEnqueue =>
    rw [exec_diagEnqueue_of_ready hready, diagEnqueueRecord, enqueueRecord_of_other h, andThen_refused, andThen_refused]
  case emitNow => rw [exec_emitNow_of_ready hready, emitPrepare_of_failure h, andThen_refused]

/-! ### An `ENQUEUE` that fits (R173) -/

/-- R72: the frame's header by the two halves of the length. -/
theorem frameBytes_eq (tok : Byte) (p : List Byte) :
    frameBytes tok p = tok :: BitVec.ofNat 8 (p.length / 256) :: BitVec.ofNat 8 (p.length % 256) :: p := by
  have hlow : BitVec.ofNat 8 (p.length % 256) = BitVec.ofNat 8 p.length :=
    BitVec.eq_of_toNat_eq (by simp only [BitVec.toNat_ofNat]; omega)
  rw [hlow]; rfl

/-- Settles O33: the whole frame, and the payload left in `enc_scratch`, cell by cell. -/
theorem enqueueWritesAWholeFrame : Obligations.EnqueueWritesAWholeFrame := by
  intro s r p hready henc hroom
  refine ⟨memSetRun s.tx.buf s.tx.head (frameBytes s.build.startToken p), memSetRun s.tx.encScratch 0 p, ?next,
    fun a => ?frame, fun a => ?scratch⟩
  case next => rw [exec_enqueue_of_ready hready, enqueueRecord_of_room henc hroom]; rfl
  case frame => rw [memGet_memSetRun, frameBytes_length, frameBytes_eq]
  case scratch => rw [memGet_memSetRun]; simp

/-! ### The sink (R182, R183) -/

theorem drop_length_take (k : Nat) (l : List Byte) : l.drop (l.take k).length = l.drop k := by
  obtain h | h := Nat.le_total k l.length
  · rw [List.length_take_of_le h]
  · rw [List.take_of_length_le h, List.drop_length, List.drop_eq_nil_of_le h]

/-- The bytes that `DRAIN` hands over are those the sink takes of all that is buffered. -/
theorem Inv.txPending_take {s : State} (hi : Inv s) :
    (txPending s).take (sinkSpace s) = (txPending s).take (min (sinkSpace s) (s.tx.head - s.tx.tail)) ∧
    ((txPending s).take (sinkSpace s)).length = min (sinkSpace s) (s.tx.head - s.tx.tail) := by
  obtain ⟨hlen, -⟩ := memReadRun_eq_next.1 hi.txPending_read
  refine ⟨?_, by rw [List.length_take, hlen]⟩
  rw [← hlen, take_min_length]

/-- Settles O37: the two lines of an `EMIT_NOW` that write, each as the write that comes next. -/
theorem sinkTakesWhatFits : Obligations.SinkTakesWhatFits := by
  intro s bytes
  refine ⟨rfl, rfl, fun rest hm hne hbytes => ?send, fun packet hi hm hlt hbytes => ?drain⟩
  case send =>
    have hnext : nextWrite s = some bytes := nextWrite_eq_some.2 (.inr ⟨rest, hm, hne, hbytes⟩)
    refine (onWrite_of_next hnext).trans ?_
    rw [mainLine_emitSend hm hne, andThen_next, emitWrite_eq, hbytes, drop_length_take]
    rfl
  case drain =>
    obtain ⟨htake, hlen⟩ := hi.txPending_take
    have hbytes : bytes = (txPending s).take (sinkSpace s) := hbytes
    have hread := memReadRun_take hi.txPending_read (k := min (sinkSpace s) (s.tx.head - s.tx.tail)) (Nat.min_le_right _ _)
    have hnext : nextWrite s = some bytes := nextWrite_eq_some.2 (.inl ⟨packet, hm, hlt, by rw [hread, hbytes, htake]⟩)
    refine (onWrite_of_next hnext).trans ?_
    rw [mainLine_emitDrain hm hlt, hi.drainOnce_eq rfl, andThen_next, andThen_next, txAdvance_eq, ← htake, ← hlen, ← hbytes]

end Sys2Proof.Machine
end

section
/-! PROOFS of the invariant (R25, R49, R216): every change of either side keeps each part of it, so every step keeps it (O49); and from a
state that meets it every line of an operation answers, so no step faults (O51). -/

namespace Sys2Proof.Machine

open Relation (ReflTransGen)

/-! ### HRQ's counts (R105, R109, R111) -/

namespace HrqMatches

variable {aw : Nat} {h : Hrq} {c : HrqCounts} (hm : HrqMatches aw h c)
include hm

/-- R111: the write domain's samples of the reader, one edge newer. -/
theorem wsync : HrqMatches aw (wsyncEdge h) { c with r2 := c.r1, r1 := c.r } :=
  { hm with
    r2_le := hm.r1_le
    r1_le := le_rfl
    w_le := hm.w_le.trans (Nat.add_le_add_right hm.r2_le _)
    wq1 := hm.rgray
    wq2 := hm.wq1 }

/-- R109: the read domain's samples of the writer, one edge newer. -/
theorem rsync : HrqMatches aw (rsyncEdge h) { c with w2 := c.w1, w1 := c.w } :=
  { hm with
    r_le := hm.r_le.trans hm.w2_le
    w2_le := hm.w1_le
    w1_le := le_rfl
    rq1 := hm.wgray
    rq2 := hm.rq1 }

/-- R105: a byte that is dropped leaves the counts to the edge. -/
theorem push_of_full {b : Byte} (hf : hrqFull aw h = true) :
    HrqMatches aw (pushEdge aw b h) { c with r2 := c.r1, r1 := c.r } := by
  rw [pushEdge_of_full hf]
  exact { hm.wsync with }

/-- The cell that a push writes, by the count of bytes accepted. -/
theorem wbin_mod : h.wbin % 2 ^ aw = c.w % 2 ^ aw := by
  rw [hm.wbin, Nat.mod_mod_of_dvd _ (Nat.pow_dvd_pow 2 (Nat.le_succ aw))]

/-- R105: a byte that is stored is one more byte accepted. -/
theorem push_of_room {b : Byte} (haw : 1 ≤ aw) (hf : hrqFull aw h = false) :
    HrqMatches aw (pushEdge aw b h) { c with r2 := c.r1, r1 := c.r, w := c.w + 1 } := by
  have hne : c.w ≠ c.r2 + 2 ^ aw := fun heq => by simp [(hm.hrqFull_iff haw).2 heq] at hf
  have hsucc : wrapSucc (aw + 1) h.wbin = (c.w + 1) % 2 ^ (aw + 1) := by rw [wrapSucc, hm.wbin, Nat.mod_add_mod]
  rw [pushEdge_of_room hf]
  refine { hm.wsync with
    w1_le := hm.w1_le.trans (Nat.le_succ _)
    w_le := ?_
    wbin := hsucc
    wgray := congrArg gray hsucc
    written := fun j hj => ?_
    memWf := memSet_wf hm.memWf _ _
    memWithin := memSet_within (Nat.mod_lt _ (Nat.two_pow_pos aw)) hm.memWithin }
  · have := hm.w_le; have := hm.r2_le
    dsimp only; omega
  · dsimp only at hj ⊢
    rw [memGet_memSet, hm.wbin_mod]
    split
    · rfl
    · next hcell =>
      refine hm.written j (lt_of_le_of_ne (by omega) fun hlast => hcell ?_)
      rw [hlast, Nat.add_sub_cancel' hm.r_le_w]

end HrqMatches

theorem HrqInv.push {aw : Nat} {h : Hrq} (b : Byte) (haw : 1 ≤ aw) (hi : HrqInv aw h) : HrqInv aw (pushEdge aw b h) := by
  obtain ⟨c, hm⟩ := hi
  cases hf : hrqFull aw h
  · exact ⟨_, hm.push_of_room haw hf⟩
  · exact ⟨_, hm.push_of_full hf⟩

theorem HrqInv.wsync {aw : Nat} {h : Hrq} (hi : HrqInv aw h) : HrqInv aw (wsyncEdge h) :=
  let ⟨_, hm⟩ := hi; ⟨_, hm.wsync⟩

theorem HrqInv.rsync {aw : Nat} {h : Hrq} (hi : HrqInv aw h) : HrqInv aw (rsyncEdge h) :=
  let ⟨_, hm⟩ := hi; ⟨_, hm.rsync⟩

/-! ### The receive state (R49 (a) to (d)) -/

namespace RxInv

/-- With no byte buffered and no frame open. -/
theorem emptied {b : Build} {rx : Rx} (hi : RxInv b rx) (len : Len16) :
    RxInv b { rx with messageLength := len, tail := 0, head := 0, state := .awaitStart, active := false } :=
  { hi with
    tail_le := le_rfl
    head_le := Nat.zero_le _
    written := fun a ha => absurd ha (Nat.not_lt_zero a)
    bodyStart := fun hst => by cases hst
    bodyEnd := fun hst => by cases hst
    bodyLength := fun hst => by cases hst
    active := rfl }

/-- One more byte behind the buffered ones (R124). -/
theorem store {b : Build} {rx : Rx} (hi : RxInv b rx) (x : Byte) (hroom : rx.head < b.rxCap) :
    RxInv b { rx with buf := memSet rx.buf rx.head x, head := rx.head + 1 } :=
  { hi with
    memWf := memSet_wf hi.memWf _ _
    memWithin := memSet_within hroom hi.memWithin
    tail_le := hi.tail_le.trans (Nat.le_succ _)
    head_le := hroom
    written := fun a ha => by
      dsimp only at ha ⊢
      rw [memGet_memSet]
      split
      · rfl
      · exact hi.written a (by omega) }

variable {s : State} (hi : RxInv s.build s.rx)
include hi

theorem feedMakeRoom : RxInv s.build (feedMakeRoom s).rx := by
  by_cases hfull : s.rx.head = s.build.rxCap
  · rw [feedMakeRoom_of_full hfull]; exact hi.emptied s.rx.messageLength
  · rw [feedMakeRoom_of_room hfull]; exact hi

theorem feedMoved {b : Byte} {h : Hrq} (hroom : (Machine.feedMakeRoom s).rx.head < s.build.rxCap) :
    RxInv s.build (feedMoved b h s).rx := hi.feedMakeRoom.store b hroom

theorem rxToken (hsome : s.rx.tail < s.rx.head) : RxInv s.build (rxToken s).rx := by
  rw [rxToken_eq]
  exact { hi with
    tail_le := hsome
    bodyStart := fun hst => by cases hst
    bodyEnd := fun hst => by cases hst
    bodyLength := fun hst => by cases hst
    active := rfl }

theorem rxSkip (hsome : s.rx.tail < s.rx.head) (hst : s.rx.state = .awaitStart) : RxInv s.build (rxSkip s).rx :=
  { hi with
    tail_le := hsome
    bodyStart := fun h => absurd h (by simp [hst])
    bodyEnd := fun h => absurd h (by simp [hst])
    bodyLength := fun h => absurd h (by simp [hst]) }

/-- In a frame the indicator is up (R32). -/
theorem active_of_open (hst : s.rx.state ≠ .awaitStart) : s.rx.active = true := hi.active.trans (by simp [hst])

theorem rxLenH {b : Byte} (hsome : s.rx.tail < s.rx.head) (hst : s.rx.state = .lengthHigh) :
    RxInv s.build (rxLenH b s).rx :=
  { hi with
    tail_le := hsome
    bodyStart := fun hst => by cases hst
    bodyEnd := fun hst => by cases hst
    bodyLength := fun hst => by cases hst
    active := hi.active_of_open (by simp [hst]) }

theorem rxLenL {b : Byte} (hsome : s.rx.tail < s.rx.head) (hst : s.rx.state = .lengthLow)
    (hfits : (setLengthLow s.rx.messageLength b).toNat ≤ s.build.rxCap) : RxInv s.build (rxLenL b s).rx := by
  rw [rxLenL_of_fits hfits]
  exact { hi with
    tail_le := hsome
    start_le := le_trans (Nat.succ_le_of_lt hsome) hi.head_le
    bodyStart := fun _ => le_rfl
    bodyEnd := fun _ => Nat.le_add_right _ _
    bodyLength := fun _ => hfits
    active := hi.active_of_open (by simp [hst]) }

theorem bodyGoesOn (hst : s.rx.state = .body) (hlt : s.rx.head < payloadEnd s) :
    RxInv s.build { s.rx with tail := s.rx.head } :=
  { hi with
    tail_le := le_rfl
    bodyStart := fun _ => (hi.bodyStart hst).trans hi.tail_le
    bodyEnd := fun _ => hlt.le }

theorem delivers (payload : List Byte) (hle : payloadEnd s ≤ s.rx.head) :
    RxInv s.build (rxDeliver payload { s with rx := { s.rx with tail := payloadEnd s } }).rx := by
  rw [rxDeliver_eq]
  by_cases hdrained : payloadEnd s = s.rx.head
  · simp only [hdrained, if_true]
    exact { hi.emptied s.rx.messageLength with }
  · simp only [hdrained, if_false]
    exact { hi with
      tail_le := hle
      bodyStart := fun hst => by cases hst
      bodyEnd := fun hst => by cases hst
      bodyLength := fun hst => by cases hst
      active := rfl }

end RxInv

/-! ### The transmit state (R49 (e), (f)) -/

namespace TxInv

variable {b : Build} {tx : Tx}

theorem with_scratch (hi : TxInv b tx) {m : Memory} (hwf : Memory.wf m = true) (hin : ∀ x ∈ m, x.1 < b.encScratchCap) :
    TxInv b { tx with encScratch := m } := { hi with scratchWf := hwf, scratchWithin := hin }

/-- R50: `enc_scratch` holds a payload that `encode` answered. -/
theorem with_payload (hi : TxInv b tx) {r : Record} {p : List Byte} (h : encodeRecord b r = .ok p) :
    TxInv b { tx with encScratch := memSetRun tx.encScratch 0 p } :=
  hi.with_scratch (memSetRun_wf hi.scratchWf 0 p)
    (memSetRun_within (by have := encodeRecord_ok_length h; omega) hi.scratchWithin)

/-- R173: a frame behind the buffered bytes. -/
theorem with_frame (hi : TxInv b tx) {bs : List Byte} (hne : bs ≠ []) (hroom : tx.head + bs.length ≤ b.txCap) :
    TxInv b { tx with buf := memSetRun tx.buf tx.head bs, head := tx.head + bs.length } :=
  { hi with
    memWf := memSetRun_wf hi.memWf _ _
    memWithin := memSetRun_within hroom hi.memWithin
    tail_le := hi.tail_le.trans (Nat.le_add_right _ _)
    head_le := hroom
    written := fun a ha => by
      dsimp only at ha ⊢
      rw [memGet_memSetRun]
      split
      · next hin => rw [List.getElem?_eq_getElem (by omega)]; rfl
      · exact hi.written a (by omega)
    recycled := fun heq => by
      have := hi.tail_le; have := List.length_pos_iff.2 hne
      dsimp only at heq; omega }

/-- R177: the sink took `w` of the buffered bytes. -/
theorem advance (hi : TxInv b tx) {w : Nat} (hw : w ≤ tx.head - tx.tail) :
    TxInv b { tx with
      tail := if tx.tail + w = tx.head then 0 else tx.tail + w
      head := if tx.tail + w = tx.head then 0 else tx.head } := by
  have htail := hi.tail_le
  by_cases hdrained : tx.tail + w = tx.head
  · simp only [hdrained, if_true]
    exact { hi with
      tail_le := le_rfl
      head_le := Nat.zero_le _
      written := fun a ha => absurd ha (Nat.not_lt_zero a)
      recycled := fun _ => rfl }
  · simp only [hdrained, if_false]
    exact { hi with tail_le := by dsimp only; omega, recycled := fun heq => absurd heq hdrained }

end TxInv

theorem txInv_enqueueRecord {r : Record} {s u : State} {c : EnqueueCode} (hi : TxInv s.build s.tx)
    (h : enqueueRecord r s = .next (u, c)) : TxInv u.build u.tx := by
  obtain ⟨-, hx⟩ | ⟨p, henc, ⟨-, hx⟩ | ⟨hroom, hx⟩⟩ := enqueueRecord_cases h <;> obtain ⟨rfl, -⟩ := Prod.mk.inj hx
  · exact hi.with_scratch rfl (by simp)
  · exact hi.with_payload henc
  · have hlen := frameBytes_length s.build.startToken p
    have hframe := hi.with_frame (bs := frameBytes s.build.startToken p) (by simp [frameBytes]) (by omega)
    rw [hlen] at hframe
    exact hframe.with_payload henc

/-- What `DRAIN` writes, with its count (R175 to R177). -/
theorem drainOnce_advances {s u : State} {n : Nat} (h : drainOnce s = .next (u, n)) :
    ∃ bytes, bytes.length = min (sinkSpace s) (s.tx.head - s.tx.tail) ∧
      u = { s with
        tx := { s.tx with
          tail := if s.tx.tail + bytes.length = s.tx.head then 0 else s.tx.tail + bytes.length
          head := if s.tx.tail + bytes.length = s.tx.head then 0 else s.tx.head }
        bnd := { s.bnd with sinkQ := s.bnd.sinkQ ++ bytes } } := by
  obtain ⟨bytes, -, hlen, hu, -⟩ := drainOnce_eq_next h
  rw [txAdvance_eq] at hu
  exact ⟨bytes, hlen, hu⟩

theorem txInv_drainOnce {s u : State} {n : Nat} (hi : TxInv s.build s.tx) (h : drainOnce s = .next (u, n)) :
    TxInv u.build u.tx := by
  obtain ⟨bytes, hlen, rfl⟩ := drainOnce_advances h
  exact hi.advance (by omega)

theorem TxChange.txInv {s t : State} (hi : TxInv s.build s.tx) (h : TxChange s t) : TxInv t.build t.tx := by
  cases h with
  | line h =>
    cases h with
    | drains _ _ h => exact txInv_drainOnce hi h
    | writes => rw [emitWrite_eq]; exact hi
    | drained | ends => exact hi
  | enqueues _ h | diagEnqueues _ h => exact (txInv_enqueueRecord hi h :)
  | drains _ h => exact (txInv_drainOnce hi h :)
  | emitBegins _ h => exact hi.with_payload h
  | appends | sinkPops | answers => exact hi

/-! ### The boundary (R42, R43) -/

theorem sinkQ_drainOnce {s u : State} {n : Nat} (hi : s.bnd.sinkQ.length ≤ s.build.sinkCap)
    (h : drainOnce s = .next (u, n)) : u.bnd.sinkQ.length ≤ u.build.sinkCap := by
  obtain ⟨bytes, hlen, rfl⟩ := drainOnce_advances h
  simp only [List.length_append, hlen, sinkSpace]
  omega

theorem BoundaryInv.of_eq {s t : State} (hi : BoundaryInv s) (hbuild : t.build = s.build) (hsink : t.bnd.sinkQ = s.bnd.sinkQ)
    (hdiag : t.bnd.diagBuf = s.bnd.diagBuf) : BoundaryInv t :=
  ⟨by rw [hbuild, hsink]; exact hi.sink, by rw [hbuild, hdiag]; exact hi.diag⟩

theorem boundaryInv_drainOnce {s u : State} {n : Nat} (hi : BoundaryInv s) (h : drainOnce s = .next (u, n)) :
    BoundaryInv u := by
  refine ⟨sinkQ_drainOnce hi.sink h, ?_⟩
  obtain ⟨bytes, -, rfl⟩ := drainOnce_advances h
  exact hi.diag

theorem TxChange.boundaryInv {s t : State} (hmarker : s.build.truncMarker.length ≤ s.build.diagCap)
    (hi : BoundaryInv s) (h : TxChange s t) : BoundaryInv t := by
  have hempty : ([] : List Byte).length ≤ s.build.diagCap := Nat.zero_le _
  cases h with
  | line h =>
    cases h with
    | drains _ _ h => exact boundaryInv_drainOnce hi h
    | writes =>
      rw [emitWrite_eq]
      refine ⟨?_, hi.diag⟩
      have := hi.sink
      simp only [List.length_append, List.length_take, sinkSpace]
      omega
    | drained | ends => exact hi.of_eq rfl rfl rfl
  | enqueues _ h => rw [enqueueRecord_writes_tx h]; exact hi.of_eq rfl rfl rfl
  | diagEnqueues _ h => rw [enqueueRecord_writes_tx h]; exact ⟨hi.sink, hempty⟩
  | drains _ h => exact (boundaryInv_drainOnce hi h).of_eq rfl rfl rfl
  | appends => exact ⟨hi.sink, appendText_length_le hmarker⟩
  | emitBegins => exact ⟨hi.sink, hempty⟩
  | sinkPops h =>
    refine ⟨?_, hi.diag⟩
    have := hi.sink
    rw [h, List.length_cons] at this
    dsimp only; omega
  | answers => exact hi.of_eq rfl rfl rfl

/-! ### The control state (R38, R39, R216) -/

namespace CtlInv

variable {s t : State} (hi : CtlInv s)

/-- The clauses of a control state that stands outside the feeding and the sending of a command. -/
theorem of_parts (hbusy : t.ctl.mainBusy = (t.ctl.main != .idle)) (hlock : t.ctl.rxLock = pollHoldsLock t.ctl.main)
    (hfeeds : feedIsMains t = false) (hscan : t.ctl.main = .pollTest ∨ t.ctl.main = .pollScan → t.ctl.feedActive = false)
    (henable : t.ctl.feedIe = !(t.build.feedMode == .interrupt && t.ctl.rxLock))
    (htick : t.build.feedMode = .poll → t.ctl.feedPending = false)
    (hidle : t.build.feedMode = .poll → t.ctl.feedActive = false)
    (hsend : ∀ rest, t.ctl.main = .emitSend rest → t.tx.tail = t.tx.head) : CtlInv t where
  busy := hbusy
  lock := hlock
  mainFeeds h := absurd h (by simp [hfeeds])
  innerFeed h := absurd (feedIsMains_of_pollFeed h) (by simp [hfeeds])
  scanning := hscan
  enable := henable
  pollNoTick := htick
  pollFeeds hmode h := absurd h (by simp [hidle hmode])
  emitSends := hsend

include hi

theorem of_eq (hbuild : t.build = s.build) (hctl : t.ctl = s.ctl)
    (htx : s.tx.tail = s.tx.head → t.tx.tail = t.tx.head) : CtlInv t where
  busy := by rw [hctl]; exact hi.busy
  lock := by rw [hctl]; exact hi.lock
  mainFeeds := by rw [feedIsMains, hctl]; exact hi.mainFeeds
  innerFeed := by rw [hbuild, hctl]; exact hi.innerFeed
  scanning := by rw [hctl]; exact hi.scanning
  enable := by rw [hbuild, hctl]; exact hi.enable
  pollNoTick := by rw [hbuild, hctl]; exact hi.pollNoTick
  pollFeeds := by rw [feedIsMains, hbuild, hctl]; exact hi.pollFeeds
  emitSends rest := by rw [hctl]; exact fun hm => htx (hi.emitSends rest hm)

theorem main_eq_idle (hready : s.ctl.mainBusy = false) : s.ctl.main = .idle := by
  have := hi.busy; simpa [hready] using this

theorem busy_of_main {m : MainPhase} (hm : s.ctl.main = m) (hne : m ≠ .idle) : s.ctl.mainBusy = true :=
  hi.busy.trans (by simpa [hm] using hne)

theorem rxLock_of_main {m : MainPhase} (hm : s.ctl.main = m) : s.ctl.rxLock = pollHoldsLock m := hi.lock.trans (by rw [hm])

/-- R9, R216: where no command feeds, no `FEED` runs in `POLL` mode. -/
theorem no_feed_of_poll {m : MainPhase} (hm : s.ctl.main = m) (hne : m ≠ .feedRun ∧ m ≠ .pollFeed)
    (hmode : s.build.feedMode = .poll) : s.ctl.feedActive = false := by
  have hno : ¬ feedIsMains s = true := by rw [feedIsMains_iff, hm]; tauto
  by_contra h
  exact hno (hi.pollFeeds hmode (by simpa using h))

/-- R142: the interrupt is enabled while nobody holds the lock. -/
theorem feedIe_of_unlocked (h : s.ctl.rxLock = false) : s.ctl.feedIe = true := by
  have := hi.enable; simpa [h] using this

/-- R142: every return of `POLL_RECEIVE`. -/
theorem pollReturn (hm : s.ctl.main = .pollTest ∨ s.ctl.main = .pollScan) (c : ReceiveCode) (u : State)
    (hbuild : u.build = s.build) (hctl : u.ctl = s.ctl) : CtlInv (pollReturn c u) := by
  have hno := hi.scanning hm
  refine .of_parts rfl rfl rfl (fun _ => ?_) ?_ (fun hmode => ?_) (fun _ => ?_) fun _ h => by cases h
  · exact (congrArg Ctl.feedActive hctl).trans hno
  · have henable := hi.enable
    rw [pollReturn_ctl_feedIe, hbuild, hctl, henable]
    cases s.build.feedMode <;> simp
  · exact (congrArg Ctl.feedPending hctl).trans (hi.pollNoTick ((congrArg Build.feedMode hbuild).symm.trans hmode))
  · exact (congrArg Ctl.feedActive hctl).trans hno

/-- The command in progress moves to a line outside the feeding and the loop of `POLL_RECEIVE`, where nobody holds the lock. -/
theorem to_main {m : MainPhase} {b : Bool} (hlock : s.ctl.rxLock = false) (hidle : s.build.feedMode = .poll → s.ctl.feedActive = false)
    (hb : b = (m != .idle)) (hm : receivePhase m = false ∨ m = .feedWait ∨ m = .pollWait)
    (hsend : ∀ rest, m = .emitSend rest → s.tx.tail = s.tx.head) :
    CtlInv { s with ctl := { s.ctl with mainBusy := b, main := m } } := by
  have hfree : pollHoldsLock m = false ∧ m ≠ .feedRun ∧ m ≠ .pollFeed ∧ m ≠ .pollTest ∧ m ≠ .pollScan := by
    obtain h | rfl | rfl := hm
    · cases m <;> simp_all [receivePhase, pollHoldsLock]
    · simp [pollHoldsLock]
    · simp [pollHoldsLock]
  obtain ⟨hholds, hrun, hinner, htest, hscan⟩ := hfree
  refine .of_parts hb (hlock.trans hholds.symm) (by simp [feedIsMains, hrun, hinner]) (fun h => ?_) hi.enable hi.pollNoTick
    hidle hsend
  obtain h | h := h
  · exact absurd h htest
  · exact absurd h hscan

/-- The command stays, and a `FEED` of the tick's starts or ends, or a tick is latched. -/
theorem with_feed {a p : Bool} (hfeeds : feedIsMains s = true → a = true) (hlock : a = true → s.ctl.rxLock = true → s.ctl.feedActive = true)
    (hpoll : s.build.feedMode = .poll → p = false ∧ (a = true → feedIsMains s = true)) :
    CtlInv { s with ctl := { s.ctl with feedActive := a, feedPending := p } } where
  busy := hi.busy
  lock := hi.lock
  mainFeeds := hfeeds
  innerFeed := hi.innerFeed
  scanning hm := by
    have hno := hi.scanning hm
    have hheld : s.ctl.rxLock = true := hi.lock.trans (by obtain h | h := hm <;> rw [show s.ctl.main = _ from h] <;> rfl)
    dsimp only
    by_contra h
    simpa [hno] using hlock (by simpa using h) hheld
  enable := hi.enable
  pollNoTick hmode := (hpoll hmode).1
  pollFeeds hmode := (hpoll hmode).2
  emitSends := hi.emitSends

/-- The command in progress comes to its `FEED` (R120, R141 (2)). -/
theorem to_feed {m : MainPhase} {l : Bool} (hm : m = .feedRun ∨ m = .pollFeed) (hbusy : s.ctl.mainBusy = true)
    (hl : l = pollHoldsLock m) (hinner : m = .pollFeed → s.build.feedMode = .poll) (hunlocked : s.ctl.rxLock = false) :
    CtlInv { s with ctl := { s.ctl with main := m, rxLock := l, feedActive := true } } where
  busy := by obtain rfl | rfl := hm <;> exact hbusy
  lock := hl
  mainFeeds _ := rfl
  innerFeed := hinner
  scanning h := by obtain rfl | rfl := hm <;> simp at h
  enable := by
    have henable := hi.feedIe_of_unlocked hunlocked
    obtain rfl | rfl := hm
    · simp [henable, hl, pollHoldsLock]
    · simp [henable, hinner rfl]
  pollNoTick := hi.pollNoTick
  pollFeeds _ _ := feedIsMains_iff.2 hm
  emitSends _ h := by obtain rfl | rfl := hm <;> cases h

/-- `POLL_RECEIVE` holds the lock and no longer feeds (R141 (3), R143). -/
theorem to_scan {m : MainPhase} {e : Bool} (hm : m = .pollTest ∨ m = .pollScan) (hbusy : s.ctl.mainBusy = true)
    (he : e = !(s.build.feedMode == .interrupt)) :
    CtlInv { s with ctl := { s.ctl with main := m, rxLock := true, feedIe := e, feedActive := false } } := by
  have hholds : pollHoldsLock m = true := by obtain rfl | rfl := hm <;> rfl
  refine .of_parts ?_ hholds.symm ?_ (fun _ => rfl) (by simpa using he) hi.pollNoTick (fun _ => rfl) fun rest h => ?_
  · obtain rfl | rfl := hm <;> exact hbusy
  · obtain rfl | rfl := hm <;> rfl
  · obtain rfl | rfl := hm <;> cases h

end CtlInv

theorem feedStart_ctl (s : State) : (feedStart s).ctl = { s.ctl with feedActive := true } := by
  simp only [feedStart]; split <;> rfl

theorem RxLine.ctlInv {s t : State} (hi : CtlInv s) (h : RxLine s t) : CtlInv t := by
  cases h with
  | feedStarts hm hno hlock =>
    have hfeed := hi.to_feed (m := .feedRun) (l := s.ctl.rxLock) (.inl rfl) (hi.busy_of_main hm (by simp)) hlock (by simp) hlock
    exact hfeed.of_eq (by simp) (congrArg (fun c : Ctl => { c with main := .feedRun }) (feedStart_ctl s)) (by simp)
  | innerFeedStarts hm hno hmode =>
    have hlock := hi.rxLock_of_main hm
    have hfeed := hi.to_feed (m := .pollFeed) (l := true) (.inr rfl) (hi.busy_of_main hm (by simp)) rfl (fun _ => hmode) hlock
    refine hfeed.of_eq (by simp) ?_ (by simp)
    have hlocked : (pollLock s).ctl = { s.ctl with rxLock := true } := by simp [pollLock, hmode]
    refine (congrArg (fun c : Ctl => { c with main := .pollFeed }) (feedStart_ctl (pollLock s))).trans ?_
    rw [hlocked]
  | pollStarts hm hno hmode =>
    have hscan := hi.to_scan (m := .pollTest) (e := false) (.inl rfl) (hi.busy_of_main hm (by simp)) (by simp [hmode])
    refine hscan.of_eq rfl ?_ id
    simp [setMain, pollLock, hmode, ← hno]
  | feedMoves => exact hi.of_eq (by simp) (by simp) (by simp)
  | feedEnds hm =>
    have hlock := hi.rxLock_of_main hm
    refine .of_parts rfl hlock rfl (by simp) ?_ hi.pollNoTick (fun _ => rfl) (by simp)
    exact hi.enable
  | innerFeedEnds hm =>
    have hlock := hi.rxLock_of_main hm
    have hscan := hi.to_scan (m := .pollTest) (e := s.ctl.feedIe) (.inl rfl) (hi.busy_of_main hm (by simp))
      (by rw [hi.enable, hlock]; simp [pollHoldsLock])
    refine hscan.of_eq rfl ?_ id
    simp [setMain, feedEnd, hlock, pollHoldsLock]
  | strayFeedEnds hm hno => exact absurd (hi.mainFeeds (feedIsMains_of_feedRun hm)) (by simp [hno])
  | strayInnerFeedEnds hm hno => exact absurd (hi.mainFeeds (feedIsMains_of_pollFeed hm)) (by simp [hno])
  | noData hm => exact hi.pollReturn (.inl hm) _ s rfl rfl
  | scanStarts hm =>
    have hlock := hi.rxLock_of_main hm
    have hscan := hi.to_scan (m := .pollScan) (e := s.ctl.feedIe) (.inr rfl) (hi.busy_of_main hm (by simp))
      (by rw [hi.enable, hlock]; simp [pollHoldsLock])
    refine hscan.of_eq rfl ?_ id
    simp [setMain, hlock, pollHoldsLock, ← hi.scanning (.inl hm)]
  | scanEnds hm => exact hi.pollReturn (.inr hm) _ s rfl rfl
  | token => exact hi.of_eq (by simp) (by simp) (by simp)
  | skip | lenH => exact hi.of_eq rfl rfl id
  | lenL b _ _ _ hfits => rw [rxLenL_of_fits hfits]; exact hi.of_eq rfl rfl id
  | oversized b hm _ _ hover => rw [rxLenL_of_oversized hover]; exact hi.pollReturn (.inr hm) _ _ rfl rfl
  | bodyGoesOn hm => exact hi.pollReturn (.inr hm) _ _ rfl rfl
  | delivers hm =>
    rw [rxDeliver_eq]
    exact (hi.pollReturn (.inr hm) .inProgress s rfl rfl).of_eq rfl rfl id

theorem LinesBegin.ctlInv {s t : State} (hi : CtlInv s) (h : LinesBegin s t) : CtlInv t := by
  cases h with
  | inProgress => exact hi
  | accepted hready hm =>
    have hidle := hi.main_eq_idle hready
    refine hi.to_main (hi.rxLock_of_main hidle) (hi.no_feed_of_poll hidle (by simp)) ?_ (.inr hm) fun rest h => ?_
    · obtain rfl | rfl := hm <;> rfl
    · obtain rfl | rfl := hm <;> cases h

theorem RxEvent.ctlInv {sound : Prop} (hsound : sound) {s t : State} (hi : CtlInv s) (h : RxEvent sound s t) : CtlInv t := by
  cases h with
  | latchesTick hmode =>
    exact hi.with_feed hi.mainFeeds (fun ha _ => ha) fun h => absurd (h.symm.trans hmode) (by simp)
  | tickStarts h =>
    obtain ⟨hmode, -, -, hlock, -⟩ := feedTickEnabled_iff.1 h
    have hfeed := hi.with_feed (a := true) (p := false) (fun _ => rfl) (fun _ hl => absurd hl (by simp [hlock]))
      fun h => absurd (h.symm.trans hmode) (by simp)
    exact hfeed.of_eq (by simp) (feedStart_ctl _) (by simp)
  | feedMoves => exact hi.of_eq (by simp) (by simp) (by simp)
  | feedEnds hm =>
    have hfeeds := hm hsound
    exact hi.with_feed (a := false) (p := s.ctl.feedPending) (fun h => absurd h (by simp [hfeeds])) (by simp)
      fun hmode => ⟨hi.pollNoTick hmode, by simp⟩
  | push | wsync | rsync | answers => exact hi.of_eq rfl rfl id

theorem ctlInv_drainOnce {s u : State} {n : Nat} (hi : CtlInv s) (hm : ∀ rest, s.ctl.main ≠ .emitSend rest)
    (h : drainOnce s = .next (u, n)) : CtlInv u := by
  obtain ⟨bytes, -, rfl⟩ := drainOnce_advances h
  exact { hi with emitSends := fun rest hr => absurd hr (hm rest) }

theorem TxChange.ctlInv {s t : State} (hi : CtlInv s) (htx : TxInv s.build s.tx) (h : TxChange s t) : CtlInv t := by
  cases h with
  | line h =>
    cases h with
    | drains hm _ h => exact ctlInv_drainOnce hi (by simp [hm]) h
    | drained hm hge =>
      refine hi.to_main (b := s.ctl.mainBusy) (hi.rxLock_of_main hm) (hi.no_feed_of_poll hm (by simp))
        (hi.busy_of_main hm (by simp)) (.inl rfl) fun _ _ => htx.tail_le.antisymm hge
    | writes hm =>
      rw [emitWrite_eq]
      refine (hi.to_main (b := s.ctl.mainBusy) (m := .emitSend _) (hi.rxLock_of_main hm) (hi.no_feed_of_poll hm (by simp))
        (hi.busy_of_main hm (by simp)) (.inl rfl) fun _ _ => hi.emitSends _ hm).of_eq rfl rfl id
    | ends hm =>
      exact hi.to_main (hi.rxLock_of_main hm) (hi.no_feed_of_poll hm (by simp)) rfl (.inl rfl) (by simp)
  | enqueues hready h | diagEnqueues hready h =>
    have hidle := hi.main_eq_idle hready
    rw [enqueueRecord_writes_tx h]
    exact { hi with emitSends := fun rest hr => by rw [show s.ctl.main = _ from hr] at hidle; cases hidle }
  | drains hready h =>
    have hidle := hi.main_eq_idle hready
    exact (ctlInv_drainOnce hi (by simp [hidle]) h).of_eq rfl rfl id
  | emitBegins hready =>
    have hidle := hi.main_eq_idle hready
    exact (hi.to_main (b := true) (m := .emitDrain _) (hi.rxLock_of_main hidle) (hi.no_feed_of_poll hidle (by simp)) rfl
      (.inl rfl) (by simp)).of_eq rfl rfl id
  | appends | sinkPops | answers => exact hi.of_eq rfl rfl id

/-! ### The invariant -/

theorem RxLine.hrqInv {s t : State} (hi : HrqInv s.build.hrqAw s.hrq) (h : RxLine s t) : HrqInv t.build.hrqAw t.hrq := by
  rw [h.txKept.build]
  cases h with
  | feedStarts | innerFeedStarts | token => simpa using hi
  | feedMoves _ hpop => exact (popEdge_takes_oldest hi hpop).1
  | lenL b _ _ _ hfits => rw [rxLenL_of_fits hfits]; exact hi
  | oversized b _ _ _ hover => rw [rxLenL_of_oversized hover]; exact hi
  | delivers => rw [rxDeliver_eq]; exact hi
  | _ => exact hi

theorem RxEvent.hrqInv {sound : Prop} {s t : State} (haw : 1 ≤ s.build.hrqAw) (hi : HrqInv s.build.hrqAw s.hrq)
    (h : RxEvent sound s t) : HrqInv t.build.hrqAw t.hrq := by
  rw [h.txKept.build]
  cases h with
  | tickStarts => simpa using hi
  | feedMoves _ hpop => exact (popEdge_takes_oldest hi hpop).1
  | push b => exact hi.push b haw
  | wsync => exact hi.wsync
  | rsync => exact hi.rsync
  | latchesTick | feedEnds | answers => exact hi

theorem RxLine.rxInv {s t : State} (hi : RxInv s.build s.rx) (h : RxLine s t) : RxInv t.build t.rx := by
  rw [h.txKept.build]
  cases h with
  | feedStarts | innerFeedStarts => simpa using hi
  | feedMoves _ _ hroom => exact hi.feedMoved hroom
  | token _ hsome => exact hi.rxToken hsome
  | skip _ hsome hst => exact hi.rxSkip hsome hst
  | lenH b _ hsome hst => exact hi.rxLenH hsome hst
  | lenL b _ hsome hst hfits => exact hi.rxLenL hsome hst hfits
  | oversized b _ _ _ hover => rw [rxLenL_of_oversized hover]; exact hi.emptied _
  | bodyGoesOn _ _ hst hlt => exact hi.bodyGoesOn hst hlt
  | delivers _ _ _ hle => exact hi.delivers _ hle
  | _ => exact hi

theorem RxEvent.rxInv {sound : Prop} {s t : State} (hi : RxInv s.build s.rx) (h : RxEvent sound s t) :
    RxInv t.build t.rx := by
  rw [h.txKept.build]
  cases h with
  | tickStarts => simpa using hi
  | feedMoves _ _ hroom => exact hi.feedMoved hroom
  | _ => exact hi

namespace Inv

variable {s t : State} (hi : Inv s)
include hi

/-- The invariant after a change that leaves the transmit side. -/
theorem of_txKept (hk : TxKept s t) (hhrq : HrqInv t.build.hrqAw t.hrq) (hrx : RxInv t.build t.rx) (hctl : CtlInv t) :
    Inv t where
  build := by rw [hk.build]; exact hi.build
  hrq := hhrq
  rx := hrx
  tx := by rw [hk.build, hk.tx]; exact hi.tx
  ctl := hctl
  bnd := hi.bnd.of_eq hk.build hk.sinkQ hk.diagBuf

theorem rxLine (h : RxLine s t) : Inv t := hi.of_txKept h.txKept (h.hrqInv hi.hrq) (h.rxInv hi.rx) (h.ctlInv hi.ctl)

theorem rxEvent {sound : Prop} (hsound : sound) (h : RxEvent sound s t) : Inv t :=
  hi.of_txKept h.txKept (h.hrqInv hi.one_le_hrqAw hi.hrq) (h.rxInv hi.rx) (h.ctlInv hsound hi.ctl)

theorem linesBegin (h : LinesBegin s t) : Inv t := by
  refine hi.of_txKept h.txKept ?_ ?_ (h.ctlInv hi.ctl)
  · cases h <;> exact hi.hrq
  · cases h <;> exact hi.rx

theorem txChange (h : TxChange s t) : Inv t where
  build := by rw [h.rxKept.build]; exact hi.build
  hrq := by rw [h.rxKept.build, h.rxKept.hrq]; exact hi.hrq
  rx := by rw [h.rxKept.build, h.rxKept.rx]; exact hi.rx
  tx := h.txInv hi.tx
  ctl := h.ctlInv hi.ctl hi.tx
  bnd := h.boundaryInv hi.truncMarker_length_le hi.bnd

theorem moves (h : Moves s t) : Inv t :=
  h.induct (P := Inv) (fun _ _ hu => hu.linesBegin) (fun _ _ hu => hu.rxLine) (fun _ _ hu => hu.rxEvent hi.ctl)
    (fun _ _ hu => hu.txChange) hi

theorem takeTurn (rest : List Turn) (slice : Option Nat) : Inv (takeTurn rest slice s) :=
  ⟨hi.build, hi.hrq, hi.rx, hi.tx, hi.ctl.of_eq rfl rfl id, hi.bnd.of_eq rfl rfl rfl⟩

end Inv

/-- Settles O49: a turn taken, then each change of either side; and the reset state. -/
theorem stepKeepsTheInvariant : Obligations.StepKeepsTheInvariant := by
  intro s t hi h
  obtain rfl | ⟨rest, slice, hmoves | rfl⟩ := step_moves h
  · exact hi
  · exact (hi.takeTurn rest slice).moves hmoves
  · exact Inv.takeTurn (inv_resetOf hi.build) rest slice

end Sys2Proof.Machine
end

section
/-! PROOFS of safety (R56, R108, R210): from a state that meets the invariant every line of an operation answers a next state, so no
step faults, and a step is refused in the named cases only. -/

namespace Sys2Proof.Machine

/-! ### Every line answers -/

namespace Inv

variable {s : State} (hi : Inv s)
include hi

theorem rxCap_pos : 0 < s.build.rxCap := Nat.zero_lt_of_lt hi.hrqContents_length_lt

theorem feedLine_answers : ∃ t, feedLine s = .next t := by
  by_cases h0 : hrqAvail s.build.hrqAw s.hrq = 0
  · exact ⟨_, if_pos h0⟩
  · obtain ⟨c, hm⟩ := hi.hrq
    obtain ⟨u, -, -, -, -, hline⟩ := feedLine_takes_byte hm hi.rxCap_pos hi.rx.head_le h0
    exact ⟨_, hline s.ctl⟩

/-- The byte that the loop inspects has been written (R49). -/
theorem exists_inspected (hsome : s.rx.tail < s.rx.head) : ∃ b, memGet s.rx.buf s.rx.tail = some b :=
  Option.isSome_iff_exists.1 (hi.rx.written _ hsome)

theorem rxIterate_answers (b : Byte) : ∃ t, rxIterate b s = .next t := by
  by_cases hb : b = s.build.startToken
  · exact ⟨_, if_pos hb⟩
  · rw [rxIterate, if_neg hb]
    cases s.rx.state with
    | awaitStart => exact ⟨_, rfl⟩
    | lengthHigh => exact ⟨_, rfl⟩
    | lengthLow => exact ⟨_, rfl⟩
    | body =>
      obtain hlt | hle := Nat.lt_or_ge s.rx.head (payloadEnd s)
      · exact ⟨_, rxBody_of_incomplete hlt⟩
      · obtain ⟨payload, hread⟩ := hi.payload_readable hle
        exact ⟨_, by rw [rxBody_of_complete hle, hread, andThen_next]⟩

theorem scanLine_answers : ∃ t, scanLine s = .next t := by
  obtain hsome | hnone := Nat.lt_or_ge s.rx.tail s.rx.head
  · obtain ⟨b, hb⟩ := hi.exists_inspected hsome
    rw [scanLine_of_some hsome hi.rx.head_le hb]
    exact hi.rxIterate_answers b
  · exact ⟨_, scanLine_of_none hnone⟩

theorem mainLine_answers : ∃ t, mainLine s = .next t := by
  cases hm : s.ctl.main with
  | idle => exact ⟨s, by rw [mainLine, hm]⟩
  | feedWait =>
    by_cases h : s.ctl.feedActive = true ∨ s.ctl.rxLock = true
    · exact ⟨s, mainLine_feedWait_of_held hm h⟩
    · simp only [not_or, Bool.not_eq_true] at h
      exact ⟨_, mainLine_feedWait hm h.1 h.2⟩
  | feedRun =>
    obtain ⟨u, hu⟩ := hi.feedLine_answers
    exact ⟨_, by rw [mainLine_feedRun hm, hu, andThen_next]⟩
  | pollWait =>
    cases h : s.ctl.feedActive
    · cases hmode : s.build.feedMode
      · exact ⟨_, mainLine_pollWait_of_poll hm h hmode⟩
      · exact ⟨_, mainLine_pollWait_of_interrupt hm h hmode⟩
    · exact ⟨s, mainLine_pollWait_of_held hm h⟩
  | pollFeed =>
    obtain ⟨u, hu⟩ := hi.feedLine_answers
    exact ⟨_, by rw [mainLine_pollFeed hm, hu, andThen_next]⟩
  | pollTest =>
    by_cases h : s.rx.tail = s.rx.head
    · exact ⟨_, mainLine_pollTest_of_none hm h⟩
    · exact ⟨_, mainLine_pollTest_of_some hm h⟩
  | pollScan => rw [mainLine_pollScan hm]; exact hi.scanLine_answers
  | emitDrain packet =>
    by_cases h : s.tx.tail < s.tx.head
    · exact ⟨_, by rw [mainLine_emitDrain hm h, hi.drainOnce_eq rfl, andThen_next]⟩
    · exact ⟨_, mainLine_emitDrain_of_drained hm h⟩
  | emitSend rest =>
    by_cases h : rest = []
    · subst h; exact ⟨_, mainLine_emitSend_nil hm⟩
    · exact ⟨_, mainLine_emitSend hm h⟩

end Inv

/-! ### Every operation in progress answers -/

theorem inv_of_mainLine {s t : State} (hi : Inv s) (h : mainLine s = .next t) : Inv t := by
  obtain rfl | ⟨-, hchain⟩ | ⟨-, hline⟩ := changes_of_mainLine h
  · exact hi
  · exact chain_induct (P := Inv) (fun _ _ hu => hu.rxLine) hi hchain
  · exact hi.txChange (.line hline)

theorem Inv.mainLines_answers {s : State} (hi : Inv s) (n : Nat) : ∃ t, mainLines n s = .next t := by
  induction n generalizing s with
  | zero => exact ⟨s, rfl⟩
  | succ n ih =>
    cases hb : s.ctl.mainBusy
    · exact ⟨s, mainLines_ready hb⟩
    · obtain ⟨u, hu⟩ := hi.mainLine_answers
      rw [mainLines_of_busy hb, hu, andThen_next]
      exact ih (inv_of_mainLine hi hu)

theorem Inv.runMain_answers {s : State} (hi : Inv s) : ∃ t, runMain s = .next t := hi.mainLines_answers _

/-- The lines of a tick-started `FEED` (R122). -/
theorem Inv.feedLines_answers {s : State} (hi : Inv s) (hm : feedIsMains s = false) (n : Nat) :
    ∃ t, feedLines n s = .next t := by
  induction n generalizing s with
  | zero => exact ⟨s, rfl⟩
  | succ n ih =>
    cases ha : s.ctl.feedActive
    · exact ⟨s, feedLines_idle ha⟩
    · obtain ⟨u, hu⟩ := hi.feedLine_answers
      rw [feedLines, if_pos ha, hu, andThen_next]
      exact ih (hi.rxEvent (sound := True) trivial (.of_feedLine (fun _ => hm) ha hu)) ((feedIsMains_of_feedLine hu).trans hm)

theorem Inv.runFeed_answers {s : State} (hi : Inv s) : ∃ t, runFeed s = .next t := by
  cases hm : feedIsMains s
  · rw [runFeed, if_neg (by simp [hm])]
    exact hi.feedLines_answers hm _
  · exact ⟨s, if_pos hm⟩

/-! ### The outcome of an operation -/

theorem Inv.feedTick_answers {s : State} (hi : Inv s) : ∃ t, exec .feedTick s = .next t := by
  cases hen : feedTickEnabled s
  · exact ⟨s, exec_feedTick_of_disabled hen⟩
  · obtain ⟨-, -, -, -, hno⟩ := feedTickEnabled_iff.1 hen
    have hstart : Inv (feedTickStart s) := hi.rxEvent (sound := True) trivial (.tickStarts hen)
    rw [exec_feedTick_eq hen]
    refine hstart.feedLines_answers ?_ _
    simpa [feedIsMains] using hi.ctl.feedIsMains_eq_false hno

theorem Inv.runCommand_answers {s : State} (hi : Inv s) {m : MainPhase} (hm : m = .feedWait ∨ m = .pollWait) :
    ∃ t, whenReady (runCommand m) s = .next t := by
  cases hb : s.ctl.mainBusy
  · rw [whenReady_of_ready hb]
    exact (hi.linesBegin (.accepted hb hm)).mainLines_answers _
  · exact ⟨s, whenReady_of_busy hb⟩

/-- R82: a byte class is an iteration of the loop, or no step. -/
theorem Inv.byteClass_answers {s : State} (hi : Inv s) {i : Instr} (b : Byte)
    (hi' : i = .rxbToken ∨ i = .rxbSkip b ∨ i = .rxbLenH b ∨ i = .rxbLenL b ∨ i = .rxbBody b) : ∃ t, exec i s = .next t := by
  cases hen : rxbEnabled i s
  · exact ⟨s, exec_of_rxbDisabled hi' hen⟩
  · obtain ⟨b', -, hexec⟩ := exec_of_rxbEnabled hen
    rw [hexec]
    exact hi.rxIterate_answers b'

/-- R108: a pop as a step of its own is refused on an empty queue. -/
theorem Inv.hrqPop_answers {s : State} (hi : Inv s) :
    (∃ t, exec .hrqPop s = .next t) ∨ exec .hrqPop s = .refused .popOnEmpty := by
  cases he : hrqEmpty s.hrq
  case true => exact .inr (onPop_of_empty he)
  case false =>
    refine .inl ?_
    cases hp : popIsNext s
    · exact ⟨s, onPop_of_other he hp⟩
    · obtain ⟨c, hm⟩ := hi.hrq
      obtain ⟨b, h', hpop, -⟩ := hm.popEdge_answers he
      obtain ⟨u, hu⟩ := hi.feedLine_answers
      exact ⟨_, (onPop_of_next he hp).trans (by rw [hpop, andThen_next, hu, andThen_next])⟩

theorem Inv.sinkWrite_answers {s : State} (hi : Inv s) (bytes : List Byte) : ∃ t, exec (.sinkWrite bytes) s = .next t := by
  by_cases hw : nextWrite s = some bytes
  · obtain ⟨u, hu⟩ := hi.mainLine_answers
    exact ⟨_, (onWrite_of_next hw).trans (by rw [hu, andThen_next])⟩
  · exact ⟨s, onWrite_of_other hw⟩

theorem sinkPop_answers (s : State) : ∃ t, exec .sinkPop s = .next t := by
  cases h : s.bnd.sinkQ with
  | nil => exact ⟨s, exec_sinkPop_of_nil h⟩
  | cons b rest => exact ⟨_, exec_sinkPop_of_cons h⟩

theorem tick_answers (s : State) : ∃ t, exec .tick s = .next t := by
  cases h : s.build.feedMode
  · exact ⟨s, exec_tick_of_poll h⟩
  · exact ⟨_, exec_tick_of_interrupt h⟩

/-- An `encode` failed in a way that has no code (R171, R196). -/
def encodeRefusal (o : Out State) : Prop :=
  (∃ c, o = .refused (.encodeErrorNotDescribed c)) ∨ o = .refused .emitNowEncodeFailed

/-- R171: the shared `ENQUEUE` answers, or `encode` returned an error that no source describes. -/
theorem enqueueRecord_outcome (r : Record) (s : State) :
    (∃ x, enqueueRecord r s = .next x) ∨ ∃ c, enqueueRecord r s = .refused (.encodeErrorNotDescribed c) := by
  by_cases h : ∃ c, encodeRecord s.build r = .other c
  · obtain ⟨c, hc⟩ := h
    exact .inr ⟨c, enqueueRecord_of_other hc⟩
  · exact .inl (enqueueRecord_answers fun c hc => h ⟨c, hc⟩)

/-- The outcome of an accepted command of the transmit side. -/
theorem Inv.accepted_outcome {s : State} (hi : Inv s) (hready : s.ctl.mainBusy = false) {i : Instr}
    (hcmd : (∃ r, i = .enqueue r) ∨ i = .drain ∨ (∃ x, i = .diagAppend x) ∨ i = .diagEnqueue ∨ ∃ x, i = .emitNow x) :
    (∃ t, exec i s = .next t) ∨ encodeRefusal (exec i s) := by
  obtain ⟨r, rfl⟩ | rfl | ⟨x, rfl⟩ | rfl | ⟨x, rfl⟩ := hcmd
  · rw [exec_enqueue_of_ready hready]
    obtain ⟨y, hy⟩ | ⟨c, hc⟩ := enqueueRecord_outcome r s
    · exact .inl ⟨_, by rw [hy, andThen_next]⟩
    · exact .inr (.inl ⟨c, by rw [hc, andThen_refused]⟩)
  · exact .inl ⟨_, by rw [exec_drain_of_ready hready, hi.drainOnce_eq rfl, andThen_next]⟩
  · exact .inl ⟨_, exec_diagAppend_of_ready hready⟩
  · rw [exec_diagEnqueue_of_ready hready, diagEnqueueRecord]
    obtain ⟨y, hy⟩ | ⟨c, hc⟩ := enqueueRecord_outcome (diagRecord s.build s.bnd.diagBuf) s
    · exact .inl ⟨_, by rw [hy, andThen_next, andThen_next]⟩
    · exact .inr (.inl ⟨c, by rw [hc, andThen_refused, andThen_refused]⟩)
  · rw [exec_emitNow_of_ready hready]
    by_cases h : ∃ p, encodeRecord s.build (emitRecord x s) = .ok p
    · obtain ⟨p, hp⟩ := h
      rw [emitPrepare_of_ok hp, andThen_next]
      exact .inl ((hi.txChange (.emitBegins hready hp)).mainLines_answers _)
    · exact .inr (.inr (by rw [emitPrepare_of_failure fun p hp => h ⟨p, hp⟩, andThen_refused]))

theorem Inv.command_outcome {s : State} (hi : Inv s) {i : Instr}
    (hcmd : (∃ r, i = .enqueue r) ∨ i = .drain ∨ (∃ x, i = .diagAppend x) ∨ i = .diagEnqueue ∨ ∃ x, i = .emitNow x) :
    (∃ t, exec i s = .next t) ∨ encodeRefusal (exec i s) := by
  cases hb : s.ctl.mainBusy
  · exact hi.accepted_outcome hb hcmd
  · exact .inl ⟨s, exec_of_busy (.inr (.inr (by tauto))) hb⟩

/-- From a state that meets the invariant an operation answers, or is one of the refusals by name. -/
theorem Inv.exec_outcome {s : State} (hi : Inv s) (i : Instr) :
    (∃ t, exec i s = .next t) ∨ (i = .hrqPop ∧ exec i s = .refused .popOnEmpty) ∨ encodeRefusal (exec i s) := by
  cases i with
  | nop | hrqPush _ | hrqWsync | hrqRsync | hrqAvail | sinkSpace | reset | frame _ => exact .inl ⟨_, rfl⟩
  | feed => exact .inl (hi.runCommand_answers (.inl rfl))
  | pollReceive => exact .inl (hi.runCommand_answers (.inr rfl))
  | enqueue _ | drain | diagAppend _ | diagEnqueue | emitNow _ => exact (hi.command_outcome (by simp)).imp_right .inr
  | rxbToken => exact .inl (hi.byteClass_answers 0#8 (by simp))
  | rxbSkip b | rxbLenH b | rxbLenL b | rxbBody b => exact .inl (hi.byteClass_answers b (by simp))
  | hrqPop => exact hi.hrqPop_answers.imp_right fun h => .inl ⟨rfl, h⟩
  | tick => exact .inl (tick_answers s)
  | feedTick => exact .inl hi.feedTick_answers
  | sinkWrite bytes => exact .inl (hi.sinkWrite_answers bytes)
  | sinkPop => exact .inl (sinkPop_answers s)

/-! ### The outcome of a step -/

/-- R56, R108, R171, R196: everything a step can answer from a state that meets the invariant. -/
theorem Inv.step_outcome {s : State} (hi : Inv s) : (∃ t, step s = .next t) ∨ encodeRefusal (step s) ∨
    (step s = .refused .popOnEmpty ∧ ∃ word slice rest,
      s.agenda = .offer word slice :: rest ∧ decode (decodeCtx s) word = .ok .hrqPop) ∨
    ∃ why, step s = .refused (.notAnOperation why) := by
  cases hturn : s.agenda with
  | nil =>
    obtain ⟨-, -, -, hnone, -⟩ := stepTakesTheNextTurn s none []
    exact .inl ⟨s, hnone hi.build hturn⟩
  | cons turn rest =>
    cases turn with
    | resumeMain slice =>
      obtain ⟨hmain, -⟩ := stepTakesTheNextTurn s slice rest
      obtain ⟨t, ht⟩ := (hi.takeTurn rest slice).runMain_answers
      exact .inl ⟨t, (hmain hi.build hturn).trans ht⟩
    | resumeFeed slice =>
      obtain ⟨-, hfeed, -⟩ := stepTakesTheNextTurn s slice rest
      obtain ⟨t, ht⟩ := (hi.takeTurn rest slice).runFeed_answers
      exact .inl ⟨t, (hfeed hi.build hturn).trans ht⟩
    | offer word slice =>
      cases hdecode : decode (decodeCtx s) word with
      | error why =>
        obtain ⟨-, -, hreject, -⟩ := stepTakesTheNextTurn s slice rest
        exact .inr (.inr (.inr ⟨why, hreject hi.build word why hturn hdecode⟩))
      | ok i =>
        rw [stepRunsTheDecodedOperation s word slice rest i hi.build hturn hdecode]
        obtain ht | ⟨rfl, hpop⟩ | hencode := (hi.takeTurn rest slice).exec_outcome i
        · exact .inl ht
        · exact .inr (.inr (.inl ⟨hpop, word, slice, rest, rfl, hdecode⟩))
        · exact .inr (.inl hencode)

/-- Settles O51: by the outcomes of a step, of an operation, and of the lines of one in progress. -/
theorem stepNeverFaults : Obligations.StepNeverFaults := by
  intro s hi
  refine ⟨fun f h => ?faults, fun i h => ?empty, fun r => ⟨fun h => ?main, fun h => ?feed⟩, fun r h => ?refusals⟩
  case faults =>
    obtain ⟨t, ht⟩ | (⟨c, hc⟩ | he) | ⟨hp, -⟩ | ⟨why, hw⟩ := hi.step_outcome <;> simp_all
  case empty =>
    obtain ⟨t, ht⟩ | ⟨rfl, -⟩ | ⟨c, hc⟩ | he := hi.exec_outcome i
    · simp [ht] at h
    · rfl
    · simp [hc] at h
    · simp [he] at h
  case main =>
    obtain ⟨t, ht⟩ := hi.runMain_answers
    simp [ht] at h
  case feed =>
    obtain ⟨t, ht⟩ := hi.runFeed_answers
    simp [ht] at h
  case refusals =>
    obtain ⟨t, ht⟩ | (⟨c, hc⟩ | he) | ⟨hp, hword⟩ | ⟨why, hw⟩ := hi.step_outcome
    · simp [ht] at h
    · exact .inr (.inl ⟨c, Host.Outcome.refused.inj (h.symm.trans hc)⟩)
    · exact .inr (.inr (.inl (Host.Outcome.refused.inj (h.symm.trans he))))
    · exact .inl ⟨Host.Outcome.refused.inj (h.symm.trans hp), hword⟩
    · exact .inr (.inr (.inr ⟨why, Host.Outcome.refused.inj (h.symm.trans hw)⟩))

end Sys2Proof.Machine
end

section
/-! PROOFS of the family 40_hrq_async_fifo.md, continued: the count of `HRQ.AVAIL` (R107), the pop (R108), the abstract queue that
the registers refine (R113), and the arrival of a frame (R70). All are facts about the counts behind the registers. -/

namespace Sys2Proof.Machine

/-! ### What the two sides see, by the counts -/

namespace HrqMatches

variable {aw : Nat} {h : Hrq} {c : HrqCounts} (hm : HrqMatches aw h c)
include hm

theorem w_sub_r_le : c.w - c.r ≤ 2 ^ aw := by
  have := hm.w_le; have := hm.r2_le_r; have := Nat.two_pow_pos aw
  omega

/-- R107: the reader counts the bytes up to its own sample of the writer. -/
theorem hrqAvail_eq : hrqAvail aw h = c.w2 - c.r := by
  have hlt : c.w2 - c.r < 2 ^ (aw + 1) := by
    have := hm.w_sub_r_le; have := hm.w2_le; have := hm.w1_le; have := Nat.two_pow_pos aw
    rw [Nat.two_pow_succ]; omega
  rw [hrqAvail, hm.rq2, hm.rbin, grayBin_gray (Nat.mod_lt _ (Nat.two_pow_pos _)), wrapSub_mod_mod hm.r_le hlt]

/-- R110: every queued cell has been written, so the queue holds as many bytes as were accepted and not popped. -/
theorem hrqContents_length : (hrqContents aw h).length = c.w - c.r := by
  rw [hm.hrqContents_eq]
  refine (List.filterMap_length_eq_length.2 fun k hk => hm.written k (List.mem_range.1 hk)).trans List.length_range

/-- R113: the abstract state, by the counts. -/
theorem absHrq_eq : absHrq aw h =
    { q := hrqContents aw h, rvis := c.w2 - c.r, wfree := 2 ^ aw - (c.w - c.r2), lost := h.lost } := by
  rw [absHrq, hm.hrqAvail_eq, hm.wrapSub_wbin_wq2Rgray]

/-- R106, R107: the reader sees the queue empty exactly when it counts no byte. -/
theorem hrqAvail_eq_zero_iff : hrqAvail aw h = 0 ↔ hrqEmpty h = true := by
  refine ⟨fun h0 => ?_, fun he => ?_⟩
  · have heq : c.w2 = c.r := by have := hm.hrqAvail_eq; have := hm.r_le; omega
    rw [hrqEmpty, hm.rgray, hm.rq2, heq]; exact beq_self_eq_true _
  · by_contra h0
    simp [hm.hrqEmpty_of_hrqAvail_ne_zero h0] at he

/-- R107: with its view up to date the reader counts every byte. -/
theorem hrqAvail_eq_hrqOcc (hview : h.rq2Wgray = h.wgray) : hrqAvail aw h = hrqOcc aw h := by
  have hlt (p : Nat) : p % 2 ^ (aw + 1) < 2 ^ (aw + 1) := Nat.mod_lt _ (Nat.two_pow_pos _)
  have hle : c.w2 ≤ c.w := hm.w2_le.trans hm.w1_le
  have hdiff : c.w - c.w2 < 2 ^ (aw + 1) := by
    have := hm.w_sub_r_le; have := hm.r_le; have := Nat.two_pow_pos aw
    rw [Nat.two_pow_succ]; omega
  have hmod : c.w % 2 ^ (aw + 1) = c.w2 % 2 ^ (aw + 1) := by
    rw [hm.rq2, hm.wgray, gray_inj (hlt _) (hlt _)] at hview
    exact hview.symm
  rw [hm.hrqAvail_eq, hm.hrqOcc_eq, (mod_two_pow_inj hle hdiff).1 hmod]

/-- R105, R110: a byte that is stored joins the queue at its end. -/
theorem hrqContents_push_of_room {b : Byte} (haw : 1 ≤ aw) (hf : hrqFull aw h = false) :
    hrqContents aw (pushEdge aw b h) = hrqContents aw h ++ [b] := by
  have hm' := hm.push_of_room (b := b) haw hf
  have hroom : c.w - c.r < 2 ^ aw := by
    have hw := hm'.w_le; have := hm.r1_le; have := hm.r_le_w
    dsimp only at hw; omega
  have hlen : c.w + 1 - c.r = c.w - c.r + 1 := by have := hm.r_le_w; omega
  have hold (k : Nat) (hk : k ∈ List.range (c.w - c.r)) :
      memGet (pushEdge aw b h).mem ((c.r + k) % 2 ^ aw) = memGet h.mem ((c.r + k) % 2 ^ aw) := by
    have hk := List.mem_range.1 hk
    rw [pushEdge_of_room hf, hm.wbin_mod, memGet_memSet_other]
    intro hcell
    have := (mod_two_pow_inj (n := aw) (a := c.w) (b := c.r + k) (by omega) (by omega)).1 hcell.symm
    omega
  have hnew : memGet (pushEdge aw b h).mem ((c.r + (c.w - c.r)) % 2 ^ aw) = some b := by
    rw [Nat.add_sub_cancel' hm.r_le_w, pushEdge_of_room hf, hm.wbin_mod, memGet_memSet_same]
  have hlast : (List.filterMap (fun k => memGet (pushEdge aw b h).mem ((c.r + k) % 2 ^ aw)) [c.w - c.r]) = [b] :=
    List.filterMap_cons_some hnew
  rw [hm'.hrqContents_eq, hm.hrqContents_eq, hlen, List.range_succ, List.filterMap_append, List.filterMap_congr hold]
  exact congrArg _ hlast

end HrqMatches

theorem hrqContents_push_of_full {aw : Nat} {b : Byte} {h : Hrq} (hf : hrqFull aw h = true) :
    hrqContents aw (pushEdge aw b h) = hrqContents aw h := by
  rw [pushEdge_of_full hf]; rfl

/-! ### `HRQ.AVAIL` (R107) -/

/-- Settles O9: the count, its bounds and its exactness, by the counts behind the registers. -/
theorem hrqAvailCounts : Obligations.HrqAvailCounts := by
  refine fun s => ⟨rfl, fun hi => ?_⟩
  obtain ⟨c, hm⟩ := hi.hrq
  refine ⟨?_, ?_, hm.hrqAvail_eq_zero_iff, hm.hrqAvail_eq_hrqOcc⟩
  · rw [hm.hrqAvail_eq, hm.hrqOcc_eq]
    exact Nat.sub_le_sub_right (hm.w2_le.trans hm.w1_le) _
  · rw [hm.hrqOcc_eq]
    exact hm.w_sub_r_le

/-! ### `HRQ.POP` (R108) -/

/-- Settles O10: refused, no step, or the pop of the `FEED` in progress. -/
theorem hrqPopAnswersTheOldest : Obligations.HrqPopAnswersTheOldest := by
  refine fun s => ⟨onPop_of_empty, exec_hrqPop_of_other, fun hi he => ?_⟩
  obtain ⟨c, hm⟩ := hi.hrq
  obtain ⟨b, h, hpop, -⟩ := hm.popEdge_answers he
  obtain ⟨-, hcons⟩ := popEdge_takes_oldest hi.hrq hpop
  obtain ⟨-, hb, hh⟩ := popEdge_eq_next.1 hpop
  refine ⟨b, _, hcons, hb, h, hh, rfl, hpop, fun hactive hroom => ?_⟩
  have h0 : hrqAvail s.build.hrqAw s.hrq ≠ 0 := by
    have := hm.r_lt_w2 he
    rw [hm.hrqAvail_eq]; omega
  have hnext : popIsNext s = true := popIsNext_iff.2 ⟨hactive, h0, hroom⟩
  have hmove := feedMove_eq_next.2 ⟨b, h, hpop, lt_of_le_of_ne hi.rx.head_le hroom, rfl⟩
  refine ⟨memSet s.rx.buf s.rx.head b, (onPop_of_next he hnext).trans ?_, fun a => memGet_memSet _ _ a b⟩
  rw [hpop, andThen_next, feedLine_of_popIsNext hnext, hmove, andThen_next]

/-! ### The abstract queue (R113) -/

namespace HrqMatches

variable {aw : Nat} {h : Hrq} {c : HrqCounts} (hm : HrqMatches aw h c)
include hm

theorem absWsync_wsyncEdge : AbsWsync aw (absHrq aw h) (absHrq aw (wsyncEdge h)) := by
  refine ⟨2 ^ aw - (c.w - c.r1), ?_, ?_, ?_⟩
  · rw [hm.absHrq_eq]
    exact Nat.sub_le_sub_left (Nat.sub_le_sub_left hm.r2_le _) _
  · rw [hm.absHrq_eq, hm.hrqContents_length]
    exact Nat.sub_le_sub_left (Nat.sub_le_sub_left hm.r1_le _) _
  · rw [hm.absHrq_eq, hm.wsync.absHrq_eq]; rfl

theorem absRsync_rsyncEdge : AbsRsync (absHrq aw h) (absHrq aw (rsyncEdge h)) := by
  refine ⟨c.w1 - c.r, ?_, ?_, ?_⟩
  · rw [hm.absHrq_eq]
    exact Nat.sub_le_sub_right hm.w2_le _
  · rw [hm.absHrq_eq, hm.hrqContents_length]
    exact Nat.sub_le_sub_right hm.w1_le _
  · rw [hm.absHrq_eq, hm.rsync.absHrq_eq]; rfl

/-- A push that finds no room drops the byte on either level. -/
theorem absWsync_push_of_full {b : Byte} (haw : 1 ≤ aw) (hf : hrqFull aw h = true) :
    AbsWsync aw (absPush b (absHrq aw h)) (absHrq aw (pushEdge aw b h)) := by
  have hw := (hm.hrqFull_iff haw).1 hf
  have hnone : ¬ 0 < 2 ^ aw - (c.w - c.r2) := by omega
  rw [hm.absHrq_eq, (hm.push_of_full (b := b) hf).absHrq_eq, hrqContents_push_of_full hf, absPush, if_neg hnone]
  refine ⟨2 ^ aw - (c.w - c.r1), ?_, ?_, by rw [pushEdge_of_full hf]⟩
  · exact Nat.sub_le_sub_left (Nat.sub_le_sub_left hm.r2_le _) _
  · dsimp only
    rw [hm.hrqContents_length]
    exact Nat.sub_le_sub_left (Nat.sub_le_sub_left hm.r1_le _) _

/-- A push that finds room appends the byte on either level. -/
theorem absWsync_push_of_room {b : Byte} (haw : 1 ≤ aw) (hf : hrqFull aw h = false) :
    AbsWsync aw (absPush b (absHrq aw h)) (absHrq aw (pushEdge aw b h)) := by
  have hne : c.w ≠ c.r2 + 2 ^ aw := fun heq => by simp [(hm.hrqFull_iff haw).2 heq] at hf
  have hw := hm.w_le; have hr2 := hm.r2_le; have hr1 := hm.r1_le; have hr := hm.r_le_w
  have hsome : 0 < 2 ^ aw - (c.w - c.r2) := by omega
  rw [hm.absHrq_eq, (hm.push_of_room (b := b) haw hf).absHrq_eq, hm.hrqContents_push_of_room haw hf, absPush, if_pos hsome]
  refine ⟨2 ^ aw - (c.w + 1 - c.r1), ?_, ?_, by rw [pushEdge_of_room hf]; rfl⟩
  · dsimp only; omega
  · dsimp only
    rw [List.length_append, hm.hrqContents_length, List.length_singleton]
    omega

/-- A pop takes the head of the queue, and the reader's view may grow at its edge. -/
theorem absRsync_pop {h' : Hrq}
    (hm' : HrqMatches aw h' { c with r := c.r + 1, w2 := c.w1, w1 := c.w }) (hlost : h'.lost = h.lost) :
    AbsRsync { absHrq aw h with q := hrqContents aw h', rvis := (absHrq aw h).rvis - 1 } (absHrq aw h') := by
  have := hm.w2_le; have := hm.w1_le
  refine ⟨c.w1 - (c.r + 1), ?_, ?_, ?_⟩
  · rw [hm.absHrq_eq]; dsimp only; omega
  · dsimp only
    rw [hm'.hrqContents_length]
    dsimp only; omega
  · rw [hm'.absHrq_eq, hm.absHrq_eq, hlost]

end HrqMatches

/-- Settles O11: each edge by the counts before and after it. -/
theorem hrqRefinesAbstractQueue : Obligations.HrqRefinesAbstractQueue := by
  rintro aw h haw ⟨c, hm⟩
  refine ⟨?visible, ?room, fun b => ?push, hm.absWsync_wsyncEdge, hm.absRsync_rsyncEdge, fun he => ?pop⟩
  case visible =>
    rw [hm.absHrq_eq, hm.hrqContents_length]
    exact Nat.sub_le_sub_right (hm.w2_le.trans hm.w1_le) _
  case room =>
    have := hm.w_le; have := hm.r2_le_r; have := hm.r_le_w
    rw [hm.absHrq_eq, hm.hrqContents_length]
    dsimp only; omega
  case push =>
    cases hf : hrqFull aw h
    · exact hm.absWsync_push_of_room haw hf
    · exact hm.absWsync_push_of_full haw hf
  case pop =>
    obtain ⟨b, h', hpop, hm'⟩ := hm.popEdge_answers he
    obtain ⟨-, hcons⟩ := popEdge_takes_oldest ⟨c, hm⟩ hpop
    refine ⟨b, _, h', hpop, ?_, hcons, hm.absRsync_pop hm' (popEdge_lost hpop)⟩
    have := hm.r_lt_w2 he
    rw [hm.absHrq_eq]; dsimp only; omega

/-! ### Bytes that arrive back to back (R70, R105) -/

/-- HRQ after the pushes of `bs`. -/
def pushAll (aw : Nat) (bs : List Byte) (h : Hrq) : Hrq := bs.foldl (fun h b => pushEdge aw b h) h

theorem pushAll_cons (aw : Nat) (b : Byte) (bs : List Byte) (h : Hrq) :
    pushAll aw (b :: bs) h = pushAll aw bs (pushEdge aw b h) := rfl

theorem wirePushAll_eq (bs : List Byte) (s : State) : wirePushAll bs s = { s with
    hrq := pushAll s.build.hrqAw bs s.hrq
    bnd := { s.bnd with wireRxCount := s.bnd.wireRxCount + bs.length } } := by
  induction bs generalizing s with
  | nil => rfl
  | cons b bs ih =>
    rw [wirePushAll, ih, List.length_cons, Nat.add_comm bs.length, ← Nat.add_assoc]
    rfl

/-- Between `h` and `h'` the bytes `bs` joined the queue, and the read domain and the other cells stayed. -/
structure Joined (aw : Nat) (h : Hrq) (bs : List Byte) (h' : Hrq) : Prop where
  contents : hrqContents aw h' = hrqContents aw h ++ bs
  lost : h'.lost = h.lost
  rbin : h'.rbin = h.rbin
  rgray : h'.rgray = h.rgray
  rq1 : h'.rq1Wgray = h.rq1Wgray
  rq2 : h'.rq2Wgray = h.rq2Wgray
  cells : ∀ a, (∀ k < bs.length, a ≠ (h.wbin + k) % 2 ^ aw) → memGet h'.mem a = memGet h.mem a

/-- R105: where the writer sees room for all of them, pushed bytes join the queue in order. -/
theorem HrqMatches.pushAll_joins {aw : Nat} (haw : 1 ≤ aw) {h : Hrq} {c : HrqCounts} (hm : HrqMatches aw h c) (bs : List Byte)
    (hroom : bs.length ≤ 2 ^ aw - (c.w - c.r2)) : Joined aw h bs (pushAll aw bs h) := by
  induction bs generalizing h c with
  | nil => exact ⟨(List.append_nil _).symm, rfl, rfl, rfl, rfl, rfl, fun _ _ => rfl⟩
  | cons b bs ih =>
    rw [List.length_cons] at hroom
    have hf : hrqFull aw h = false := by
      by_contra hf
      have := (hm.hrqFull_iff haw).1 (by simpa using hf)
      omega
    have hm' := hm.push_of_room (b := b) haw hf
    have hrest := ih hm' (by have := hm.r2_le; have := hm.r1_le; have := hm.r_le_w; dsimp only; omega)
    refine ⟨?_, ?_, by rw [pushAll_cons, hrest.rbin, pushEdge_rbin], by rw [pushAll_cons, hrest.rgray, pushEdge_rgray],
      by rw [pushAll_cons, hrest.rq1, pushEdge_rq1Wgray], by rw [pushAll_cons, hrest.rq2, pushEdge_rq2Wgray], fun a ha => ?_⟩
    · rw [pushAll_cons, hrest.contents, hm.hrqContents_push_of_room haw hf, List.append_assoc, List.singleton_append]
    · rw [pushAll_cons, hrest.lost, pushEdge_of_room hf]; rfl
    · have hfirst : a ≠ h.wbin % 2 ^ aw := ha 0 (Nat.succ_pos _)
      rw [pushAll_cons, hrest.cells a fun k hk => ?_, pushEdge_of_room hf, memGet_memSet_other hfirst]
      have hk := ha (k + 1) (Nat.succ_lt_succ hk)
      have hwbin : (pushEdge aw b h).wbin % 2 ^ aw = (h.wbin + 1) % 2 ^ aw := by
        rw [pushEdge_of_room hf, wrapSucc, Nat.mod_mod_of_dvd _ (Nat.pow_dvd_pow 2 (Nat.le_succ aw))]
      rwa [← Nat.mod_add_mod, hwbin, Nat.mod_add_mod, Nat.add_assoc, Nat.add_comm 1]

/-- R70, log 13: the frame's bytes one push after the other. -/
theorem foldl_hrqPush (bs : List Byte) (s : State) :
    bs.foldl (fun o b => andThen o (exec (.hrqPush b))) (.next s) = .next (wirePushAll bs s) := by
  induction bs generalizing s with
  | nil => rfl
  | cons b bs ih => exact ih (wirePush b s)

theorem exec_frame (p : List Byte) (s : State) :
    exec (.frame p) s = .next (wirePushAll (frameBytes s.build.startToken p) s) := rfl

/-- Settles O12: the pushes, what they write, and where they join. -/
theorem frameArrivesByteByByte : Obligations.FrameArrivesByteByByte := by
  intro p s
  refine ⟨?frame, ?pushes, fun hi hroom => ?joins⟩
  case frame =>
    rw [exec_frame, wirePushAll_eq, frameBytes_length]
    exact ⟨_, rfl⟩
  case pushes => rw [exec_frame, frameBytes_eq, foldl_hrqPush]
  case joins =>
    obtain ⟨c, hm⟩ := hi.hrq
    rw [hm.absHrq_eq] at hroom
    have hj := hm.pushAll_joins hi.one_le_hrqAw (frameBytes s.build.startToken p) (by rw [frameBytes_length]; exact hroom)
    refine ⟨_, exec_frame p s, ?_⟩
    rw [wirePushAll_eq]
    refine ⟨hj.contents, hj.lost, hj.rbin, hj.rgray, hj.rq1, hj.rq2, fun a ha => hj.cells a ?_⟩
    rwa [frameBytes_length]

end Sys2Proof.Machine
end

section
/-! PROOFS of the transmit path (R49 (g), R59): the bytes from the commands to the wire are one stream, and `tx_buf` holds whole frames. -/

namespace Sys2Proof.Machine

open Relation (ReflTransGen)

/-! ### Runs of cells, taken apart and put together -/

theorem memReadRun_drop {sp : Space} {cap n k : Nat} {m : Memory} {a : Nat} {bs : List Byte}
    (h : memReadRun sp cap m a n = .next bs) : memReadRun sp cap m (a + k) (n - k) = .next (bs.drop k) := by
  obtain ⟨hlen, hcells⟩ := memReadRun_eq_next.1 h
  refine memReadRun_eq_next.2 ⟨by rw [List.length_drop, hlen], fun j hj => ?_⟩
  rw [List.getElem?_drop, Nat.add_assoc]
  exact hcells (k + j) (by omega)

/-- A run written behind a run that was read makes one longer run. -/
theorem memReadRun_memSetRun {sp : Space} {cap n : Nat} {m : Memory} {a : Nat} {bs new : List Byte}
    (h : memReadRun sp cap m a n = .next bs) (hroom : a + n + new.length ≤ cap) :
    memReadRun sp cap (memSetRun m (a + n) new) a (n + new.length) = .next (bs ++ new) := by
  obtain ⟨hlen, hcells⟩ := memReadRun_eq_next.1 h
  refine memReadRun_eq_next.2 ⟨by rw [List.length_append, hlen], fun k hk => ⟨by omega, ?_⟩⟩
  rw [memGet_memSetRun]
  obtain hold | hnew := Nat.lt_or_ge k n
  · rw [if_neg (by omega), List.getElem?_append_left (by omega)]
    exact (hcells k hold).2
  · rw [if_pos ⟨by omega, by omega⟩, List.getElem?_append_right (by omega)]
    congr 1; omega

/-! ### The buffered bytes (R49 (e)) -/

theorem txPending_length {s : State} (hi : Inv s) : (txPending s).length = s.tx.head - s.tx.tail :=
  (memReadRun_eq_next.1 hi.txPending_read).1

/-- The buffered bytes from an offset on, by reading them. -/
theorem txPending_eq_of_read {s : State} {bs : List Byte} {n : Nat}
    (h : memReadRun .txBuf s.build.txCap s.tx.buf s.tx.tail n = .next bs) (hn : n = s.tx.head - s.tx.tail) :
    txPending s = bs := by
  subst hn
  exact filterMap_memGet_of_read h

theorem txPending_of_drained {s : State} (h : s.tx.tail = s.tx.head) : txPending s = [] := by simp [txPending, h]

/-- R177: what is left after the sink took `n` bytes. -/
theorem Inv.txPending_txAdvance {s : State} (hi : Inv s) (n : Nat) (b : Boundary) :
    txPending (txAdvance n { s with bnd := b }) = (txPending s).drop n := by
  rw [txAdvance_eq]
  by_cases hdrained : s.tx.tail + n = s.tx.head
  · have hnone : (txPending s).drop n = [] := List.drop_eq_nil_of_le (by rw [txPending_length hi]; omega)
    rw [hnone]
    simp [txPending, hdrained]
  · simp only [hdrained, if_false]
    exact txPending_eq_of_read (memReadRun_drop hi.txPending_read) (Nat.sub_sub _ _ _)

/-- R173: the payload that an `ENQUEUE` adds to the buffered bytes, framed. -/
theorem txPending_enqueueRecord {r : Record} {s u : State} {c : EnqueueCode} (hi : Inv s)
    (h : enqueueRecord r s = .next (u, c)) :
    txPending u = txPending s ++ (enqueuedPayload r s).flatMap (frameBytes s.build.startToken) := by
  obtain ⟨henc, hx⟩ | ⟨p, henc, ⟨hfull, hx⟩ | ⟨hroom, hx⟩⟩ := enqueueRecord_cases h <;> obtain ⟨rfl, -⟩ := Prod.mk.inj hx
  · simp only [enqueuedPayload, henc, List.flatMap_nil, List.append_nil]; rfl
  · simp only [enqueuedPayload, henc, if_neg (Nat.not_le.2 hfull), List.flatMap_nil, List.append_nil]; rfl
  · have htail := hi.tx.tail_le
    have hend : s.tx.tail + (s.tx.head - s.tx.tail) = s.tx.head := Nat.add_sub_cancel' htail
    have hread := memReadRun_memSetRun hi.txPending_read (new := frameBytes s.build.startToken p)
      (by rw [hend, frameBytes_length]; omega)
    rw [hend] at hread
    simp only [enqueuedPayload, henc, if_pos hroom, List.flatMap_singleton]
    refine txPending_eq_of_read hread ?_
    rw [frameBytes_length]; dsimp only; omega

/-! ### The stream (R59) -/

theorem emitPending_of_other {s : State} (h : transmitPhase s.ctl.main = false) : emitPending s = [] := by
  cases hm : s.ctl.main <;> simp_all [transmitPhase, emitPending]

theorem emitPending_emitDrain {s : State} {packet : List Byte} (h : s.ctl.main = .emitDrain packet) :
    emitPending s = packet := by simp [emitPending, h]

theorem emitPending_emitSend {s : State} {rest : List Byte} (h : s.ctl.main = .emitSend rest) : emitPending s = rest := by
  simp [emitPending, h]

/-- With no command in progress the stream ends with the buffered bytes. -/
theorem Inv.emitPending_of_ready {s : State} (hi : Inv s) (hready : s.ctl.mainBusy = false) : emitPending s = [] :=
  emitPending_of_other (by rw [hi.ctl.main_eq_idle hready]; rfl)

theorem TxKept.txStream_eq {s t : State} (h : TxKept s t) (hemit : emitPending t = emitPending s) : txStream t = txStream s := by
  simp only [txStream, txPending, h.tx, h.sinkQ, h.wireTx, hemit]

theorem RxLine.txStream_eq {s t : State} (h : RxLine s t) : txStream t = txStream s := by
  refine h.txKept.txStream_eq ?_
  rw [emitPending_of_other h.transmitPhase_eq_false,
    emitPending_of_other (transmitPhase_of_receivePhase h.receivePhase_eq_true)]

theorem LinesBegin.txStream_eq {s t : State} (hi : Inv s) (h : LinesBegin s t) : txStream t = txStream s := by
  cases h with
  | inProgress => rfl
  | accepted hready hm =>
    refine TxKept.txStream_eq ⟨rfl, rfl, rfl, rfl, rfl⟩ ?_
    rw [hi.emitPending_of_ready hready]
    obtain rfl | rfl := hm <;> rfl

theorem RxEvent.main_eq {sound : Prop} {s t : State} (h : RxEvent sound s t) : t.ctl.main = s.ctl.main := by
  cases h with
  | tickStarts | feedMoves => simp
  | _ => rfl

theorem RxEvent.txStream_eq {sound : Prop} {s t : State} (h : RxEvent sound s t) : txStream t = txStream s := by
  refine h.txKept.txStream_eq ?_
  simp only [emitPending, h.main_eq]

/-- R59: `DRAIN` moves bytes from the buffer to the sink. -/
theorem txStream_drainOnce {s u : State} {n : Nat} (hi : Inv s) (h : drainOnce s = .next (u, n)) :
    txStream u = txStream s := by
  rw [hi.drainOnce_eq rfl] at h
  obtain ⟨rfl, -⟩ := Prod.mk.inj (Host.Outcome.next.inj h)
  have hemit (k : Nat) (v : State) : emitPending (txAdvance k v) = emitPending v := by
    simp only [emitPending, txAdvance_ctl]
  simp only [txStream, hi.txPending_txAdvance, hemit, txAdvance_bnd, List.append_assoc]
  rw [← List.append_assoc (List.take _ _), List.take_append_drop]
  rfl

theorem TxLine.txStream_eq {s t : State} (hi : Inv s) (h : TxLine s t) : txStream t = txStream s := by
  cases h with
  | drains _ _ h => exact txStream_drainOnce hi h
  | drained hm => simp only [txStream, emitPending_emitDrain hm]; rfl
  | @writes rest hm =>
    have hnone := txPending_of_drained (hi.ctl.emitSends _ hm)
    have hnone' : txPending (emitWrite rest s) = [] := by rw [emitWrite_eq]; exact hnone
    have hrest : emitPending (emitWrite rest s) = rest.drop (sinkSpace s) := by rw [emitWrite_eq]; rfl
    have hsink : (emitWrite rest s).bnd.sinkQ = s.bnd.sinkQ ++ rest.take (sinkSpace s) := by rw [emitWrite_eq]
    have hwire : (emitWrite rest s).bnd.wireTx = s.bnd.wireTx := by rw [emitWrite_eq]
    rw [txStream, txStream, hnone, hnone', emitPending_emitSend hm, hrest, hsink, hwire, List.append_nil, List.append_nil,
      List.append_assoc, List.append_assoc, List.take_append_drop, List.append_assoc]
  | ends hm => simp only [txStream, emitPending_emitSend hm]; rfl

theorem txStream_of_rxLines {s t : State} (h : ReflTransGen RxLine s t) : txStream t = txStream s :=
  chain_induct (P := fun u => txStream u = txStream s) (fun _ _ hu hl => hl.txStream_eq.trans hu) rfl h

theorem txStream_of_rxEvents {sound : Prop} {s t : State} (h : ReflTransGen (RxEvent sound) s t) : txStream t = txStream s :=
  chain_induct (P := fun u => txStream u = txStream s) (fun _ _ hu hl => hl.txStream_eq.trans hu) rfl h

theorem Inv.txStream_of_txLines {s t : State} (hi : Inv s) (h : ReflTransGen TxLine s t) : txStream t = txStream s :=
  (chain_induct (P := fun u => Inv u ∧ txStream u = txStream s)
    (fun _ _ hu hl => ⟨hu.1.txChange (.line hl), (hl.txStream_eq hu.1).trans hu.2⟩) ⟨hi, rfl⟩ h).2

/-- R59: an operation that is not of the transmit side leaves the stream. -/
theorem Inv.txStream_of_receive {s t : State} (hi : Inv s) {i : Instr} (hside : transmitSide i = false) (hne : i ≠ .reset)
    (h : exec i s = .next t) : txStream t = txStream s := by
  obtain ⟨u, hu, hchain⟩ | hchain := rxChanges_of_exec hside hne h
  · exact (txStream_of_rxLines hchain).trans (hu.txStream_eq hi)
  · exact txStream_of_rxEvents hchain

/-! ### The frames that an operation adds (R59) -/

theorem txStream_respond (r : Response) (s : State) : txStream (respond r s) = txStream s := rfl

section
variable {s t u : State} (hi : Inv s) (hready : s.ctl.mainBusy = false)
include hi hready

theorem Inv.txStream_enqueueRecord {r : Record} {c : EnqueueCode} (h : enqueueRecord r s = .next (u, c)) :
    txStream u = txStream s ++ (enqueuedPayload r s).flatMap (frameBytes s.build.startToken) := by
  have hemit : emitPending u = [] := by
    rw [enqueueRecord_writes_tx h]; exact hi.emitPending_of_ready hready
  have hbnd : u.bnd = s.bnd := enqueueRecord_bnd h
  rw [txStream, txStream, hemit, hi.emitPending_of_ready hready, txPending_enqueueRecord hi h, hbnd, List.append_nil,
    List.append_nil, List.append_assoc, List.append_assoc, List.append_assoc]

/-- R196: the packet of an `EMIT_NOW` stands behind the buffered bytes. -/
theorem Inv.txStream_emitBegun (p : List Byte) :
    txStream (emitBegun p s) = txStream s ++ frameBytes s.build.startToken p := by
  have hemit : emitPending (emitBegun p s) = frameBytes s.build.startToken p := rfl
  rw [txStream, txStream, hi.emitPending_of_ready hready, hemit, List.append_nil]
  rfl

/-- An accepted command of the transmit side. -/
theorem Inv.txStream_of_accepted {i : Instr} (hcmd : (∃ r, i = .enqueue r) ∨ i = .drain ∨ (∃ x, i = .diagAppend x) ∨
    i = .diagEnqueue ∨ ∃ x, i = .emitNow x) (h : exec i s = .next t) :
    txStream t = txStream s ++ (addedPayloads i s).flatMap (frameBytes s.build.startToken) := by
  simp only [addedPayloads, hready, Bool.false_eq_true, if_false]
  obtain ⟨r, rfl⟩ | rfl | ⟨x, rfl⟩ | rfl | ⟨x, rfl⟩ := hcmd
  · rw [exec_enqueue_of_ready hready] at h
    obtain ⟨⟨u, c⟩, hu, h⟩ := andThen_eq_next.1 h
    obtain rfl := Host.Outcome.next.inj h
    exact (txStream_respond _ u).trans (hi.txStream_enqueueRecord hready hu)
  · rw [exec_drain_of_ready hready] at h
    obtain ⟨⟨u, n⟩, hu, h⟩ := andThen_eq_next.1 h
    obtain rfl := Host.Outcome.next.inj h
    exact (txStream_drainOnce hi hu).trans (List.append_nil _).symm
  · rw [exec_diagAppend_of_ready hready] at h
    exact Host.Outcome.next.inj h ▸ (List.append_nil _).symm
  · rw [exec_diagEnqueue_of_ready hready] at h
    obtain ⟨_, hx, h⟩ := andThen_eq_next.1 h
    obtain ⟨u, c, hu, rfl⟩ := diagEnqueueRecord_eq_next.1 hx
    obtain rfl := Host.Outcome.next.inj h
    have hadds := hi.txStream_enqueueRecord hready hu
    exact hadds
  · rw [exec_emitNow_of_ready hready] at h
    obtain ⟨u, hu, h⟩ := andThen_eq_next.1 h
    obtain ⟨p, hp, rfl⟩ := emitPrepare_begins hu
    have hbegun : Inv (emitBegun p s) := hi.txChange (.emitBegins hready hp)
    rw [hbegun.txStream_of_txLines (txLines_of_mainLines rfl h), hi.txStream_emitBegun hready]
    simp only [hp, List.flatMap_singleton]

end

/-- No command is accepted while another is in progress, so none adds a frame. -/
theorem addedPayloads_of_busy {i : Instr} {s : State} (h : s.ctl.mainBusy = true) : addedPayloads i s = [] := if_pos h

theorem Inv.txStream_of_command {s t : State} (hi : Inv s) {i : Instr} (hcmd : (∃ r, i = .enqueue r) ∨ i = .drain ∨
    (∃ x, i = .diagAppend x) ∨ i = .diagEnqueue ∨ ∃ x, i = .emitNow x) (h : exec i s = .next t) :
    txStream t = txStream s ++ (addedPayloads i s).flatMap (frameBytes s.build.startToken) := by
  cases hb : s.ctl.mainBusy
  · exact hi.txStream_of_accepted hb hcmd h
  · rw [exec_of_busy (.inr (.inr (by tauto))) hb] at h
    obtain rfl := Host.Outcome.next.inj h
    rw [addedPayloads_of_busy hb]
    exact (List.append_nil _).symm

/-- The operations that enqueue and emit nothing. -/
theorem addedPayloads_of_other {i : Instr} {s : State} (h : transmitSide i = false ∨ i = .sinkSpace ∨ i = .sinkPop ∨
    ∃ bytes, i = .sinkWrite bytes) : addedPayloads i s = [] := by
  by_cases hb : s.ctl.mainBusy = true
  · exact addedPayloads_of_busy hb
  · refine (if_neg hb).trans ?_
    obtain h | rfl | rfl | ⟨bytes, rfl⟩ := h
    · cases i <;> simp_all [transmitSide]
    · rfl
    · rfl
    · rfl

/-- R184: the byte that leaves for the wire stays in the stream. -/
theorem txStream_of_sinkPop {s t : State} (h : exec .sinkPop s = .next t) : txStream t = txStream s := by
  cases hq : s.bnd.sinkQ with
  | nil => exact Host.Outcome.next.inj ((exec_sinkPop_of_nil hq).symm.trans h) ▸ rfl
  | cons b rest =>
    obtain rfl := Host.Outcome.next.inj ((exec_sinkPop_of_cons hq).symm.trans h)
    have hpending (v : Boundary) : txPending { s with bnd := v } = txPending s := rfl
    have hemit (v : Boundary) : emitPending { s with bnd := v } = emitPending s := rfl
    simp only [txStream, hq, hpending, hemit, List.append_assoc, List.cons_append, List.nil_append]

theorem Inv.txStream_of_sinkWrite {s t : State} (hi : Inv s) {bytes : List Byte} (h : exec (.sinkWrite bytes) s = .next t) :
    txStream t = txStream s := by
  obtain rfl | ⟨u, c, hchain, rfl⟩ := txLines_of_onWrite h
  · rfl
  · exact (hi.txStream_of_txLines hchain :)

theorem Inv.txStream_of_exec {s t : State} (hi : Inv s) {i : Instr} (hne : i ≠ .reset) (h : exec i s = .next t) :
    txStream t = txStream s ++ (addedPayloads i s).flatMap (frameBytes s.build.startToken) := by
  cases hside : transmitSide i
  case false =>
    rw [addedPayloads_of_other (.inl hside), hi.txStream_of_receive hside hne h]
    exact (List.append_nil _).symm
  case true =>
    have hother (hkeep : txStream t = txStream s) (hnone : addedPayloads i s = []) :
        txStream t = txStream s ++ (addedPayloads i s).flatMap (frameBytes s.build.startToken) := by
      rw [hnone, hkeep]; exact (List.append_nil _).symm
    cases i with
    | enqueue _ | drain | diagAppend _ | diagEnqueue | emitNow _ => exact hi.txStream_of_command (by simp) h
    | sinkSpace => exact hother (Host.Outcome.next.inj h ▸ rfl) (addedPayloads_of_other (by simp))
    | sinkWrite bytes => exact hother (hi.txStream_of_sinkWrite h) (addedPayloads_of_other (by simp))
    | sinkPop => exact hother (txStream_of_sinkPop h) (addedPayloads_of_other (by simp))
    | nop | feed | pollReceive | rxbToken | rxbSkip _ | rxbLenH _ | rxbLenL _ | rxbBody _ | hrqPush _ | hrqWsync | hrqRsync
    | hrqAvail | hrqPop | tick | feedTick | reset | frame _ => cases hside

/-- Settles O39: operation by operation, and for a resumed one line by line. -/
theorem transmitPathKeepsOrder : Obligations.TransmitPathKeepsOrder := by
  intro s t hi
  refine ⟨fun i hne => hi.txStream_of_exec hne, fun h => ?main, fun h => txStream_of_rxEvents (rxEvents_of_runFeed h)⟩
  obtain ⟨-, hchain⟩ | ⟨-, hchain⟩ := changes_of_runMain h
  · exact txStream_of_rxLines hchain
  · exact hi.txStream_of_txLines hchain

/-! ### Whole frames (R49 (g), R58) -/

/-- A buffer that is emptied, or whose offset `tx_head` and cells below it stay, still holds whole frames. -/
theorem WholeFrames.of_kept {s t : State} (hw : WholeFrames s) (hbuild : t.build = s.build)
    (h : t.tx.head = 0 ∨ t.tx.buf = s.tx.buf ∧ t.tx.head = s.tx.head) : WholeFrames t := by
  obtain h0 | ⟨hbuf, hhead⟩ := h
  · exact wholeFrames_of_empty h0
  · obtain ⟨ps, hlen, hread⟩ := hw
    exact ⟨ps, hlen, by rw [hbuild, hbuf, hhead]; exact hread⟩

theorem Inv.encScratchCap_le {s : State} (hi : Inv s) : s.build.encScratchCap ≤ 65535 := by
  have hwf := hi.build
  simp only [Build.wf, Bool.and_eq_true, decide_eq_true_eq] at hwf
  omega

/-- R173: an `ENQUEUE` writes a whole frame behind the others. -/
theorem WholeFrames.enqueueRecord {s u : State} {r : Record} {c : EnqueueCode} (hw : WholeFrames s) (hi : Inv s)
    (h : enqueueRecord r s = .next (u, c)) : WholeFrames u := by
  obtain ⟨-, hx⟩ | ⟨p, henc, ⟨-, hx⟩ | ⟨hroom, hx⟩⟩ := enqueueRecord_cases h <;> obtain ⟨rfl, -⟩ := Prod.mk.inj hx
  · exact hw.of_kept rfl (.inr ⟨rfl, rfl⟩)
  · exact hw.of_kept rfl (.inr ⟨rfl, rfl⟩)
  · obtain ⟨ps, hlen, hread⟩ := hw
    refine ⟨ps ++ [p], fun q hq => ?_, ?_⟩
    · obtain hq | hq := List.mem_append.1 hq
      · exact hlen q hq
      · obtain rfl := List.mem_singleton.1 hq
        exact (encodeRecord_ok_length henc).trans hi.encScratchCap_le
    · have hnew := memReadRun_memSetRun hread (new := frameBytes s.build.startToken p) (by rw [frameBytes_length]; omega)
      rw [frameBytes_length, Nat.zero_add] at hnew
      rw [List.flatMap_append, List.flatMap_singleton]
      exact hnew

theorem WholeFrames.drainOnce {s u : State} {n : Nat} (hw : WholeFrames s) (h : drainOnce s = .next (u, n)) :
    WholeFrames u := by
  obtain ⟨bytes, -, rfl⟩ := drainOnce_advances h
  refine hw.of_kept rfl ?_
  by_cases hdrained : s.tx.tail + bytes.length = s.tx.head
  · exact .inl (if_pos hdrained)
  · exact .inr ⟨rfl, if_neg hdrained⟩

theorem WholeFrames.txKept {s t : State} (hw : WholeFrames s) (h : TxKept s t) : WholeFrames t :=
  hw.of_kept h.build (.inr ⟨by rw [h.tx], by rw [h.tx]⟩)

theorem WholeFrames.txChange {s t : State} (hw : WholeFrames s) (hi : Inv s) (h : TxChange s t) : WholeFrames t := by
  cases h with
  | line h =>
    cases h with
    | drains _ _ h => exact hw.drainOnce h
    | writes => rw [emitWrite_eq]; exact hw.of_kept rfl (.inr ⟨rfl, rfl⟩)
    | drained | ends => exact hw.of_kept rfl (.inr ⟨rfl, rfl⟩)
  | enqueues _ h | diagEnqueues _ h => exact (hw.enqueueRecord hi h).of_kept rfl (.inr ⟨rfl, rfl⟩)
  | drains _ h => exact (hw.drainOnce h).of_kept rfl (.inr ⟨rfl, rfl⟩)
  | emitBegins | appends | sinkPops | answers => exact hw.of_kept rfl (.inr ⟨rfl, rfl⟩)

theorem WholeFrames.moves {s t : State} (hw : WholeFrames s) (hi : Inv s) (h : Moves s t) : WholeFrames t := by
  refine (h.induct (P := fun u => Inv u ∧ WholeFrames u) ?_ ?_ ?_ ?_ ⟨hi, hw⟩).2
  · exact fun _ _ ⟨hu, hwu⟩ hv => ⟨hu.linesBegin hv, hwu.txKept hv.txKept⟩
  · exact fun _ _ ⟨hu, hwu⟩ hv => ⟨hu.rxLine hv, hwu.txKept hv.txKept⟩
  · exact fun _ _ ⟨hu, hwu⟩ hv => ⟨hu.rxEvent hi.ctl hv, hwu.txKept hv.txKept⟩
  · exact fun _ _ ⟨hu, hwu⟩ hv => ⟨hu.txChange hv, hwu.txChange hu hv⟩

/-- Settles O40: of all changes only an `ENQUEUE` writes `tx_buf`, and it writes a whole frame. -/
theorem stepKeepsWholeFrames : Obligations.StepKeepsWholeFrames := by
  intro s t hi hw h
  obtain rfl | ⟨rest, slice, hmoves | rfl⟩ := step_moves h
  · exact hw
  · exact WholeFrames.moves (s := takeTurn rest slice s) (hw.of_kept rfl (.inr ⟨rfl, rfl⟩)) (hi.takeTurn rest slice) hmoves
  · exact wholeFrames_of_empty rfl

end Sys2Proof.Machine
end

section
/-! PROOFS of `EMIT_NOW` (R195 to R197): what its lines come to from the state in which its packet stands, and where they spin. -/

namespace Sys2Proof.Machine

/-! ### Spinning on a full sink (R197) -/

section
variable {s : State} (hfull : sinkSpace s = 0)
include hfull

theorem drainOnce_of_full (hsome : s.tx.tail < s.tx.head) : drainOnce s = .next (s, s.tx.head - s.tx.tail) := by
  have hread : memReadRun .txBuf s.build.txCap s.tx.buf s.tx.tail 0 = .next [] := rfl
  have hadvance : txAdvance 0 s = s := txAdvance_of_pending hsome.ne
  rw [drainOnce, hfull, Nat.zero_min, hread, andThen_next]
  simp only [sinkAccept, List.length_nil, Nat.zero_min, List.take_nil, List.append_nil, hadvance]

theorem mainLine_emitDrain_of_full {packet : List Byte} (hm : s.ctl.main = .emitDrain packet) (hsome : s.tx.tail < s.tx.head) :
    mainLine s = .next s := by
  rw [mainLine_emitDrain hm hsome, drainOnce_of_full hfull hsome, andThen_next]

theorem mainLine_emitSend_of_full {rest : List Byte} (hm : s.ctl.main = .emitSend rest) (hne : rest ≠ []) :
    mainLine s = .next s := by
  rw [mainLine_emitSend hm hne, emitWrite_eq, hfull, List.take_zero, List.append_nil, List.drop_zero, ← hm]

end

/-! ### The lines from the packet on (R196) -/

/-- The buffered bytes are with the sink, and the packet is to be sent. -/
def emitDrained (p : List Byte) (s : State) : State :=
  { s with
    tx := { s.tx with tail := 0, head := 0, encScratch := memSetRun s.tx.encScratch 0 p }
    ctl := { s.ctl with mainBusy := true, main := .emitDrain (frameBytes s.build.startToken p) }
    bnd := { s.bnd with diagBuf := [], sinkQ := s.bnd.sinkQ ++ txPending s } }

/-- The sink is full, and bytes were left in the buffer. -/
def emitHeld (p : List Byte) (s : State) : State :=
  { s with
    tx := { s.tx with tail := s.tx.tail + sinkSpace s, encScratch := memSetRun s.tx.encScratch 0 p }
    ctl := { s.ctl with mainBusy := true, main := .emitDrain (frameBytes s.build.startToken p) }
    bnd := { s.bnd with diagBuf := [], sinkQ := s.bnd.sinkQ ++ (txPending s).take (sinkSpace s) } }

/-- Phase 2 has handed over `k` bytes of the packet. -/
def emitSent (p : List Byte) (k : Nat) (s : State) : State :=
  { s with
    tx := { s.tx with tail := 0, head := 0, encScratch := memSetRun s.tx.encScratch 0 p }
    ctl := { s.ctl with mainBusy := true, main := .emitSend ((frameBytes s.build.startToken p).drop k) }
    bnd := { s.bnd with
      diagBuf := [], sinkQ := s.bnd.sinkQ ++ txPending s ++ (frameBytes s.build.startToken p).take k } }

section
variable {p : List Byte} {s : State} (hi : Inv s)
include hi

theorem Inv.drained_of_none (hnone : ¬ s.tx.tail < s.tx.head) : s.tx.tail = 0 ∧ s.tx.head = 0 := by
  have hhead := hi.tx.head_eq_zero hnone
  have := hi.tx.tail_le
  omega

/-- R196: phase 1 where the sink takes every buffered byte, in one line or, with none buffered, in no line. -/
theorem mainLines_emitBegun_of_room (hbegun : Inv (emitBegun p s)) (hroom : s.tx.head - s.tx.tail ≤ sinkSpace s) :
    ∃ k ≤ 1, ∀ n, mainLines (n + k) (emitBegun p s) = mainLines n (emitDrained p s) := by
  by_cases hsome : s.tx.tail < s.tx.head
  · refine ⟨1, le_rfl, fun n => ?_⟩
    have hall : s.tx.tail + (s.tx.head - s.tx.tail) = s.tx.head := Nat.add_sub_cancel' hi.tx.tail_le
    have hdrain := hbegun.drainOnce_eq (n := s.tx.head - s.tx.tail) (Nat.min_eq_right hroom).symm
    have htake : (txPending (emitBegun p s)).take (s.tx.head - s.tx.tail) = txPending s :=
      List.take_of_length_le (txPending_length hi).le
    rw [txAdvance_of_drained (s := { emitBegun p s with bnd := _ }) hall, htake] at hdrain
    have hline : mainLine (emitBegun p s) = .next (emitDrained p s) := by
      rw [mainLine_emitDrain (s := emitBegun p s) rfl hsome, hdrain, andThen_next]; rfl
    rw [mainLines_of_busy rfl, hline, andThen_next]
  · obtain ⟨htail, hhead⟩ := hi.drained_of_none hsome
    refine ⟨0, Nat.zero_le _, fun n => congrArg (mainLines n) ?_⟩
    simp only [emitBegun, emitDrained, txPending_of_drained (htail.trans hhead.symm), List.append_nil, htail, hhead]

/-- R196: phase 2 hands over what the sink takes of the packet. -/
theorem mainLines_emitDrained (n : Nat) : mainLines (n + 2) (emitDrained p s) =
    mainLines n (emitSent p (sinkSpace s - (s.tx.head - s.tx.tail)) s) := by
  have hspace : sinkSpace (setMain (.emitSend (frameBytes s.build.startToken p)) (emitDrained p s)) =
      sinkSpace s - (s.tx.head - s.tx.tail) := by
    simp only [sinkSpace, emitDrained, setMain, List.length_append, txPending_length hi, Nat.sub_add_eq]
  rw [mainLines_of_busy rfl, mainLine_emitDrain_of_drained (s := emitDrained p s) rfl (Nat.lt_irrefl 0), andThen_next,
    mainLines_of_busy rfl, mainLine_emitSend rfl (by simp [frameBytes]), andThen_next, emitWrite_eq, hspace]
  rfl

/-- R196: an `EMIT_NOW` for which the sink has room completes. -/
theorem mainLines_emitBegun_of_fits (hbegun : Inv (emitBegun p s))
    (hfits : (s.tx.head - s.tx.tail) + (p.length + 3) ≤ sinkSpace s) {n : Nat} (hn : 4 ≤ n) :
    mainLines n (emitBegun p s) =
      .next (commandDone (emitSent p (sinkSpace s - (s.tx.head - s.tx.tail)) s)) := by
  obtain ⟨k, hk, hlines⟩ := mainLines_emitBegun_of_room hi hbegun (by omega)
  obtain ⟨m, rfl⟩ := Nat.exists_eq_add_of_le hn
  have hall : (frameBytes s.build.startToken p).drop (sinkSpace s - (s.tx.head - s.tx.tail)) = [] :=
    List.drop_eq_nil_of_le (by rw [frameBytes_length]; omega)
  have hends : mainLine (emitSent p (sinkSpace s - (s.tx.head - s.tx.tail)) s) = _ :=
    mainLine_emitSend_nil (congrArg MainPhase.emitSend hall)
  rw [show 4 + m = (m + (1 - k) + 1) + 2 + k by omega, hlines, mainLines_emitDrained hi, mainLines_of_busy rfl, hends,
    andThen_next, mainLines_ready rfl]

/-- R197: the sink takes every buffered byte but not the whole packet. -/
theorem mainLines_emitBegun_of_partial (hbegun : Inv (emitBegun p s)) (hroom : s.tx.head - s.tx.tail ≤ sinkSpace s)
    (hfull : sinkSpace s < (s.tx.head - s.tx.tail) + (p.length + 3)) {n : Nat} (hn : 4 ≤ n) :
    mainLines n (emitBegun p s) = .next (emitSent p (sinkSpace s - (s.tx.head - s.tx.tail)) s) := by
  obtain ⟨k, hk, hlines⟩ := mainLines_emitBegun_of_room hi hbegun hroom
  obtain ⟨m, rfl⟩ := Nat.exists_eq_add_of_le hn
  have hlen := frameBytes_length s.build.startToken p
  have hspace : sinkSpace (emitSent p (sinkSpace s - (s.tx.head - s.tx.tail)) s) = 0 := by
    simp only [sinkSpace, emitSent, List.length_append, List.length_take, txPending_length hi, hlen] at hroom hfull ⊢
    omega
  have hspins := mainLine_emitSend_of_full hspace rfl (List.ne_nil_of_length_pos (by rw [List.length_drop]; omega))
  rw [show 4 + m = (m + (1 - k) + 1) + 2 + k by omega, hlines, mainLines_emitDrained hi, mainLines_of_spin hspins]

/-- R197: the sink does not take every buffered byte. -/
theorem mainLines_emitBegun_of_held (hbegun : Inv (emitBegun p s)) (hheld : sinkSpace s < s.tx.head - s.tx.tail) {n : Nat}
    (hn : 1 ≤ n) : mainLines n (emitBegun p s) = .next (emitHeld p s) := by
  obtain ⟨m, rfl⟩ := Nat.exists_eq_add_of_le' hn
  have hdrain := hbegun.drainOnce_eq (n := sinkSpace s) (Nat.min_eq_left hheld.le).symm
  rw [txAdvance_of_pending (s := { emitBegun p s with bnd := _ }) (show s.tx.tail + sinkSpace s ≠ s.tx.head by omega)]
    at hdrain
  have hline : mainLine (emitBegun p s) = .next (emitHeld p s) := by
    rw [mainLine_emitDrain (s := emitBegun p s) rfl (show s.tx.tail < s.tx.head by omega), hdrain, andThen_next]; rfl
  have hspace : sinkSpace (emitHeld p s) = 0 := by
    have hlen := txPending_length hi
    simp only [sinkSpace, emitHeld, List.length_append, List.length_take] at hheld ⊢
    omega
  rw [mainLines_of_busy rfl, hline, andThen_next,
    mainLines_of_spin (mainLine_emitDrain_of_full hspace rfl (show s.tx.tail + sinkSpace s < s.tx.head by omega))]

/-- R196, R197: with the lines that a command is granted, an `EMIT_NOW` completes or comes to the point at which it spins. -/
theorem exists_emit_end (hbegun : Inv (emitBegun p s)) : ∃ v, ∀ n, 4 ≤ n → mainLines n (emitBegun p s) = .next v := by
  obtain hheld | hroom := Nat.lt_or_ge (sinkSpace s) (s.tx.head - s.tx.tail)
  · exact ⟨_, fun n hn => mainLines_emitBegun_of_held hi hbegun hheld (by omega)⟩
  · obtain hfull | hfits := Nat.lt_or_ge (sinkSpace s) ((s.tx.head - s.tx.tail) + (p.length + 3))
    · exact ⟨_, fun n hn => mainLines_emitBegun_of_partial hi hbegun hroom hfull hn⟩
    · exact ⟨_, fun n hn => mainLines_emitBegun_of_fits hi hbegun hfits hn⟩

end

/-! ### The command (R195 to R197) -/

theorem exec_emitNow_of_ok {x p : List Byte} {s : State} (hready : s.ctl.mainBusy = false)
    (henc : encodeRecord s.build (emitRecord x s) = .ok p) :
    exec (.emitNow x) s = mainLines (lines s (mainFuel s)) (emitBegun p s) := by
  rw [exec_emitNow_of_ready hready, emitPrepare_of_ok henc, andThen_next]; rfl

/-- What an `EMIT_NOW` left in progress has changed, with the sink full. -/
theorem Inv.emitNow_spins {s : State} {p : List Byte} (hi : Inv s) (hbegun : Inv (emitBegun p s))
    (hfull : sinkSpace s < (s.tx.head - s.tx.tail) + (p.length + 3)) {n : Nat} (hn : 4 ≤ n) :
    ∃ t, mainLines n (emitBegun p s) = .next t ∧ t.bnd.sinkQ.length = s.build.sinkCap ∧
      t = { s with
        tx := { s.tx with tail := t.tx.tail, head := t.tx.head, encScratch := t.tx.encScratch }
        ctl := { s.ctl with mainBusy := true, main := t.ctl.main }
        bnd := { s.bnd with diagBuf := [], sinkQ := t.bnd.sinkQ } } := by
  have hlen := txPending_length hi
  have hframe := frameBytes_length s.build.startToken p
  have hsink := hi.bnd.sink
  obtain hheld | hroom := Nat.lt_or_ge (sinkSpace s) (s.tx.head - s.tx.tail)
  · refine ⟨_, mainLines_emitBegun_of_held hi hbegun hheld (by omega), ?_, rfl⟩
    simp only [sinkSpace, emitHeld, List.length_append, List.length_take] at hheld ⊢
    omega
  · refine ⟨_, mainLines_emitBegun_of_partial hi hbegun hroom hfull hn, ?_, rfl⟩
    simp only [sinkSpace, emitSent, List.length_append, List.length_take, hlen, hframe] at hroom hfull ⊢
    omega

theorem lines_of_toTheEnd {s : State} (hslice : s.slice = none) (n : Nat) : lines s n = n := by rw [lines, hslice]; rfl

theorem eight_le_mainFuel (s : State) : 8 ≤ mainFuel s := Nat.le_add_left _ _

/-- Settles O44: by whether the sink has room for all of it; and the lines of a full sink. -/
theorem emitNowDrainsThenSends : Obligations.EmitNowDrainsThenSends := by
  refine ⟨fun s x p hi hready hslice henc => ?command, fun s _ hsink hm => ?spins⟩
  case command =>
    have hbegun : Inv (emitBegun p s) := hi.txChange (.emitBegins hready henc)
    have hfuel := eight_le_mainFuel s
    rw [exec_emitNow_of_ok hready henc, lines_of_toTheEnd hslice]
    refine ⟨fun hfits => ⟨memSetRun s.tx.encScratch 0 p, ?_⟩, fun hfull => ?_⟩
    · rw [mainLines_emitBegun_of_fits hi hbegun hfits (by omega), emitSent, commandDone,
        List.take_of_length_le (by rw [frameBytes_length, sinkSpace]; omega)]
      dsimp only
      rw [← hready, ← hi.ctl.main_eq_idle hready]
    · obtain ⟨t, ht, hlen, hshape⟩ := hi.emitNow_spins hbegun hfull (n := mainFuel s) (by omega)
      refine ⟨t, ht, hlen, ?_, hshape⟩
      rw [hbegun.txStream_of_txLines (txLines_of_mainLines rfl ht), hi.txStream_emitBegun hready]
  case spins =>
    have hspace : sinkSpace s = 0 := by rw [sinkSpace, hsink]; exact Nat.sub_self _
    refine mainLines_of_spin ?_ _
    obtain ⟨packet, hm, hsome⟩ | ⟨rest, hm, hne⟩ := hm
    · exact mainLine_emitDrain_of_full hspace hm hsome
    · exact mainLine_emitSend_of_full hspace hm hne

end Sys2Proof.Machine
end

section
/-! PROOFS of the family 60_exceptions.md, continued: a tick-started `FEED` and a command of the transmit side in either order (R217 (f)).
What the `FEED` writes can be laid over any state; the `FEED` does the same beside any transmit side, and the command does the
same beside anything that the `FEED` wrote. -/

namespace Sys2Proof.Machine

/-- `s`, with all that a tick-started `FEED` writes as it is in `t`. -/
def fedFrom (t s : State) : State :=
  { s with
    hrq := t.hrq
    rx := t.rx
    ctl := { s.ctl with feedPending := t.ctl.feedPending, feedActive := t.ctl.feedActive }
    bnd := { s.bnd with diagLog := t.bnd.diagLog } }

theorem fedFrom_self (s : State) : fedFrom s s = s := rfl

/-! ### The `FEED` beside another transmit side -/

theorem feedStart_fedFrom {s w : State} (hbuild : w.build = s.build) : feedStart (fedFrom s w) = fedFrom (feedStart s) w := by
  simp only [feedStart, fedFrom, hbuild]
  split <;> rfl

theorem feedMakeRoom_fedFrom {s w : State} (hbuild : w.build = s.build) :
    feedMakeRoom (fedFrom s w) = fedFrom (feedMakeRoom s) w := by
  by_cases hfull : s.rx.head = s.build.rxCap
  · have hfull' : (fedFrom s w).rx.head = (fedFrom s w).build.rxCap := hfull.trans (congrArg Build.rxCap hbuild.symm)
    rw [feedMakeRoom_of_full hfull, feedMakeRoom_of_full hfull']; rfl
  · have hroom' : (fedFrom s w).rx.head ≠ (fedFrom s w).build.rxCap := fun h => hfull (h.trans (congrArg Build.rxCap hbuild))
    rw [feedMakeRoom_of_room hfull, feedMakeRoom_of_room hroom']

theorem feedMove_fedFrom {s w : State} (hbuild : w.build = s.build) :
    feedMove (fedFrom s w) = andThen (feedMove s) fun t => .next (fedFrom t w) := by
  simp only [feedMove, fedFrom, hbuild, andThen_assoc, andThen_next]

theorem feedLine_fedFrom {s w : State} (hbuild : w.build = s.build) :
    feedLine (fedFrom s w) = andThen (feedLine s) fun t => .next (fedFrom t w) := by
  have havail : hrqAvail (fedFrom s w).build.hrqAw (fedFrom s w).hrq = hrqAvail s.build.hrqAw s.hrq :=
    congrArg (fun b : Build => hrqAvail b.hrqAw s.hrq) hbuild
  by_cases h0 : hrqAvail s.build.hrqAw s.hrq = 0
  · rw [feedLine, feedLine, havail, if_pos h0, if_pos h0]; rfl
  · rw [feedLine, feedLine, havail, if_neg h0, if_neg h0, feedMakeRoom_fedFrom hbuild,
      feedMove_fedFrom (hbuild.trans (feedMakeRoom_build s).symm)]

theorem feedLines_fedFrom {s w : State} (hbuild : w.build = s.build) (n : Nat) :
    feedLines n (fedFrom s w) = andThen (feedLines n s) fun t => .next (fedFrom t w) := by
  induction n generalizing s with
  | zero => rfl
  | succ n ih =>
    cases ha : s.ctl.feedActive
    · rw [feedLines_idle (s := fedFrom s w) ha, feedLines_idle ha]; rfl
    · rw [feedLines, feedLines, if_pos ha, if_pos (show (fedFrom s w).ctl.feedActive = true from ha), feedLine_fedFrom hbuild]
      cases hl : feedLine s with
      | next u => exact ih (hbuild.trans (feedLine_build hl).symm)
      | fault f => rfl
      | refused r => rfl

/-- What a `FEED.TICK` reads besides what it writes. -/
structure SameTrigger (s w : State) : Prop where
  build : w.build = s.build
  feedIe : w.ctl.feedIe = s.ctl.feedIe
  rxLock : w.ctl.rxLock = s.ctl.rxLock
  slice : w.slice = s.slice

theorem exec_feedTick_fedFrom {s w : State} (h : SameTrigger s w) :
    exec .feedTick (fedFrom s w) = andThen (exec .feedTick s) fun t => .next (fedFrom t w) := by
  have hen : feedTickEnabled (fedFrom s w) = feedTickEnabled s := by
    simp only [feedTickEnabled, fedFrom, h.build, h.feedIe, h.rxLock]
  cases hs : feedTickEnabled s
  · rw [exec_feedTick_of_disabled hs, exec_feedTick_of_disabled (hen.trans hs)]; rfl
  · have hlines : lines (fedFrom s w) (feedFuel (fedFrom s w).build) = lines s (feedFuel s.build) := by
      simp only [lines, fedFrom, h.build, h.slice]
    have hstart : feedTickStart (fedFrom s w) = fedFrom (feedTickStart s) w :=
      feedStart_fedFrom (s := { s with ctl := { s.ctl with feedPending := false } }) h.build
    rw [exec_feedTick_eq hs, exec_feedTick_eq (hen.trans hs), hlines, hstart, feedLines_fedFrom (by simpa using h.build)]

/-! ### The command beside what the `FEED` wrote -/

section
variable (t : State) {s : State}

theorem enqueueRecord_fedFrom (r : Record) :
    enqueueRecord r (fedFrom t s) = andThen (enqueueRecord r s) fun x => .next (fedFrom t x.1, x.2) := by
  cases henc : encodeRecord s.build r with
  | didNotFit => rw [enqueueRecord_of_didNotFit (s := fedFrom t s) henc, enqueueRecord_of_didNotFit henc]; rfl
  | other c => rw [enqueueRecord_of_other (s := fedFrom t s) henc, enqueueRecord_of_other henc]; rfl
  | ok p =>
    obtain hfull | hroom := Nat.lt_or_ge (s.build.txCap - s.tx.head) (p.length + 3)
    · rw [enqueueRecord_of_full (s := fedFrom t s) henc hfull, enqueueRecord_of_full henc hfull]; rfl
    · rw [enqueueRecord_of_room (s := fedFrom t s) henc hroom, enqueueRecord_of_room henc hroom]; rfl

theorem drainOnce_fedFrom :
    drainOnce (fedFrom t s) = andThen (drainOnce s) fun x => .next (fedFrom t x.1, x.2) := by
  have hspace : sinkSpace (fedFrom t s) = sinkSpace s := rfl
  have hbuild : (fedFrom t s).build = s.build := rfl
  have htx : (fedFrom t s).tx = s.tx := rfl
  simp only [drainOnce, hspace, hbuild, htx, andThen_assoc, andThen_next, txAdvance_eq]
  rfl

theorem mainLine_fedFrom (hm : receivePhase s.ctl.main = false) :
    mainLine (fedFrom t s) = andThen (mainLine s) fun u => .next (fedFrom t u) := by
  cases hs : s.ctl.main with
  | idle =>
    have hidle {u : State} (h : u.ctl.main = .idle) : mainLine u = .next u := by rw [mainLine, h]
    rw [hidle hs, hidle (u := fedFrom t s) hs]; rfl
  | emitDrain packet =>
    by_cases hsome : s.tx.tail < s.tx.head
    · rw [mainLine_emitDrain hs hsome, mainLine_emitDrain (s := fedFrom t s) hs hsome, drainOnce_fedFrom, andThen_assoc,
        andThen_assoc]
      rfl
    · rw [mainLine_emitDrain_of_drained hs hsome, mainLine_emitDrain_of_drained (s := fedFrom t s) hs hsome]; rfl
  | emitSend rest =>
    by_cases hne : rest = []
    · subst hne
      rw [mainLine_emitSend_nil hs, mainLine_emitSend_nil (s := fedFrom t s) hs]; rfl
    · rw [mainLine_emitSend hs hne, mainLine_emitSend (s := fedFrom t s) hs hne, emitWrite_eq, emitWrite_eq]; rfl
  | feedWait | feedRun | pollWait | pollFeed | pollTest | pollScan => rw [hs] at hm; cases hm

theorem receivePhase_of_mainLine {u : State} (hm : receivePhase s.ctl.main = false) (h : mainLine s = .next u) :
    receivePhase u.ctl.main = false := by
  obtain rfl | ⟨hs, -⟩ | ⟨-, hline⟩ := changes_of_mainLine h
  · exact hm
  · exact absurd hs (by simp [hm])
  · exact hline.receivePhase_eq_false

theorem mainLines_fedFrom (hm : receivePhase s.ctl.main = false) (n : Nat) :
    mainLines n (fedFrom t s) = andThen (mainLines n s) fun u => .next (fedFrom t u) := by
  induction n generalizing s with
  | zero => rfl
  | succ n ih =>
    cases hb : s.ctl.mainBusy
    · rw [mainLines_ready hb, mainLines_ready (s := fedFrom t s) hb]; rfl
    · rw [mainLines_of_busy hb, mainLines_of_busy (s := fedFrom t s) hb, mainLine_fedFrom t hm]
      cases hl : mainLine s with
      | next u => exact ih (receivePhase_of_mainLine hm hl)
      | fault f => rfl
      | refused r => rfl

/-- R196: with the lines granted by the schedule, or with those of a whole command, whose number counts `rx_head`. -/
theorem exec_emitNow_fedFrom (x : List Byte) (hi : Inv s) (hready : s.ctl.mainBusy = false) :
    exec (.emitNow x) (fedFrom t s) = andThen (exec (.emitNow x) s) fun u => .next (fedFrom t u) := by
  by_cases henc : ∃ p, encodeRecord s.build (emitRecord x s) = .ok p
  · obtain ⟨p, henc⟩ := henc
    rw [exec_emitNow_of_ok hready henc, exec_emitNow_of_ok (s := fedFrom t s) hready henc]
    refine (mainLines_fedFrom t (s := emitBegun p s) rfl _).trans ?_
    cases hslice : s.slice with
    | some k =>
      have hlines (u : State) (hu : u.slice = s.slice) (n : Nat) : lines u n = k := by rw [lines, hu, hslice]; rfl
      rw [hlines s rfl, hlines (fedFrom t s) rfl]
    | none =>
      obtain ⟨v, hv⟩ := exists_emit_end hi (hi.txChange (.emitBegins hready henc))
      have hfuel := eight_le_mainFuel s
      have hfuel' := eight_le_mainFuel (fedFrom t s)
      rw [lines_of_toTheEnd hslice, lines_of_toTheEnd (s := fedFrom t s) hslice, hv _ (by omega), hv _ (by omega)]
  · have hfails (p : List Byte) : encodeRecord s.build (emitRecord x s) ≠ .ok p := fun hp => henc ⟨p, hp⟩
    rw [exec_emitNow_of_ready hready, exec_emitNow_of_ready (s := fedFrom t s) hready, emitPrepare_of_failure hfails,
      emitPrepare_of_failure (s := fedFrom t s) hfails]
    rfl

/-- The commands of the transmit and the diagnostic side. -/
theorem exec_command_fedFrom {i : Instr} (hi : Inv s) (hcmd : (∃ r, i = .enqueue r) ∨ i = .drain ∨ (∃ x, i = .diagAppend x) ∨
    i = .diagEnqueue ∨ ∃ x, i = .emitNow x) :
    exec i (fedFrom t s) = andThen (exec i s) fun u => .next (fedFrom t u) := by
  cases hb : s.ctl.mainBusy
  case true =>
    rw [exec_of_busy (.inr (.inr (by tauto))) hb, exec_of_busy (s := fedFrom t s) (.inr (.inr (by tauto))) hb]; rfl
  case false =>
    have hb' : (fedFrom t s).ctl.mainBusy = false := hb
    obtain ⟨r, rfl⟩ | rfl | ⟨x, rfl⟩ | rfl | ⟨x, rfl⟩ := hcmd
    · rw [exec_enqueue_of_ready hb, exec_enqueue_of_ready hb', enqueueRecord_fedFrom, andThen_assoc, andThen_assoc]; rfl
    · rw [exec_drain_of_ready hb, exec_drain_of_ready hb', drainOnce_fedFrom, andThen_assoc, andThen_assoc]; rfl
    · rw [exec_diagAppend_of_ready hb, exec_diagAppend_of_ready hb']; rfl
    · rw [exec_diagEnqueue_of_ready hb, exec_diagEnqueue_of_ready hb', diagEnqueueRecord, diagEnqueueRecord, andThen_assoc,
        andThen_assoc, andThen_assoc]
      refine (congrArg (andThen · _) (enqueueRecord_fedFrom t (diagRecord s.build s.bnd.diagBuf))).trans ?_
      rw [andThen_assoc]; rfl
    · exact exec_emitNow_fedFrom t x hi hb

end

theorem TxChange.slice_eq {s t : State} (h : TxChange s t) : t.slice = s.slice := by
  cases h with
  | line h =>
    cases h with
    | drains _ _ h => obtain ⟨_, -, rfl⟩ := drainOnce_advances h; rfl
    | writes => rw [emitWrite_eq]
    | drained | ends => rfl
  | enqueues _ h | diagEnqueues _ h => exact (congrArg State.slice (enqueueRecord_writes_tx h) :)
  | drains _ h => obtain ⟨_, -, rfl⟩ := drainOnce_advances h; rfl
  | appends | emitBegins | sinkPops | answers => rfl

theorem sameTrigger_of_command {i : Instr} {s w : State} (hcmd : (∃ r, i = .enqueue r) ∨ i = .drain ∨
    (∃ x, i = .diagAppend x) ∨ i = .diagEnqueue ∨ ∃ x, i = .emitNow x) (h : exec i s = .next w) : SameTrigger s w := by
  have hchain := txChanges_of_command hcmd h
  have hk := rxKept_of_txChanges hchain
  exact ⟨hk.build, hk.feedIe, hk.rxLock,
    chain_induct (P := fun u => u.slice = s.slice) (fun _ _ hu hv => hv.slice_eq.trans hu) rfl hchain⟩

/-- Settles O59: the two overlays commute, and what one side refuses it refuses in either order. -/
theorem tickedFeedCommutesWithTransmit : Obligations.TickedFeedCommutesWithTransmit := by
  intro s r x i hi hcmd
  have hcmd : (∃ r, i = .enqueue r) ∨ i = .drain ∨ (∃ x, i = .diagAppend x) ∨ i = .diagEnqueue ∨ ∃ x, i = .emitNow x := by
    obtain rfl | rfl | rfl | rfl | rfl := hcmd <;> simp
  obtain ⟨t, ht⟩ := hi.feedTick_answers
  have hfed : t = fedFrom t s := by
    have h := exec_feedTick_fedFrom (s := s) (w := s) ⟨rfl, rfl, rfl, rfl⟩
    rw [fedFrom_self, ht, andThen_next] at h
    exact Host.Outcome.next.inj h
  have hleft : andThen (exec .feedTick s) (exec i) = andThen (exec i s) fun u => .next (fedFrom t u) := by
    rw [ht, andThen_next, hfed, exec_command_fedFrom t hi hcmd]; rfl
  rw [hleft]
  cases hw : exec i s with
  | fault f => rfl
  | refused c => rfl
  | next w =>
    have hself := exec_command_fedFrom s hi hcmd
    rw [fedFrom_self, hw, andThen_next] at hself
    have htick := exec_feedTick_fedFrom (sameTrigger_of_command hcmd hw)
    rw [← Host.Outcome.next.inj hself, ht] at htick
    exact htick.symm

end Sys2Proof.Machine
end

section
/-! PROOFS of the receive path (R60): `rx_buf` and the queue are one stream, which bytes join at its end and leave at its front. -/

namespace Sys2Proof.Machine

open Relation (ReflTransGen)

/-! ### The stream and its front -/

theorem rxStream_of_kept {s t : State} (hbuild : t.build = s.build) (hhrq : t.hrq = s.hrq) (hbuf : t.rx.buf = s.rx.buf)
    (hhead : t.rx.head = s.rx.head) : rxStream t = rxStream s := by
  rw [rxStream, rxStream, hbuild, hhrq, hbuf, hhead]

/-- With `rx_buf` emptied only the queue is left. -/
theorem rxStream_of_emptied {t : State} (h : t.rx.head = 0) : rxStream t = hrqContents t.build.hrqAw t.hrq := by
  rw [rxStream, h]; rfl

/-- Between `s` and `t` bytes left the stream at its front, none but in the cases `lost`. -/
def FrontLeft (lost : State → State → Prop) (s t : State) : Prop :=
  ∃ gone, rxStream s = gone ++ rxStream t ∧ (gone = [] ∨ lost s t)

namespace FrontLeft

variable {lost : State → State → Prop} {s t u : State}

theorem of_eq (h : rxStream t = rxStream s) : FrontLeft lost s t := ⟨[], h.symm, .inl rfl⟩

theorem of_emptied (hhead : t.rx.head = 0) (hbuild : t.build = s.build) (hhrq : t.hrq = s.hrq) (hlost : lost s t) :
    FrontLeft lost s t :=
  ⟨_, by rw [rxStream_of_emptied hhead, hbuild, hhrq, rxStream], .inr hlost⟩

theorem mono {lost' : State → State → Prop} (h : FrontLeft lost s t) (himp : lost s t → lost' s t) : FrontLeft lost' s t := by
  obtain ⟨gone, hgone, h⟩ := h
  exact ⟨gone, hgone, h.imp_right himp⟩

theorem trans (h : FrontLeft lost s t) (h' : FrontLeft lost t u) (hfirst : lost s t → lost s u) (hlast : lost t u → lost s u) :
    FrontLeft lost s u := by
  obtain ⟨gone, hgone, hl⟩ := h
  obtain ⟨gone', hgone', hl'⟩ := h'
  refine ⟨gone ++ gone', by rw [hgone, hgone', List.append_assoc], ?_⟩
  obtain rfl | hl := hl
  · exact hl'.imp id hlast
  · exact .inr (hfirst hl)

end FrontLeft

/-! ### A byte moved by a `FEED` (R124, R125) -/

theorem Overflowed.of_log {s t : State} (h : t.bnd.diagLog = s.bnd.diagLog ++ [.incomingDataRateTooFast]) : Overflowed s t := by
  rw [Overflowed, h, List.drop_left]
  exact List.mem_singleton_self _

theorem Overflowed.of_later {s t u : State} (h : Overflowed s t) (hl : Later t u) : Overflowed s u := by
  obtain ⟨new, hnew⟩ := hl.diagLog
  rw [Overflowed, ← hnew, List.drop_append]
  exact List.mem_append_left _ h

theorem Overflowed.of_earlier {s t u : State} (hl : Later s t) (h : Overflowed t u) : Overflowed s u :=
  List.drop_subset_drop_left _ hl.diagLog.length_le h

/-- The buffered bytes with one more behind them. -/
theorem filterMap_memSet_head (m : Memory) (n : Nat) (b : Byte) :
    (List.range (n + 1)).filterMap (memGet (memSet m n b)) = (List.range n).filterMap (memGet m) ++ [b] := by
  have hold (a : Nat) (ha : a ∈ List.range n) : memGet (memSet m n b) a = memGet m a :=
    memGet_memSet_other (List.mem_range.1 ha).ne
  rw [List.range_succ, List.filterMap_append, List.filterMap_congr hold]
  simp

theorem frontLeft_feedMakeRoom (s : State) : FrontLeft Overflowed s (feedMakeRoom s) := by
  by_cases hfull : s.rx.head = s.build.rxCap
  · rw [feedMakeRoom_of_full hfull]
    exact .of_emptied rfl rfl rfl (.of_log rfl)
  · rw [feedMakeRoom_of_room hfull]
    exact .of_eq rfl

theorem rxStream_feedMoved {s : State} {b : Byte} {h : Hrq} (hi : HrqInv s.build.hrqAw s.hrq)
    (hpop : popEdge s.build.hrqAw s.hrq = .next (b, h)) : rxStream (feedMoved b h s) = rxStream (feedMakeRoom s) := by
  obtain ⟨-, hcons⟩ := popEdge_takes_oldest hi hpop
  have hcells := filterMap_memSet_head (feedMakeRoom s).rx.buf (feedMakeRoom s).rx.head b
  rw [rxStream, rxStream, feedMoved_build, feedMoved_hrq, feedMakeRoom_build, feedMakeRoom_hrq, hcons, ← List.singleton_append,
    ← List.append_assoc, ← hcells]
  rfl

theorem frontLeft_feedMoved {s : State} {b : Byte} {h : Hrq} (hi : HrqInv s.build.hrqAw s.hrq)
    (hpop : popEdge s.build.hrqAw s.hrq = .next (b, h)) : FrontLeft Overflowed s (feedMoved b h s) := by
  obtain ⟨gone, hgone, hlost⟩ := frontLeft_feedMakeRoom s
  exact ⟨gone, by rw [rxStream_feedMoved hi hpop, hgone], hlost⟩

/-! ### A tick-started `FEED` -/

/-- A line of a `FEED` keeps the queue's invariant, and takes bytes out only where it overflows. -/
theorem frontLeft_feedLine {s t : State} (hi : HrqInv s.build.hrqAw s.hrq) (h : feedLine s = .next t) :
    HrqInv t.build.hrqAw t.hrq ∧ Later s t ∧ FrontLeft Overflowed s t := by
  obtain ⟨-, rfl⟩ | ⟨-, b, q, hpop, -, rfl⟩ := feedLine_ends_or_moves h
  · exact ⟨hi, .of_bnd_eq rfl rfl, .of_eq rfl⟩
  · exact ⟨by rw [feedMoved_build]; exact (popEdge_takes_oldest hi hpop).1, later_feedMoved hpop, frontLeft_feedMoved hi hpop⟩

theorem frontLeft_feedLines {n : Nat} {s t : State} (hi : HrqInv s.build.hrqAw s.hrq) (h : feedLines n s = .next t) :
    FrontLeft Overflowed s t := by
  refine (feedLines_induct (P := fun u => HrqInv u.build.hrqAw u.hrq ∧ Later s u ∧ FrontLeft Overflowed s u)
    (fun u v hu _ hl => ?_) n s t ⟨hi, .refl s, .of_eq rfl⟩ h).2.2
  obtain ⟨hiu, hlater, hfront⟩ := hu
  obtain ⟨hiv, hlater', hfront'⟩ := frontLeft_feedLine hiu hl
  exact ⟨hiv, hlater.trans hlater', hfront.trans hfront' (·.of_later hlater') (.of_earlier hlater)⟩

theorem frontLeft_runFeed {s t : State} (hi : HrqInv s.build.hrqAw s.hrq) (h : runFeed s = .next t) :
    FrontLeft Overflowed s t := by
  rw [runFeed] at h
  split at h
  · exact Host.Outcome.next.inj h ▸ .of_eq rfl
  · exact frontLeft_feedLines hi h

theorem frontLeft_feedTick {s t : State} (hi : HrqInv s.build.hrqAw s.hrq) (h : exec .feedTick s = .next t) :
    FrontLeft Overflowed s t := by
  cases hen : feedTickEnabled s
  · exact Host.Outcome.next.inj ((exec_feedTick_of_disabled hen).symm.trans h) ▸ .of_eq rfl
  · rw [exec_feedTick_eq hen] at h
    have hstart : rxStream (feedTickStart s) = rxStream s := rxStream_of_kept (by simp) (by simp) (by simp) (by simp)
    have hlater : Later s (feedTickStart s) := later_feedStart _ s
    obtain ⟨gone, hgone, hlost⟩ := frontLeft_feedLines (by simpa using hi) h
    exact ⟨gone, hstart.symm.trans hgone, hlost.imp_right (.of_earlier hlater)⟩

theorem frontLeft_onPop {s t : State} (hi : HrqInv s.build.hrqAw s.hrq) (h : onPop s = .next t) : FrontLeft Overflowed s t := by
  cases he : hrqEmpty s.hrq
  case true => rw [onPop_of_empty he] at h; cases h
  case false =>
    cases hp : popIsNext s
    · rw [onPop_of_other he hp] at h
      exact Host.Outcome.next.inj h ▸ .of_eq rfl
    · rw [onPop_of_next he hp] at h
      obtain ⟨p, -, h⟩ := andThen_eq_next.1 h
      obtain ⟨u, hu, h⟩ := andThen_eq_next.1 h
      obtain ⟨-, -, hfront⟩ := frontLeft_feedLine hi hu
      exact Host.Outcome.next.inj h ▸ hfront

/-! ### The lines of a command -/

/-- R60: the cases in which a command of the receive side takes bytes out of the stream. -/
def TakenOut (s t : State) : Prop := Overflowed s t ∨ PollZeroed s t

theorem RxLine.frontLeft {s t : State} (hi : HrqInv s.build.hrqAw s.hrq) (h : RxLine s t) : FrontLeft TakenOut s t := by
  cases h with
  | feedMoves _ hpop => exact (frontLeft_feedMoved hi hpop).mono .inl
  | feedStarts | innerFeedStarts => exact .of_eq (rxStream_of_kept (by simp) (by simp) (by simp) (by simp))
  | token => exact .of_eq (rxStream_of_kept (by simp) (by simp) (by rw [rxToken_eq]) (by rw [rxToken_eq]))
  | lenL b _ _ _ hfits => rw [rxLenL_of_fits hfits]; exact .of_eq rfl
  | oversized b _ _ _ hover =>
    rw [rxLenL_of_oversized hover]
    exact .of_emptied rfl rfl rfl (.inr ⟨rfl, rfl, _, rfl, .inr (.inr rfl)⟩)
  | @delivers payload =>
    rw [rxDeliver_eq]
    by_cases hdrained : payloadEnd s = s.rx.head
    · refine .of_emptied (if_pos hdrained) rfl rfl (.inr ⟨if_pos hdrained, if_pos hdrained, _, rfl, ?_⟩)
      rw [deliveryCode]
      cases decodePayload s.build payload <;> simp
    · exact .of_eq (rxStream_of_kept rfl rfl rfl (if_neg hdrained))
  | _ => exact .of_eq rfl

/-- Along the lines of one command: bytes left the front, and until the command returns no response was given. -/
structure LinesFront (s u : State) : Prop where
  inv : Inv u
  later : Later s u
  results : u.ctl.main ≠ .idle → u.bnd.results = s.bnd.results
  front : FrontLeft TakenOut s u

theorem PollZeroed.results_ne {s t : State} (h : PollZeroed s t) : t.bnd.results ≠ s.bnd.results := by
  obtain ⟨-, -, c, hres, -⟩ := h
  rw [hres]; simp

theorem LinesFront.line {s u v : State} (hu : LinesFront s u) (h : RxLine u v) : LinesFront s v := by
  have hres := hu.results h.main_ne_idle
  refine ⟨hu.inv.rxLine h, hu.later.trans h.later, fun hm => ?_, hu.front.trans (h.frontLeft hu.inv.hrq) ?_ ?_⟩
  · obtain hsame | ⟨hidle, -⟩ := h.results_eq
    · exact hsame.trans hres
    · exact absurd hidle hm
  · rintro (hover | hzero)
    · exact .inl (hover.of_later h.later)
    · exact absurd hres hzero.results_ne
  · rintro (hover | ⟨hhead, htail, hcode⟩)
    · exact .inl (.of_earlier hu.later hover)
    · exact .inr ⟨hhead, htail, hres ▸ hcode⟩

theorem LinesBegin.linesFront {s u : State} (hi : Inv s) (h : LinesBegin s u) : LinesFront s u := by
  refine ⟨hi.linesBegin h, h.later, fun _ => ?_, .of_eq ?_⟩
  · cases h <;> rfl
  · cases h <;> rfl

theorem frontLeft_of_rxLines {s u t : State} (hi : Inv s) (hu : LinesBegin s u) (h : ReflTransGen RxLine u t) :
    FrontLeft TakenOut s t :=
  (chain_induct (P := LinesFront s) (fun _ _ hu => hu.line) (hu.linesFront hi) h).front

theorem frontLeft_of_runMain {s t : State} (hi : Inv s) (h : runMain s = .next t) : FrontLeft TakenOut s t := by
  obtain ⟨-, hchain⟩ | ⟨-, hchain⟩ := changes_of_runMain h
  · exact frontLeft_of_rxLines hi .inProgress hchain
  · have hk := rxKept_of_txChanges (txChanges_of_txLines hchain)
    exact .of_eq (rxStream_of_kept hk.build hk.hrq (by rw [hk.rx]) (by rw [hk.rx]))

/-- The operations that bring no byte to the write port. -/
theorem frontLeft_of_exec {i : Instr} {s t : State} (hi : Inv s) (hne : i ≠ .reset) (hpush : ∀ b, i ≠ .hrqPush b)
    (hframe : ∀ p, i ≠ .frame p) (h : exec i s = .next t) : FrontLeft TakenOut s t := by
  cases i with
  | feed => exact let ⟨_, hu, hchain⟩ := rxLines_of_runCommand (.inl rfl) h; frontLeft_of_rxLines hi hu hchain
  | pollReceive => exact let ⟨_, hu, hchain⟩ := rxLines_of_runCommand (.inr rfl) h; frontLeft_of_rxLines hi hu hchain
  | rxbToken => exact frontLeft_of_rxLines hi .inProgress (rxLines_of_byteClass 0#8 (by simp) h)
  | rxbSkip b | rxbLenH b | rxbLenL b | rxbBody b =>
    exact frontLeft_of_rxLines hi .inProgress (rxLines_of_byteClass b (by simp) h)
  | hrqPop => exact (frontLeft_onPop hi.hrq h).mono .inl
  | feedTick => exact (frontLeft_feedTick hi.hrq h).mono .inl
  | nop | hrqWsync | hrqRsync | hrqAvail => exact Host.Outcome.next.inj h ▸ .of_eq rfl
  | tick =>
    cases hmode : s.build.feedMode
    · exact Host.Outcome.next.inj ((exec_tick_of_poll hmode).symm.trans h) ▸ .of_eq rfl
    · exact Host.Outcome.next.inj ((exec_tick_of_interrupt hmode).symm.trans h) ▸ .of_eq rfl
  | enqueue _ | drain | diagAppend _ | diagEnqueue | emitNow _ | sinkSpace | sinkWrite _ | sinkPop =>
    have hk := rxKept_of_exec rfl h
    exact .of_eq (rxStream_of_kept hk.build hk.hrq (by rw [hk.rx]) (by rw [hk.rx]))
  | reset => exact absurd rfl hne
  | hrqPush b => exact absurd rfl (hpush b)
  | frame p => exact absurd rfl (hframe p)

/-! ### Bytes that arrive (R105, R70) -/

theorem pushAll_lost {aw : Nat} {h : Hrq} (bs : List Byte) (hl : h.lost = true) : (pushAll aw bs h).lost = true := by
  induction bs generalizing h with
  | nil => exact hl
  | cons b bs ih => exact ih (pushEdge_lost hl)

/-- R60: bytes join the queue in order, each but where one was dropped. -/
theorem hrqContents_pushAll {aw : Nat} (haw : 1 ≤ aw) {h : Hrq} (hi : HrqInv aw h) (bs : List Byte) : ∃ joined,
    hrqContents aw (pushAll aw bs h) = hrqContents aw h ++ joined ∧ joined.Sublist bs ∧
      ((pushAll aw bs h).lost = false → joined = bs) := by
  induction bs generalizing h with
  | nil => exact ⟨[], (List.append_nil _).symm, .slnil, fun _ => rfl⟩
  | cons b bs ih =>
    obtain ⟨joined, hrest, hsub, hall⟩ := ih (hi.push b haw)
    rw [pushAll_cons]
    cases hf : hrqFull aw h
    · obtain ⟨c, hm⟩ := hi
      refine ⟨b :: joined, ?_, hsub.cons_cons b, fun hl => congrArg _ (hall hl)⟩
      rw [hrest, hm.hrqContents_push_of_room haw hf, List.append_assoc, List.singleton_append]
    · refine ⟨joined, by rw [hrest, hrqContents_push_of_full hf], hsub.cons b, fun hl => ?_⟩
      have hdropped : (pushEdge aw b h).lost = true := by rw [pushEdge_of_full hf]
      exact absurd hl (by simp [pushAll_lost bs hdropped])

theorem rxStream_wirePushAll {s : State} (hi : Inv s) (bs : List Byte) : ∃ joined,
    rxStream (wirePushAll bs s) = rxStream s ++ joined ∧ joined.Sublist bs ∧
      ((wirePushAll bs s).hrq.lost = false → joined = bs) := by
  obtain ⟨joined, hcontents, hsub, hall⟩ := hrqContents_pushAll hi.one_le_hrqAw hi.hrq bs
  refine ⟨joined, ?_, hsub, by rw [wirePushAll_eq]; exact hall⟩
  rw [rxStream, rxStream, wirePushAll_eq, List.append_assoc, ← hcontents]

theorem arrivingBytes_of_other {i : Instr} {s : State} (hpush : ∀ b, i ≠ .hrqPush b) (hframe : ∀ p, i ≠ .frame p) :
    arrivingBytes i s = [] := by
  cases i with
  | hrqPush b => exact absurd rfl (hpush b)
  | frame p => exact absurd rfl (hframe p)
  | _ => rfl

/-- Settles O45: what the arriving operations append, and what the others take out at the front. -/
theorem receivePathKeepsOrder : Obligations.ReceivePathKeepsOrder := by
  intro s t hi
  refine ⟨fun i hne h => ?exec, fun h => frontLeft_of_runMain hi h, fun h => frontLeft_runFeed hi.hrq h⟩
  case exec =>
    have harrive {bs : List Byte} (hbs : arrivingBytes i s = bs) (ht : t = wirePushAll bs s) :
        ∃ gone joined, rxStream s ++ joined = gone ++ rxStream t ∧ joined.Sublist (arrivingBytes i s) ∧
          (t.hrq.lost = false → joined = arrivingBytes i s) ∧ (gone = [] ∨ Overflowed s t ∨ PollZeroed s t) := by
      obtain ⟨joined, hstream, hsub, hall⟩ := rxStream_wirePushAll hi bs
      subst ht; subst hbs
      exact ⟨[], joined, hstream.symm, hsub, hall, .inl rfl⟩
    by_cases hpush : ∃ b, i = .hrqPush b
    · obtain ⟨b, rfl⟩ := hpush
      exact harrive rfl (Host.Outcome.next.inj h).symm
    · by_cases hframe : ∃ p, i = .frame p
      · obtain ⟨p, rfl⟩ := hframe
        exact harrive rfl (Host.Outcome.next.inj h).symm
      · have hpush (b : Byte) : i ≠ .hrqPush b := fun hb => hpush ⟨b, hb⟩
        have hframe (p : List Byte) : i ≠ .frame p := fun hp => hframe ⟨p, hp⟩
        obtain ⟨gone, hgone, hlost⟩ := frontLeft_of_exec hi hne hpush hframe h
        rw [arrivingBytes_of_other hpush hframe]
        exact ⟨gone, [], (List.append_nil _).trans hgone, .slnil, fun _ => rfl, hlost⟩

end Sys2Proof.Machine
end

section
/-! PROOFS of the family 41_rx_feeder.md, continued: one line of a `FEED` (R120 to R126), and what a whole `FEED` command takes from
the queue and leaves of it (R126, R127). -/

namespace Sys2Proof.Machine

/-! ### One line of a `FEED`, whichever agent runs it (R120 to R126) -/

theorem feedStart_eq (s : State) : feedStart s = { s with
    ctl := { s.ctl with feedActive := true }
    bnd := { s.bnd with diagLog := s.bnd.diagLog ++
      (if s.build.hrqWatermark ≤ hrqAvail s.build.hrqAw s.hrq then [DiagEvent.insufficientReceiveRate] else []) } } := by
  by_cases h : s.build.hrqWatermark ≤ hrqAvail s.build.hrqAw s.hrq
  · rw [feedStart, if_pos h, if_pos h]; rfl
  · rw [feedStart, if_neg h, if_neg h, List.append_nil]

theorem runMain_one {s : State} (hslice : s.slice = some 1) (hb : s.ctl.mainBusy = true) : runMain s = mainLine s := by
  rw [runMain, lines, hslice]; exact mainLines_one hb

theorem feedLines_one {s : State} (ha : s.ctl.feedActive = true) : feedLines 1 s = feedLine s := by
  rw [feedLines, if_pos ha]
  cases feedLine s <;> rfl

theorem runFeed_one {s : State} (hslice : s.slice = some 1) (ha : s.ctl.feedActive = true) (hm : feedIsMains s = false) :
    runFeed s = feedLine s := by
  rw [runFeed, if_neg (by simp [hm]), lines, hslice]; exact feedLines_one ha

/-- A line of the control loop's `FEED` after which the `FEED` goes on. -/
theorem mainLine_of_feedIsMains {s t : State} (hm : feedIsMains s = true) (h : feedLine s = .next t)
    (ha : t.ctl.feedActive = true) : mainLine s = .next t := by
  obtain hm | hm := feedIsMains_iff.1 hm
  · rw [mainLine_feedRun hm, h, andThen_next, if_pos ha]
  · rw [mainLine_pollFeed hm, h, andThen_next, if_pos ha]

theorem feedLine_of_none {s : State} (h0 : hrqAvail s.build.hrqAw s.hrq = 0) : feedLine s = .next (feedEnd s) := if_pos h0

/-- R124, R125: a line that sees a byte pops the oldest one and stores it. -/
theorem Inv.feedLine_moves {s : State} (hi : Inv s) (h0 : hrqAvail s.build.hrqAw s.hrq ≠ 0) : ∃ b h,
    popEdge s.build.hrqAw s.hrq = .next (b, h) ∧ feedLine s = .next (feedMoved b h s) := by
  obtain ⟨t, ht⟩ := hi.feedLine_answers
  obtain ⟨h0', -⟩ | ⟨-, b, h, hpop, -, rfl⟩ := feedLine_ends_or_moves ht
  · exact absurd h0' h0
  · exact ⟨b, h, hpop, ht⟩

theorem feedMoved_of_room {s : State} {b : Byte} {h : Hrq} (hroom : s.rx.head ≠ s.build.rxCap) :
    feedMoved b h s = { s with hrq := h, rx := { s.rx with buf := memSet s.rx.buf s.rx.head b, head := s.rx.head + 1 } } := by
  rw [feedMoved, feedMakeRoom_of_room hroom]; rfl

theorem feedMoved_of_full {s : State} {b : Byte} {h : Hrq} (hfull : s.rx.head = s.build.rxCap) :
    feedMoved b h s = { s with
      hrq := h
      rx := { s.rx with buf := memSet s.rx.buf 0 b, tail := 0, head := 1, state := .awaitStart, active := false }
      bnd := { s.bnd with diagLog := s.bnd.diagLog ++ [DiagEvent.incomingDataRateTooFast] } } := by
  rw [feedMoved, feedMakeRoom_of_full hfull]; rfl

/-- Settles O60: the start, the end and the move of a `FEED`, each as the one line that is granted. -/
theorem feedRunsLineByLine : Obligations.FeedRunsLineByLine := by
  intro s hi
  refine ⟨fun hslice hen => ?tick, fun hslice hm hno => ?command, fun hslice hm hno hmode => ?inner,
    fun hslice ha h0 => ⟨fun hm => ?tickEnds, fun hm => ?commandEnds, fun hm => ?innerEnds⟩, fun hslice ha h0 => ?moves⟩
  case tick =>
    have hnone : lines s (feedFuel s.build) = 0 := by rw [lines, hslice]; rfl
    rw [exec_feedTick_eq hen, hnone, feedTickStart, feedStart_eq]; rfl
  case command =>
    rw [runMain_one hslice (hi.ctl.busy_of_main hm (by simp)), mainLine_feedWait hm hno (hi.ctl.rxLock_of_main hm), feedStart_eq]
    rfl
  case inner =>
    rw [runMain_one hslice (hi.ctl.busy_of_main hm (by simp)), mainLine_pollWait_of_poll hm hno hmode, feedStart_eq]
    simp [setMain, pollLock, hmode]
  case tickEnds => rw [runFeed_one hslice ha hm, feedLine_of_none h0]; rfl
  case commandEnds =>
    rw [runMain_one hslice (hi.ctl.busy_of_main hm (by simp)), mainLine_feedRun hm, feedLine_of_none h0, andThen_next]; rfl
  case innerEnds =>
    rw [runMain_one hslice (hi.ctl.busy_of_main hm (by simp)), mainLine_pollFeed hm, feedLine_of_none h0, andThen_next]; rfl
  case moves =>
    obtain ⟨b, h, hpop, hline⟩ := hi.feedLine_moves h0
    obtain ⟨-, hcons⟩ := popEdge_takes_oldest hi.hrq hpop
    obtain ⟨-, -, hh⟩ := popEdge_eq_next.1 hpop
    refine ⟨feedMoved b h s, b, fun hm => (runFeed_one hslice ha hm).trans hline, fun hm => ?_, ?_, hh, fun hroom => ?_,
      fun hfull => ?_⟩
    · have hbusy : s.ctl.mainBusy = true := by
        obtain hm | hm := feedIsMains_iff.1 hm
        · exact hi.ctl.busy_of_main hm (by simp)
        · exact hi.ctl.busy_of_main hm (by simp)
      rw [runMain_one hslice hbusy, mainLine_of_feedIsMains hm hline (by simpa using ha)]
    · rw [feedMoved_hrq, hcons]
    · rw [feedMoved_of_room hroom]
      exact ⟨rfl, fun a => memGet_memSet _ _ a b⟩
    · rw [feedMoved_of_full hfull]
      exact ⟨rfl, fun a => memGet_memSet _ _ a b⟩

/-! ### The whole `FEED` command (R126, R127) -/

/-- R127: what a `FEED` writes of HRQ, of the receive side and of the boundary. -/
structure FedOnly (s t : State) : Prop where
  hrq : t.hrq = { s.hrq with
    rbin := t.hrq.rbin, rgray := t.hrq.rgray, rq1Wgray := t.hrq.rq1Wgray, rq2Wgray := t.hrq.rq2Wgray }
  rx : t.rx = { s.rx with
    buf := t.rx.buf, tail := t.rx.tail, head := t.rx.head, state := t.rx.state, active := t.rx.active }
  bnd : t.bnd = { s.bnd with diagLog := t.bnd.diagLog }

theorem FedOnly.trans {s t u : State} (h : FedOnly s t) (h' : FedOnly t u) : FedOnly s u where
  hrq := h'.hrq.trans (by rw [h.hrq])
  rx := h'.rx.trans (by rw [h.rx])
  bnd := h'.bnd.trans (by rw [h.bnd])

theorem fedOnly_feedStart (c : Ctl) (s : State) : FedOnly s (feedStart { s with ctl := c }) := by
  rw [feedStart_eq]; exact ⟨rfl, rfl, rfl⟩

theorem fedOnly_feedMoved {s : State} {b : Byte} {h : Hrq} (hpop : popEdge s.build.hrqAw s.hrq = .next (b, h)) :
    FedOnly s (feedMoved b h s) := by
  obtain ⟨-, -, rfl⟩ := popEdge_eq_next.1 hpop
  by_cases hfull : s.rx.head = s.build.rxCap
  · rw [feedMoved_of_full hfull]; exact ⟨rfl, rfl, rfl⟩
  · rw [feedMoved_of_room hfull]; exact ⟨rfl, rfl, rfl⟩

/-- R107, R109: a pop takes at most one byte out of the reader's sight. -/
theorem hrqAvail_le_of_pop {aw : Nat} {h h' : Hrq} {b : Byte} (hi : HrqInv aw h) (hp : popEdge aw h = .next (b, h')) :
    hrqAvail aw h ≤ hrqAvail aw h' + 1 := by
  obtain ⟨c, hm⟩ := hi
  obtain ⟨he, -, rfl⟩ := popEdge_eq_next.1 hp
  have := hm.w2_le
  rw [hm.hrqAvail_eq, (hm.pop he).hrqAvail_eq]
  dsimp only; omega

/-- Between the start `s` of a `FEED` and `u` the bytes `bs`, the oldest of the queue, were taken, and no fewer than have
left the reader's sight. -/
structure FeedDrained (s : State) (bs : List Byte) (u : State) : Prop where
  build : u.build = s.build
  hrq : HrqInv s.build.hrqAw u.hrq
  taken : hrqContents s.build.hrqAw s.hrq = bs ++ hrqContents s.build.hrqAw u.hrq
  visible : hrqAvail s.build.hrqAw s.hrq ≤ bs.length + hrqAvail s.build.hrqAw u.hrq
  only : FedOnly s u

theorem FeedDrained.feedLine {s u v : State} {bs : List Byte} (hd : FeedDrained s bs u) (hl : feedLine u = .next v) :
    ∃ bs', FeedDrained s bs' v := by
  obtain ⟨-, rfl⟩ | ⟨-, b, q, hpop, -, rfl⟩ := feedLine_ends_or_moves hl
  · exact ⟨bs, hd.build, hd.hrq, hd.taken, hd.visible, hd.only.trans ⟨rfl, rfl, rfl⟩⟩
  · have honly := hd.only.trans (fedOnly_feedMoved hpop)
    rw [hd.build] at hpop
    obtain ⟨hinv, hcons⟩ := popEdge_takes_oldest hd.hrq hpop
    refine ⟨bs ++ [b], (feedMoved_build b q u).trans hd.build, hinv, ?_, ?_, honly⟩
    · rw [hd.taken, hcons, List.append_assoc, List.singleton_append]; rfl
    · have := hd.visible
      have := hrqAvail_le_of_pop hd.hrq hpop
      rw [List.length_append, List.length_singleton, feedMoved_hrq]
      omega

/-- R126: what a `FEED` that runs to its end has taken. -/
theorem FeedEndsIn.drained {s u : State} (hf : FeedEndsIn s u) (hi : Inv s) :
    ∃ bs, FeedDrained s bs (fedAs u { s.ctl with feedActive := false } s) := by
  refine feedLines_induct (P := fun v => ∃ bs, FeedDrained s bs v) (fun v w ⟨_, hv⟩ _ hl => hv.feedLine hl) _ _ _
    ⟨[], by simp, by simpa using hi.hrq, by simp, by simp, ?_⟩ (hf.reaches s.ctl _ le_rfl)
  exact fedOnly_feedStart s.ctl s

/-- The control state of a quiet machine, to which each command comes back. -/
theorem Quiet.ctl_eq {s : State} (hq : Quiet s) (hi : Inv s) :
    { s.ctl with feedActive := false, mainBusy := false, main := .idle } = s.ctl :=
  calc ({ s.ctl with feedActive := false, mainBusy := false, main := .idle } : Ctl)
      = { s.ctl with feedActive := s.ctl.feedActive, mainBusy := s.ctl.mainBusy, main := s.ctl.main } := by
        rw [hq.noFeed, hq.ready, hi.ctl.main_eq_idle hq.ready]
    _ = s.ctl := rfl

/-- Settles O13: the `FEED` comes to its end, its lines take the oldest bytes, and it touches nothing else. -/
theorem feedMovesEveryVisibleByte : Obligations.FeedMovesEveryVisibleByte := by
  intro s hi hq
  obtain ⟨u, hf⟩ := hi.exists_feedEndsIn
  obtain ⟨moved, hd⟩ := hf.drained hi
  refine ⟨_, hf.exec_feed_of_ready hq.toTheEnd hq.ready hq.noFeed (hi.unlocked_of_ready hq.ready), hf.empty,
    ⟨moved, hd.taken, ?_⟩, ?_, hd.only.hrq, hd.only.rx⟩
  · have hvisible := hd.visible
    have hempty : hrqAvail s.build.hrqAw (fedAs u { s.ctl with feedActive := false } s).hrq = 0 := hf.empty
    omega
  · have hbnd : u.bnd = { s.bnd with diagLog := u.bnd.diagLog } := hd.only.bnd
    rw [hq.ctl_eq hi, fedAs, ← hbnd]

end Sys2Proof.Machine
end

section
/-! PROOFS of the family 42_rx_framing.md, continued: the lines of `POLL_RECEIVE` (R140 to R143, R151), and that the command comes to
its end with exactly one code (R142, R227). -/

namespace Sys2Proof.Machine

/-! ### One line of `POLL_RECEIVE` -/

/-- R82: the byte inspected is of one class, whose operation is the one that comes next. -/
theorem rxbEnabled_classify {s : State} {b : Byte} (hm : s.ctl.main = .pollScan) (hsome : s.rx.tail < s.rx.head)
    (hb : memGet s.rx.buf s.rx.tail = some b) : rxbEnabled (classify (decodeCtx s) b) s = true :=
  rxbEnabled_iff.2 ⟨hm, hsome, b, hb, rfl⟩

/-- Settles O26: each line by the line at which the call stands. -/
theorem loopRunsTheByteClass : Obligations.LoopRunsTheByteClass := by
  intro s hi hslice
  have hline {m : MainPhase} (hm : s.ctl.main = m) (hne : m ≠ .idle) : runMain s = mainLine s :=
    runMain_one hslice (hi.ctl.busy_of_main hm hne)
  refine ⟨fun hm hsome => ?iterates, fun hm hnone => ?ends, fun hm hnone => ?noData, fun hm hsome => ?scans,
    fun hm ha => ?waits, fun hm hno hmode => ?starts⟩
  case iterates =>
    obtain ⟨b, hb⟩ := hi.exists_inspected hsome
    obtain ⟨b', hb', hexec⟩ := exec_of_rxbEnabled (rxbEnabled_classify hm hsome hb)
    obtain rfl : b = b' := Option.some.inj (hb.symm.trans hb')
    refine ⟨b, hb, ?_⟩
    rw [hline hm (by simp), mainLine_pollScan hm, scanLine_of_some hsome hi.rx.head_le hb, hexec]
  case ends => rw [hline hm (by simp), mainLine_pollScan hm, scanLine_of_none hnone.ge, pollReturn_eq]
  case noData => rw [hline hm (by simp), mainLine_pollTest_of_none hm hnone, pollReturn_eq]
  case scans => rw [hline hm (by simp), mainLine_pollTest_of_some hm hsome.ne]; rfl
  case waits => rw [hline hm (by simp), mainLine_pollWait_of_held hm ha]
  case starts =>
    rw [hline hm (by simp), mainLine_pollWait_of_interrupt hm hno hmode]
    simp [setMain, pollLock, hmode]

/-! ### What a line can come to -/

/-- A `POLL_RECEIVE` that nothing holds up: at its entry with no `FEED` in progress, or past it. -/
def PollAt (s : State) : Prop := pollHoldsLock s.ctl.main = true ∨ s.ctl.main = .pollWait ∧ s.ctl.feedActive = false

theorem pollHoldsLock_iff {m : MainPhase} : pollHoldsLock m = true ↔ m = .pollFeed ∨ m = .pollTest ∨ m = .pollScan := by
  simp [pollHoldsLock, or_assoc]

/-- R227: lines that are enough from where the call stands. -/
def pollLeft (s : State) : Nat :=
  match s.ctl.main with
  | .pollWait => 2 ^ s.build.hrqAw + s.build.rxCap + 4
  | .pollFeed => (hrqContents s.build.hrqAw s.hrq).length + s.build.rxCap + 3
  | .pollTest => s.rx.head - s.rx.tail + 2
  | .pollScan => s.rx.head - s.rx.tail + 1
  | .idle | .feedWait | .feedRun | .emitDrain _ | .emitSend _ => 0

theorem pollLeft_pollScan {s : State} (hm : s.ctl.main = .pollScan) : pollLeft s = s.rx.head - s.rx.tail + 1 := by
  rw [pollLeft, hm]

theorem pollLeft_pollTest {s : State} (hm : s.ctl.main = .pollTest) : pollLeft s = s.rx.head - s.rx.tail + 2 := by
  rw [pollLeft, hm]

theorem pollLeft_pollFeed {s : State} (hm : s.ctl.main = .pollFeed) :
    pollLeft s = (hrqContents s.build.hrqAw s.hrq).length + s.build.rxCap + 3 := by rw [pollLeft, hm]

theorem pollLeft_pollWait {s : State} (hm : s.ctl.main = .pollWait) : pollLeft s = 2 ^ s.build.hrqAw + s.build.rxCap + 4 := by
  rw [pollLeft, hm]

/-- The line at which a call stands that nothing holds up. -/
theorem PollAt.cases {s : State} (h : PollAt s) : s.ctl.main = .pollFeed ∨ s.ctl.main = .pollTest ∨ s.ctl.main = .pollScan ∨
    s.ctl.main = .pollWait ∧ s.ctl.feedActive = false := by
  obtain h | h := h
  · obtain h | h | h := pollHoldsLock_iff.1 h <;> simp [h]
  · exact .inr (.inr (.inr h))

theorem PollAt.busy {s : State} (h : PollAt s) (hi : Inv s) : s.ctl.mainBusy = true := by
  obtain hm | hm | hm | ⟨hm, -⟩ := h.cases <;> exact hi.ctl.busy_of_main hm (by simp)

theorem PollAt.left_pos {s : State} (h : PollAt s) : 0 < pollLeft s := by
  obtain hm | hm | hm | ⟨hm, -⟩ := h.cases <;> rw [pollLeft, hm] <;> exact Nat.succ_pos _

/-- Under the invariant a line of such a call is one change. -/
theorem Inv.rxLine_of_pollAt {s t : State} (hi : Inv s) (hp : PollAt s) (h : mainLine s = .next t) : RxLine s t := by
  obtain hm | hm | hm | ⟨hm, hno⟩ := hp.cases
  · have ha := hi.ctl.mainFeeds (feedIsMains_of_pollFeed hm)
    rw [mainLine_pollFeed hm] at h
    obtain ⟨u, hu, h⟩ := andThen_eq_next.1 h
    obtain rfl := Host.Outcome.next.inj h
    obtain ⟨-, rfl⟩ | ⟨-, b, q, hpop, hroom, rfl⟩ := feedLine_ends_or_moves hu
    · exact .innerFeedEnds hm
    · rw [if_pos (by simpa using ha)]
      exact .feedMoves (feedIsMains_of_pollFeed hm) hpop hroom
  · by_cases hnone : s.rx.tail = s.rx.head
    · exact Host.Outcome.next.inj ((mainLine_pollTest_of_none hm hnone).symm.trans h) ▸ .noData hm hnone
    · exact Host.Outcome.next.inj ((mainLine_pollTest_of_some hm hnone).symm.trans h) ▸ .scanStarts hm hnone
  · rw [mainLine_pollScan hm] at h
    obtain ⟨hnone, rfl⟩ | ⟨hsome, b, -, hb⟩ := scanLine_cases h
    · exact .scanEnds hm hnone
    · exact .of_rxIterate hm hsome hb
  · cases hmode : s.build.feedMode
    · exact Host.Outcome.next.inj ((mainLine_pollWait_of_poll hm hno hmode).symm.trans h) ▸ .innerFeedStarts hm hno hmode
    · exact Host.Outcome.next.inj ((mainLine_pollWait_of_interrupt hm hno hmode).symm.trans h) ▸ .pollStarts hm hno hmode

/-- A line after which the call goes on: no response yet, and in `INTERRUPT` mode HRQ and the buffered bytes untouched. -/
structure PollGoesOn (s t : State) : Prop where
  stands : PollAt t
  results : t.bnd.results = s.bnd.results
  recordLog : t.bnd.recordLog = s.bnd.recordLog
  feedPending : t.ctl.feedPending = s.ctl.feedPending
  untouched : s.build.feedMode = .interrupt → t.hrq = s.hrq ∧ t.rx.buf = s.rx.buf ∧ t.rx.head = s.rx.head

/-- R142: a line that returns the code `c`. -/
structure PollReturns (c : ReceiveCode) (s t : State) : Prop where
  noFeed : s.ctl.feedActive = false
  ctl : t.ctl = returnedCtl s
  results : t.bnd.results = s.bnd.results ++ [.pollReceive c]
  recordLog : t.bnd.recordLog = s.bnd.recordLog ++ [t.rx.record]
  hrq : t.hrq = s.hrq
  buf : t.rx.buf = s.rx.buf
  head : t.rx.head = s.rx.head ∨ t.rx.head = 0 ∧ t.rx.tail = 0

/-- A line of the loop after which the loop goes on. -/
theorem PollGoesOn.of_scan {s t : State} (hm : t.ctl.main = .pollScan) (hctl : t.ctl.feedPending = s.ctl.feedPending)
    (hresults : t.bnd.results = s.bnd.results) (hlog : t.bnd.recordLog = s.bnd.recordLog) (hhrq : t.hrq = s.hrq)
    (hbuf : t.rx.buf = s.rx.buf) (hhead : t.rx.head = s.rx.head) : PollGoesOn s t :=
  ⟨.inl (by rw [hm]; rfl), hresults, hlog, hctl, fun _ => ⟨hhrq, hbuf, hhead⟩⟩

/-- R227: a line of a call that nothing holds up leaves fewer lines to go, or returns. -/
theorem RxLine.goesOn_or_returns {s t : State} (hi : Inv s) (hp : PollAt s) (h : RxLine s t) :
    (PollGoesOn s t ∧ pollLeft t < pollLeft s) ∨ ∃ c, PollReturns c s t := by
  have hwait (hm : s.ctl.main = .feedWait ∨ s.ctl.main = .feedRun) : False := by
    obtain h | h | h | ⟨h, -⟩ := hp.cases <;> simp [h] at hm
  have hnext {u : State} (hm : s.ctl.main = .pollScan) (hsome : s.rx.tail < s.rx.head) (hctl : u.ctl = s.ctl)
      (htail : u.rx.tail = s.rx.tail + 1) (hhead : u.rx.head = s.rx.head) : pollLeft u < pollLeft s := by
    rw [pollLeft_pollScan hm, pollLeft_pollScan (hctl ▸ hm), htail, hhead]; omega
  have hhead := hi.rx.head_le
  cases h with
  | feedStarts hm => exact (hwait (.inl hm)).elim
  | feedEnds hm | strayFeedEnds hm => exact (hwait (.inr hm)).elim
  | strayInnerFeedEnds hm hno => exact absurd (hi.ctl.mainFeeds (feedIsMains_of_pollFeed hm)) (by simp [hno])
  | innerFeedStarts hm _ hmode =>
    obtain ⟨c, hc⟩ := hi.hrq
    have hlen := hc.hrqContents_length_le
    refine .inl ⟨⟨.inl rfl, by simp, by simp, by simp, fun h => absurd (h.symm.trans hmode) (by simp)⟩, ?_⟩
    rw [pollLeft_pollWait hm, pollLeft_pollFeed rfl]
    simp only [setMain_build, setMain_hrq, feedStart_build, feedStart_hrq, pollLock_build, pollLock_hrq]
    omega
  | pollStarts hm =>
    refine .inl ⟨⟨.inl rfl, rfl, rfl, rfl, fun _ => ⟨rfl, rfl, rfl⟩⟩, ?_⟩
    have := Nat.two_pow_pos s.build.hrqAw
    rw [pollLeft_pollWait hm, pollLeft_pollTest rfl]
    simp only [setMain_rx, pollLock_rx]
    omega
  | @feedMoves b q hm hpop =>
    have hm : s.ctl.main = .pollFeed := (feedIsMains_iff.1 hm).resolve_left fun h => hwait (.inr h)
    have hm' : (feedMoved b q s).ctl.main = .pollFeed := by simpa using hm
    have hmode := hi.ctl.innerFeed hm
    obtain ⟨-, hcons⟩ := popEdge_takes_oldest hi.hrq hpop
    refine .inl ⟨⟨.inl (by rw [hm']; rfl), by simp, by simp, by simp, fun h => absurd (h.symm.trans hmode) (by simp)⟩, ?_⟩
    rw [pollLeft_pollFeed hm, pollLeft_pollFeed hm', feedMoved_build, feedMoved_hrq, hcons, List.length_cons]
    omega
  | innerFeedEnds hm =>
    refine .inl ⟨⟨.inl rfl, rfl, rfl, rfl, fun _ => ⟨rfl, rfl, rfl⟩⟩, ?_⟩
    rw [pollLeft_pollFeed hm, pollLeft_pollTest rfl]
    simp only [setMain_rx, feedEnd_rx]
    omega
  | scanStarts hm =>
    refine .inl ⟨⟨.inl rfl, rfl, rfl, rfl, fun _ => ⟨rfl, rfl, rfl⟩⟩, ?_⟩
    rw [pollLeft_pollTest hm, pollLeft_pollScan rfl]
    exact Nat.lt_succ_self _
  | noData hm => exact .inr ⟨_, hi.ctl.scanning (.inl hm), rfl, rfl, rfl, rfl, rfl, .inl rfl⟩
  | scanEnds hm | bodyGoesOn hm => exact .inr ⟨_, hi.ctl.scanning (.inr hm), rfl, rfl, rfl, rfl, rfl, .inl rfl⟩
  | token hm hsome =>
    rw [rxToken_eq]
    exact .inl ⟨.of_scan hm rfl rfl rfl rfl rfl rfl, hnext hm hsome rfl rfl rfl⟩
  | skip hm hsome | lenH _ hm hsome => exact .inl ⟨.of_scan hm rfl rfl rfl rfl rfl rfl, hnext hm hsome rfl rfl rfl⟩
  | lenL b hm hsome _ hfits =>
    rw [rxLenL_of_fits hfits]
    exact .inl ⟨.of_scan hm rfl rfl rfl rfl rfl rfl, hnext hm hsome rfl rfl rfl⟩
  | oversized b hm _ _ hover =>
    rw [rxLenL_of_oversized hover]
    exact .inr ⟨_, hi.ctl.scanning (.inr hm), rfl, rfl, rfl, rfl, rfl, .inr ⟨rfl, rfl⟩⟩
  | @delivers payload hm =>
    rw [rxDeliver_eq]
    refine .inr ⟨_, hi.ctl.scanning (.inr hm), rfl, rfl, rfl, rfl, rfl, ?_⟩
    by_cases hdrained : payloadEnd s = s.rx.head
    · exact .inr ⟨if_pos hdrained, if_pos hdrained⟩
    · exact .inl (if_neg hdrained)

/-! ### The whole call (R142, R227) -/

/-- What the lines of a command of the receive side write. -/
def RxOnly (s t : State) : Prop :=
  t = { s with
    hrq := t.hrq, rx := t.rx, ctl := t.ctl
    bnd := { s.bnd with diagLog := t.bnd.diagLog, results := t.bnd.results, recordLog := t.bnd.recordLog } }

theorem RxOnly.trans {s t u : State} (h : RxOnly s t) (h' : RxOnly t u) : RxOnly s u := by
  rw [RxOnly] at h h' ⊢
  exact h'.trans (by rw [h])

theorem RxLine.only {s t : State} (h : RxLine s t) : RxOnly s t := by
  cases h with
  | feedStarts | innerFeedStarts => rw [feedStart_eq]; rfl
  | @feedMoves b q =>
    by_cases hfull : s.rx.head = s.build.rxCap
    · rw [feedMoved_of_full hfull]; rfl
    · rw [feedMoved_of_room hfull]; rfl
  | token => rw [rxToken_eq]; rfl
  | lenL b _ _ _ hfits => rw [rxLenL_of_fits hfits]; rfl
  | oversized b _ _ _ hover => rw [rxLenL_of_oversized hover]; rfl
  | delivers => rw [rxDeliver_eq]; rfl
  | _ => rfl

/-- Between the acceptance of a `POLL_RECEIVE` in `s` and `u` the call went on. -/
structure Polling (s u : State) : Prop extends PollGoesOn s u where
  inv : Inv u
  only : RxOnly s u

/-- A `POLL_RECEIVE` accepted in `s` has returned the code `c` in `t`. -/
structure Polled (c : ReceiveCode) (s t : State) : Prop where
  inv : Inv t
  only : RxOnly s t
  results : t.bnd.results = s.bnd.results ++ [.pollReceive c]
  recordLog : t.bnd.recordLog = s.bnd.recordLog ++ [t.rx.record]
  idle : t.ctl.main = .idle
  noFeed : t.ctl.feedActive = false
  feedPending : t.ctl.feedPending = s.ctl.feedPending
  untouched : s.build.feedMode = .interrupt → t.hrq = s.hrq ∧ t.rx.buf = s.rx.buf ∧
    (t.rx.head = s.rx.head ∨ t.rx.head = 0 ∧ t.rx.tail = 0)

theorem RxOnly.build_eq {s t : State} (h : RxOnly s t) : t.build = s.build := by
  rw [RxOnly] at h
  rw [h]

theorem Polling.line {s u v : State} (hu : Polling s u) (h : mainLine u = .next v) :
    (Polling s v ∧ pollLeft v < pollLeft u) ∨ ∃ c, Polled c s v := by
  have hline := hu.inv.rxLine_of_pollAt hu.stands h
  have honly := hu.only.trans hline.only
  obtain ⟨hon, hless⟩ | ⟨c, hret⟩ := hline.goesOn_or_returns hu.inv hu.stands
  · refine .inl ⟨⟨⟨hon.stands, hon.results.trans hu.results, hon.recordLog.trans hu.recordLog,
      hon.feedPending.trans hu.feedPending, fun hmode => ?_⟩, hu.inv.rxLine hline, honly⟩, hless⟩
    obtain ⟨hhrq, hbuf, hhead⟩ := hu.untouched hmode
    obtain ⟨hhrq', hbuf', hhead'⟩ := hon.untouched (by rw [hu.only.build_eq]; exact hmode)
    exact ⟨hhrq'.trans hhrq, hbuf'.trans hbuf, hhead'.trans hhead⟩
  · refine .inr ⟨c, hu.inv.rxLine hline, honly, hret.results.trans (by rw [hu.results]),
      hret.recordLog.trans (by rw [hu.recordLog]), by rw [hret.ctl]; rfl, by rw [hret.ctl]; exact hret.noFeed,
      by rw [hret.ctl]; exact hu.feedPending, fun hmode => ?_⟩
    obtain ⟨hhrq, hbuf, hhead⟩ := hu.untouched hmode
    exact ⟨hret.hrq.trans hhrq, hret.buf.trans hbuf, hret.head.imp_left fun h => h.trans hhead⟩

/-- R227: with the lines that are enough from where it stands, the call returns. -/
theorem Polling.lines {s u : State} (hu : Polling s u) {n : Nat} (hn : pollLeft u ≤ n) :
    ∃ t c, mainLines n u = .next t ∧ Polled c s t := by
  induction n generalizing u with
  | zero => exact absurd hu.stands.left_pos (by omega)
  | succ n ih =>
    obtain ⟨v, hv⟩ := hu.inv.mainLine_answers
    rw [mainLines_of_busy (hu.stands.busy hu.inv), hv, andThen_next]
    obtain ⟨hpoll, hless⟩ | ⟨c, hdone⟩ := hu.line hv
    · exact ih hpoll (by omega)
    · have hready : v.ctl.mainBusy = false := by rw [hdone.inv.ctl.busy, hdone.idle]; rfl
      exact ⟨v, c, mainLines_ready hready, hdone⟩

theorem polling_accepted {s : State} (hi : Inv s) (hq : Quiet s) : Polling s (acceptCommand .pollWait s) :=
  ⟨⟨.inr ⟨rfl, hq.noFeed⟩, rfl, rfl, rfl, fun _ => ⟨rfl, rfl, rfl⟩⟩, hi.linesBegin (.accepted hq.ready (.inr rfl)), rfl⟩

theorem exec_pollReceive_of_quiet {s : State} (hq : Quiet s) :
    exec .pollReceive s = mainLines (mainFuel s) (acceptCommand .pollWait s) := by
  have h := whenReady_of_ready (act := runCommand .pollWait) hq.ready
  rw [runCommand, lines_of_toTheEnd hq.toTheEnd] at h
  exact h

theorem pollLeft_accepted_le (s : State) : pollLeft (acceptCommand .pollWait s) ≤ mainFuel s := by
  have := Nat.two_pow_pos s.build.hrqAw
  rw [pollLeft_pollWait rfl, mainFuel, feedFuel, Nat.pow_succ, acceptCommand_build]
  omega

/-- With no command and no `FEED` in progress the control state is what the latched tick says (R38, R39). -/
theorem Inv.ctl_eq_of_quiet {s t : State} (hs : Inv s) (ht : Inv t) (hidle : s.ctl.main = .idle) (hidle' : t.ctl.main = .idle)
    (hfeed : t.ctl.feedActive = s.ctl.feedActive) (hpending : t.ctl.feedPending = s.ctl.feedPending) : t.ctl = s.ctl := by
  have hlock := hs.ctl.rxLock_of_main hidle
  have hlock' := ht.ctl.rxLock_of_main hidle'
  have hbusy : s.ctl.mainBusy = false := by rw [hs.ctl.busy, hidle]; rfl
  have hbusy' : t.ctl.mainBusy = false := by rw [ht.ctl.busy, hidle']; rfl
  have hie := hs.ctl.feedIe_of_unlocked hlock
  have hie' := ht.ctl.feedIe_of_unlocked hlock'
  calc t.ctl = ⟨t.ctl.feedIe, t.ctl.feedPending, t.ctl.rxLock, t.ctl.feedActive, t.ctl.mainBusy, t.ctl.main⟩ := rfl
    _ = ⟨s.ctl.feedIe, s.ctl.feedPending, s.ctl.rxLock, s.ctl.feedActive, s.ctl.mainBusy, s.ctl.main⟩ := by
      rw [hie, hie', hpending, hlock, hlock', hfeed, hbusy, hbusy', hidle, hidle']
    _ = s.ctl := rfl

/-- Settles O20: the lines of the call, counted, and what each of them leaves. -/
theorem pollReceiveReturnsOneCode : Obligations.PollReceiveReturnsOneCode := by
  intro s hi hq
  obtain ⟨t, c, ht, hdone⟩ := (polling_accepted hi hq).lines (pollLeft_accepted_le s)
  have hctl : t.ctl = s.ctl := hi.ctl_eq_of_quiet hdone.inv (hi.ctl.main_eq_idle hq.ready) hdone.idle
    (hdone.noFeed.trans hq.noFeed.symm) hdone.feedPending
  refine ⟨t, c, (exec_pollReceive_of_quiet hq).trans ht, hdone.results, hdone.recordLog, hctl, hdone.untouched, ?_⟩
  have honly := hdone.only
  rw [RxOnly, hctl] at honly
  exact honly

end Sys2Proof.Machine
end

section
/-! PROOFS of `POLL_RECEIVE` in `POLL` mode (R90 (c), R141 (2)): its inner `FEED` does what a `FEED` command does, and its other lines do
what they do in `INTERRUPT` mode, where they leave the feed interrupt disabled and enabled again. -/

namespace Sys2Proof.Machine

/-! ### Runs of lines, put together -/

theorem mainLines_add (n m : Nat) (s : State) : mainLines (n + m) s = andThen (mainLines n s) (mainLines m) := by
  induction n generalizing s with
  | zero => rw [Nat.zero_add]; rfl
  | succ n ih =>
    cases hb : s.ctl.mainBusy
    · rw [mainLines_ready hb, mainLines_ready hb, andThen_next, mainLines_ready hb]
    · rw [Nat.succ_add, mainLines_of_busy hb, mainLines_of_busy hb, andThen_assoc]
      congr 1
      exact funext ih

/-- More lines than a command needs change nothing. -/
theorem mainLines_of_returned {n m : Nat} {s t : State} (h : mainLines n s = .next t) (hready : t.ctl.mainBusy = false)
    (hle : n ≤ m) : mainLines m s = .next t := by
  obtain ⟨k, rfl⟩ := Nat.exists_eq_add_of_le hle
  rw [mainLines_add, h, andThen_next, mainLines_ready hready]

theorem inv_of_mainLines {n : Nat} {s t : State} (hi : Inv s) (h : mainLines n s = .next t) : Inv t :=
  mainLines_induct (P := Inv) (fun _ _ hu _ hl => inv_of_mainLine hu hl) n s t hi h

/-! ### The inner `FEED` (R141 (2)) -/

/-- The lines of the inner `FEED` are those of a `FEED`, the last of which takes the call to the no-data test. -/
theorem mainLines_pollFeed {n : Nat} {s t : State} (hm : s.ctl.main = .pollFeed) (hb : s.ctl.mainBusy = true)
    (ha : s.ctl.feedActive = true) (h : feedLines n s = .next t) (hend : t.ctl.feedActive = false) :
    ∃ k ≤ n, ∀ m, mainLines (k + m) s = mainLines m (setMain .pollTest t) := by
  induction n generalizing s with
  | zero =>
    obtain rfl : s = t := Host.Outcome.next.inj h
    exact absurd ha (by simp [hend])
  | succ n ih =>
    rw [feedLines, if_pos ha] at h
    obtain ⟨u, hu, h⟩ := andThen_eq_next.1 h
    have hline := mainLine_pollFeed hm
    rw [hu, andThen_next] at hline
    obtain ⟨hctl, -⟩ := feedLine_ctl hu
    by_cases hau : u.ctl.feedActive = true
    · rw [if_pos hau] at hline
      obtain ⟨k, hk, hlines⟩ := ih (by rw [hctl]; exact hm) (by rw [hctl]; exact hb) hau h
      refine ⟨k + 1, by omega, fun m => ?_⟩
      rw [Nat.add_right_comm, mainLines_of_busy hb, hline, andThen_next, hlines]
    · rw [if_neg hau] at hline
      obtain rfl : u = t := Host.Outcome.next.inj ((feedLines_idle (by simpa using hau)).symm.trans h)
      refine ⟨1, by omega, fun m => ?_⟩
      rw [Nat.add_comm, mainLines_of_busy hb, hline, andThen_next]

/-! ### The other lines in the two modes -/

/-- The same machine in `INTERRUPT` mode, with the feed interrupt enabled while nobody holds the lock. -/
def interruptTwin (s : State) : State :=
  { s with
    build := { s.build with feedMode := .interrupt }
    ctl := { s.ctl with feedIe := !s.ctl.rxLock } }

theorem returnedCtl_interruptTwin (s : State) : returnedCtl (interruptTwin s) = { returnedCtl s with feedIe := true } := by
  simp [returnedCtl, interruptTwin]

theorem pollReturn_interruptTwin (c : ReceiveCode) (s : State) :
    pollReturn c (interruptTwin s) = interruptTwin (pollReturn c s) := by
  rw [pollReturn_eq, pollReturn_eq, returnedCtl_interruptTwin]; rfl

theorem rxDeliver_interruptTwin (p : List Byte) (s : State) :
    rxDeliver p (interruptTwin s) = interruptTwin (rxDeliver p s) := by
  rw [rxDeliver_eq, rxDeliver_eq, returnedCtl_interruptTwin]; rfl

theorem rxLenL_interruptTwin (b : Byte) (s : State) : rxLenL b (interruptTwin s) = interruptTwin (rxLenL b s) := by
  obtain hover | hfits := Nat.lt_or_ge s.build.rxCap (setLengthLow s.rx.messageLength b).toNat
  · rw [rxLenL_of_oversized hover, rxLenL_of_oversized (s := interruptTwin s) hover, ← pollReturn_interruptTwin]; rfl
  · rw [rxLenL_of_fits hfits, rxLenL_of_fits (s := interruptTwin s) hfits]; rfl

theorem rxBody_interruptTwin (s : State) :
    rxBody (interruptTwin s) = andThen (rxBody s) fun t => .next (interruptTwin t) := by
  obtain hlt | hle := Nat.lt_or_ge s.rx.head (payloadEnd s)
  · rw [rxBody_of_incomplete hlt, rxBody_of_incomplete (s := interruptTwin s) hlt, andThen_next, ← pollReturn_interruptTwin]
    rfl
  · rw [rxBody_of_complete hle, rxBody_of_complete (s := interruptTwin s) hle, andThen_assoc]
    refine congrArg (andThen _) (funext fun payload => ?_)
    rw [andThen_next, ← rxDeliver_interruptTwin]; rfl

theorem rxIterate_interruptTwin (b : Byte) (s : State) :
    rxIterate b (interruptTwin s) = andThen (rxIterate b s) fun t => .next (interruptTwin t) := by
  by_cases hb : b = s.build.startToken
  · rw [rxIterate, rxIterate, if_pos hb, if_pos (show b = (interruptTwin s).build.startToken from hb), andThen_next,
      rxToken_eq, rxToken_eq]
    rfl
  · have hst : (interruptTwin s).rx.state = s.rx.state := rfl
    rw [rxIterate, rxIterate, if_neg hb, if_neg (show ¬ b = (interruptTwin s).build.startToken from hb), hst]
    cases s.rx.state with
    | awaitStart | lengthHigh => rfl
    | lengthLow => exact congrArg Host.Outcome.next (rxLenL_interruptTwin b s)
    | body => exact rxBody_interruptTwin s

theorem mainLine_interruptTwin {s : State} (hm : s.ctl.main = .pollTest ∨ s.ctl.main = .pollScan) :
    mainLine (interruptTwin s) = andThen (mainLine s) fun t => .next (interruptTwin t) := by
  obtain hm | hm := hm
  · by_cases hnone : s.rx.tail = s.rx.head
    · rw [mainLine_pollTest_of_none hm hnone, mainLine_pollTest_of_none (s := interruptTwin s) hm hnone,
        pollReturn_interruptTwin, andThen_next]
    · rw [mainLine_pollTest_of_some hm hnone, mainLine_pollTest_of_some (s := interruptTwin s) hm hnone]; rfl
  · rw [mainLine_pollScan hm, mainLine_pollScan (s := interruptTwin s) hm]
    obtain hsome | hnone := Nat.lt_or_ge s.rx.tail s.rx.head
    · rw [scanLine, scanLine, if_pos hsome, if_pos (show (interruptTwin s).rx.tail < (interruptTwin s).rx.head from hsome),
        andThen_assoc]
      exact congrArg (andThen _) (funext fun b => rxIterate_interruptTwin b s)
    · rw [scanLine_of_none hnone, scanLine_of_none (s := interruptTwin s) hnone, pollReturn_interruptTwin, andThen_next]

/-- From the no-data test on the call stays in its loop until it returns. -/
theorem pollScan_or_returned {s t : State} (hm : s.ctl.main = .pollTest ∨ s.ctl.main = .pollScan)
    (h : mainLine s = .next t) : t.ctl.main = .pollScan ∨ t.ctl.mainBusy = false := by
  obtain hm | hm := hm
  · by_cases hnone : s.rx.tail = s.rx.head
    · exact Host.Outcome.next.inj ((mainLine_pollTest_of_none hm hnone).symm.trans h) ▸ .inr rfl
    · exact Host.Outcome.next.inj ((mainLine_pollTest_of_some hm hnone).symm.trans h) ▸ .inl rfl
  · rw [mainLine_pollScan hm] at h
    obtain ⟨-, rfl⟩ | ⟨-, b, -, hb⟩ := scanLine_cases h
    · exact .inr rfl
    · obtain ⟨-, rfl⟩ | ⟨-, -, rfl⟩ | ⟨-, -, rfl⟩ | ⟨-, -, rfl⟩ | ⟨-, -, hbody⟩ := rxIterate_cases hb
      · exact .inl (by simpa using hm)
      · exact .inl hm
      · exact .inl hm
      · obtain hover | hfits := Nat.lt_or_ge s.build.rxCap (setLengthLow s.rx.messageLength b).toNat
        · exact .inr (by rw [rxLenL_of_oversized hover]; rfl)
        · exact .inl (by rw [rxLenL_of_fits hfits]; exact hm)
      · obtain ⟨-, rfl⟩ | ⟨-, _, -, rfl⟩ := rxBody_cases hbody
        · exact .inr rfl
        · exact .inr (by rw [rxDeliver_eq]; rfl)

theorem mainLines_interruptTwin {s : State} (hm : s.ctl.main = .pollTest ∨ s.ctl.main = .pollScan) (n : Nat) :
    mainLines n (interruptTwin s) = andThen (mainLines n s) fun t => .next (interruptTwin t) := by
  induction n generalizing s with
  | zero => rfl
  | succ n ih =>
    cases hb : s.ctl.mainBusy
    · rw [mainLines_ready hb, mainLines_ready (s := interruptTwin s) hb, andThen_next]
    · rw [mainLines_of_busy hb, mainLines_of_busy (s := interruptTwin s) hb, mainLine_interruptTwin hm, andThen_assoc, andThen_assoc]
      cases hl : mainLine s with
      | fault f => rfl
      | refused r => rfl
      | next t =>
        obtain hscan | hready := pollScan_or_returned hm hl
        · exact ih (.inr hscan)
        · simp only [andThen_next]
          rw [mainLines_ready hready, mainLines_ready (s := interruptTwin t) hready, andThen_next]

/-! ### The two calls -/

/-- At the no-data test of the call, with `u` what its `FEED` left. -/
def pollFed (u s : State) : State :=
  fedAs u { s.ctl with mainBusy := true, main := .pollTest, rxLock := true, feedActive := false } s

/-- R141 (2): the first lines of a `POLL`-mode call are its acceptance and its inner `FEED`. -/
theorem mainLines_accepted_of_poll {s u : State} (hf : FeedEndsIn s u) (hmode : s.build.feedMode = .poll)
    (hno : s.ctl.feedActive = false) : ∃ k ≤ feedFuel s.build,
      ∀ m, mainLines (k + m + 1) (acceptCommand .pollWait s) = mainLines m (pollFed u s) := by
  have hfirst := mainLine_pollWait_of_poll (s := acceptCommand .pollWait s) rfl hno hmode
  have hstart : setMain .pollFeed (feedStart (pollLock (acceptCommand .pollWait s))) =
      feedStart { s with ctl := { s.ctl with mainBusy := true, main := .pollFeed, rxLock := true } } := by
    rw [feedStart_eq, feedStart_eq]
    simp [setMain, pollLock, acceptCommand, hmode]
  rw [hstart] at hfirst
  obtain ⟨k, hk, hlines⟩ := mainLines_pollFeed (by simp) (by simp) (by rw [feedStart_eq])
    (hf.reaches { s.ctl with mainBusy := true, main := .pollFeed, rxLock := true } _ le_rfl) rfl
  refine ⟨k, hk, fun m => ?_⟩
  rw [mainLines_of_busy rfl, hfirst, andThen_next, hlines]
  rfl

/-- Settles O25: from the no-data test on the two calls are twins, and both have lines enough. -/
theorem pollModeFeedsFirst : Obligations.PollModeFeedsFirst := by
  intro s hi hq hmode
  obtain ⟨u, hf⟩ := hi.exists_feedEndsIn
  obtain ⟨k, hk, hlines⟩ := mainLines_accepted_of_poll hf hmode hq.noFeed
  have hfed : Inv (pollFed u s) := inv_of_mainLines (hi.linesBegin (.accepted hq.ready (.inr rfl))) (hlines 0)
  have hpolling : Polling (pollFed u s) (pollFed u s) :=
    ⟨⟨.inl rfl, rfl, rfl, rfl, fun _ => ⟨rfl, rfl, rfl⟩⟩, hfed, rfl⟩
  obtain ⟨t, c, ht, hdone⟩ := hpolling.lines le_rfl
  have hready : t.ctl.mainBusy = false := by rw [hdone.inv.ctl.busy, hdone.idle]; rfl
  have hleft : pollLeft (pollFed u s) ≤ s.build.rxCap + 2 := by
    have hhead : (pollFed u s).rx.head ≤ s.build.rxCap := hfed.rx.head_le
    rw [pollLeft_pollTest rfl]; omega
  have hfeed := hf.exec_feed_of_ready hq.toTheEnd hq.ready hq.noFeed (hi.unlocked_of_ready hq.ready)
  rw [hq.ctl_eq hi] at hfeed
  refine ⟨fedAs u s.ctl s, interruptTwin t, hfeed, ?interrupt, ?poll⟩
  case interrupt =>
    have hfirst := mainLine_pollWait_of_interrupt (s := acceptCommand .pollWait (asInterrupt (fedAs u s.ctl s))) rfl hq.noFeed rfl
    have htwin : setMain .pollTest (pollLock (acceptCommand .pollWait (asInterrupt (fedAs u s.ctl s)))) =
        interruptTwin (pollFed u s) := by
      simp [setMain, pollLock, acceptCommand, asInterrupt, interruptTwin, pollFed, fedAs, hq.noFeed]
    have hreturns : mainLines (pollLeft (pollFed u s)) (interruptTwin (pollFed u s)) = .next (interruptTwin t) := by
      rw [mainLines_interruptTwin (.inl rfl), ht, andThen_next]
    rw [exec_pollReceive_of_quiet (s := asInterrupt (fedAs u s.ctl s)) ⟨hq.ready, hq.noFeed, hq.toTheEnd⟩, mainFuel,
      mainLines_of_busy rfl, hfirst, andThen_next, htwin]
    refine mainLines_of_returned hreturns hready ?_
    exact hleft.trans (by simp only [asInterrupt, fedAs]; omega)
  case poll =>
    obtain ⟨m, hm⟩ : ∃ m, mainFuel s = k + m + 1 := ⟨mainFuel s - k - 1, by rw [mainFuel]; omega⟩
    rw [exec_pollReceive_of_quiet hq, hm, hlines]
    have hback : { interruptTwin t with build := s.build } = t := by
      have hbuild : t.build = s.build := hdone.only.build_eq
      have hlock : t.ctl.rxLock = false := hdone.inv.ctl.rxLock_of_main hdone.idle
      have hie : (!t.ctl.rxLock) = t.ctl.feedIe := by rw [hlock, hdone.inv.ctl.feedIe_of_unlocked hlock]; rfl
      rw [interruptTwin, hie, ← hbuild]
    rw [hback]
    exact mainLines_of_returned ht hready (by rw [mainFuel] at hm; omega)

end Sys2Proof.Machine
end

section
/-! PROOFS of what one `POLL_RECEIVE` makes of the bytes at `rx_tail`, in `INTERRUPT` mode (R143 to R149, R159): the state of the loop is
written out by the receive state and the trace, and each byte class is one step from one such state to the next. -/

namespace Sys2Proof.Machine

/-! ### The states of a call -/

/-- What a `POLL_RECEIVE` command needs to run at once, in `INTERRUPT` mode. -/
structure PollReady (s : State) : Prop extends Quiet s where
  mode : s.build.feedMode = .interrupt
  idle : s.ctl.main = .idle
  unlocked : s.ctl.rxLock = false
  enabled : s.ctl.feedIe = true

theorem Quiet.pollReady {s : State} (hq : Quiet s) (hi : Inv s) (hmode : s.build.feedMode = .interrupt) : PollReady s where
  toQuiet := hq
  mode := hmode
  idle := hi.ctl.main_eq_idle hq.ready
  unlocked := hi.unlocked_of_ready hq.ready
  enabled := hi.ctl.feedIe_of_unlocked (hi.unlocked_of_ready hq.ready)

/-- The call accepted in `s` is in its loop, with the receive state `rx` and the diagnostic trace `log`. -/
def scanAt (rx : Rx) (log : List DiagEvent) (s : State) : State :=
  { s with
    rx := rx
    ctl := { s.ctl with rxLock := true, feedIe := false, mainBusy := true, main := .pollScan }
    bnd := { s.bnd with diagLog := log } }

/-- The call accepted in `s` has returned `c`, with the receive state `rx` and the diagnostic trace `log`. -/
def polled (rx : Rx) (log : List DiagEvent) (c : ReceiveCode) (s : State) : State :=
  { s with
    rx := rx
    bnd := { s.bnd with
      diagLog := log, results := s.bnd.results ++ [.pollReceive c], recordLog := s.bnd.recordLog ++ [rx.record] } }

section
variable {s : State} (hr : PollReady s)
include hr

theorem returnedCtl_scanAt (rx : Rx) (log : List DiagEvent) : returnedCtl (scanAt rx log s) = s.ctl :=
  calc returnedCtl (scanAt rx log s)
      = { s.ctl with rxLock := false, feedIe := true, mainBusy := false, main := .idle } := by
        simp [returnedCtl, scanAt, hr.mode]
    _ = { s.ctl with
          rxLock := s.ctl.rxLock, feedIe := s.ctl.feedIe, mainBusy := s.ctl.mainBusy, main := s.ctl.main } := by
        rw [hr.unlocked, hr.enabled, hr.ready, hr.idle]
    _ = s.ctl := rfl

theorem pollReturn_scanAt (rx : Rx) (log : List DiagEvent) (c : ReceiveCode) :
    pollReturn c (scanAt rx log s) = polled rx log c s := by
  rw [pollReturn_eq, returnedCtl_scanAt hr]; rfl

/-- R149: the delivery of the payload `p`. -/
theorem rxDeliver_scanAt (rx : Rx) (log : List DiagEvent) (p : List Byte) :
    rxDeliver p (scanAt rx log s) = polled { rx with
      tail := if rx.tail = rx.head then 0 else rx.tail
      head := if rx.tail = rx.head then 0 else rx.head
      state := .awaitStart
      active := false
      record := deliveryRecord s.build p rx.record } (log ++ deliveryDiag s.build p) (deliveryCode s.build p) s := by
  rw [rxDeliver_eq, returnedCtl_scanAt hr]; rfl

/-- R143: with no unconsumed byte. -/
theorem exec_pollReceive_of_none (hnone : s.rx.tail = s.rx.head) :
    exec .pollReceive s = .next (polled s.rx s.bnd.diagLog .noDataAvailable s) := by
  have hfirst := mainLine_pollWait_of_interrupt (s := acceptCommand .pollWait s) rfl hr.noFeed hr.mode
  have hscan : pollReturn .noDataAvailable (setMain .pollTest (pollLock (acceptCommand .pollWait s))) =
      pollReturn .noDataAvailable (scanAt s.rx s.bnd.diagLog s) := by
    simp [pollReturn_eq, returnedCtl, setMain, pollLock, acceptCommand, scanAt, hr.mode]
  rw [exec_pollReceive_of_quiet hr.toQuiet, mainFuel, mainLines_of_busy rfl, hfirst, andThen_next, mainLines_of_busy rfl,
    mainLine_pollTest_of_none (s := setMain .pollTest (pollLock (acceptCommand .pollWait s))) rfl hnone, andThen_next, hscan, pollReturn_scanAt hr]
  exact mainLines_ready hr.ready

/-- R143: with unconsumed bytes the call comes to its loop. -/
theorem exec_pollReceive_of_some (hsome : s.rx.tail ≠ s.rx.head) : exec .pollReceive s =
    mainLines (feedFuel s.build + s.build.rxCap + s.rx.head + 6) (scanAt s.rx s.bnd.diagLog s) := by
  have hfirst := mainLine_pollWait_of_interrupt (s := acceptCommand .pollWait s) rfl hr.noFeed hr.mode
  have hscan : setMain .pollScan (setMain .pollTest (pollLock (acceptCommand .pollWait s))) = scanAt s.rx s.bnd.diagLog s := by
    simp [setMain, pollLock, acceptCommand, scanAt, hr.mode]
  rw [exec_pollReceive_of_quiet hr.toQuiet, mainFuel, mainLines_of_busy rfl, hfirst, andThen_next, mainLines_of_busy rfl,
    mainLine_pollTest_of_some (s := setMain .pollTest (pollLock (acceptCommand .pollWait s))) rfl hsome, andThen_next, hscan]

end

/-! ### The iterations of the loop (R144 to R149) -/

section
variable {s : State} {rx : Rx} {log : List DiagEvent} {b : Byte}

theorem scanAt_line (hsome : rx.tail < rx.head) (hcap : rx.head ≤ s.build.rxCap) (hb : memGet rx.buf rx.tail = some b) (n : Nat) :
    mainLines (n + 1) (scanAt rx log s) = andThen (rxIterate b (scanAt rx log s)) (mainLines n) := by
  rw [mainLines_of_busy rfl, mainLine_pollScan rfl, scanLine_of_some (s := scanAt rx log s) hsome hcap hb]

/-- R151: with no byte left the loop ends. -/
theorem scanAt_ends (hr : PollReady s) (hnone : rx.head ≤ rx.tail) {n : Nat} (hn : 1 ≤ n) :
    mainLines n (scanAt rx log s) = .next (polled rx log .inProgress s) := by
  obtain ⟨m, rfl⟩ := Nat.exists_eq_add_of_le' hn
  rw [mainLines_of_busy rfl, mainLine_pollScan rfl, scanLine_of_none (s := scanAt rx log s) hnone, andThen_next,
    pollReturn_scanAt hr]
  exact mainLines_ready hr.ready

variable (hsome : rx.tail < rx.head) (hcap : rx.head ≤ s.build.rxCap)
include hsome hcap

theorem scanAt_token (hb : memGet rx.buf rx.tail = some s.build.startToken) (hst : rx.state = .awaitStart) (n : Nat) :
    mainLines (n + 1) (scanAt rx log s) =
      mainLines n (scanAt { rx with state := .lengthHigh, active := true, tail := rx.tail + 1 } log s) := by
  have hnolog : (if (scanAt rx log s).rx.state = .awaitStart then [] else [DiagEvent.previousPacketIncomplete]) = [] := if_pos hst
  rw [scanAt_line hsome hcap hb, rxIterate, if_pos (show s.build.startToken = (scanAt rx log s).build.startToken from rfl),
    andThen_next, rxToken_eq, hnolog, List.append_nil]
  rfl

variable (hb : memGet rx.buf rx.tail = some b) (hne : b ≠ s.build.startToken)
include hb hne

/-- An iteration on a byte that is not the token goes by the framing state. -/
theorem scanAt_line_of_other {st : RxState} (hst : rx.state = st) (n : Nat) :
    mainLines (n + 1) (scanAt rx log s) = andThen (match st with
      | .awaitStart => .next (rxSkip (scanAt rx log s))
      | .lengthHigh => .next (rxLenH b (scanAt rx log s))
      | .lengthLow => .next (rxLenL b (scanAt rx log s))
      | .body => rxBody (scanAt rx log s)) (mainLines n) := by
  subst hst
  rw [scanAt_line hsome hcap hb, rxIterate, if_neg (show ¬ b = (scanAt rx log s).build.startToken from hne)]
  rfl

theorem scanAt_skip (hst : rx.state = .awaitStart) (n : Nat) :
    mainLines (n + 1) (scanAt rx log s) = mainLines n (scanAt { rx with tail := rx.tail + 1 } log s) :=
  scanAt_line_of_other hsome hcap hb hne hst n

theorem scanAt_lenH (hst : rx.state = .lengthHigh) (n : Nat) :
    mainLines (n + 1) (scanAt rx log s) = mainLines n (scanAt { rx with
      messageLength := setLengthHigh rx.messageLength b, state := .lengthLow, tail := rx.tail + 1 } log s) :=
  scanAt_line_of_other hsome hcap hb hne hst n

theorem scanAt_lenL_of_fits (hst : rx.state = .lengthLow) (hfits : (setLengthLow rx.messageLength b).toNat ≤ s.build.rxCap)
    (n : Nat) : mainLines (n + 1) (scanAt rx log s) = mainLines n (scanAt { rx with
      messageLength := setLengthLow rx.messageLength b, tail := rx.tail + 1, messageStart := rx.tail + 1, state := .body } log s) := by
  rw [scanAt_line_of_other hsome hcap hb hne hst]
  dsimp only
  rw [rxLenL_of_fits (s := scanAt rx log s) hfits, andThen_next]
  rfl

theorem scanAt_lenL_of_oversized (hr : PollReady s) (hst : rx.state = .lengthLow)
    (hover : s.build.rxCap < (setLengthLow rx.messageLength b).toNat) (n : Nat) :
    mainLines (n + 1) (scanAt rx log s) = .next (polled { rx with
      messageLength := setLengthLow rx.messageLength b, tail := 0, head := 0, state := .awaitStart, active := false }
      log .messageExceedsBufferSize s) := by
  rw [scanAt_line_of_other hsome hcap hb hne hst]
  dsimp only
  rw [rxLenL_of_oversized (s := scanAt rx log s) hover, andThen_next]
  exact (congrArg (mainLines n) (pollReturn_scanAt hr _ log _)).trans (mainLines_ready hr.ready)

/-- R148: the payload is not complete. -/
theorem scanAt_body_of_incomplete (hr : PollReady s) (hst : rx.state = .body)
    (hlt : rx.head < rx.messageStart + rx.messageLength.toNat) (n : Nat) :
    mainLines (n + 1) (scanAt rx log s) = .next (polled { rx with tail := rx.head } log .inProgress s) := by
  rw [scanAt_line_of_other hsome hcap hb hne hst]
  dsimp only
  rw [rxBody_of_incomplete (s := scanAt rx log s) hlt, andThen_next]
  exact (congrArg (mainLines n) (pollReturn_scanAt hr _ log _)).trans (mainLines_ready hr.ready)

/-- R149: the payload `p` is complete. -/
theorem scanAt_body_of_complete (hr : PollReady s) (hst : rx.state = .body) {p : List Byte} {e : Nat}
    (hend : rx.messageStart + rx.messageLength.toNat = e) (hle : e ≤ rx.head)
    (hread : memReadRun .rxBuf s.build.rxCap rx.buf rx.messageStart rx.messageLength.toNat = .next p) (n : Nat) :
    mainLines (n + 1) (scanAt rx log s) = .next (polled { rx with
      tail := if e = rx.head then 0 else e
      head := if e = rx.head then 0 else rx.head
      state := .awaitStart
      active := false
      record := deliveryRecord s.build p rx.record } (log ++ deliveryDiag s.build p) (deliveryCode s.build p) s) := by
  subst hend
  have hbody : rxBody (scanAt rx log s) =
      .next (rxDeliver p (scanAt { rx with tail := rx.messageStart + rx.messageLength.toNat } log s)) :=
    (rxBody_of_complete (s := scanAt rx log s) hle).trans (congrArg (andThen · _) hread)
  rw [scanAt_line_of_other hsome hcap hb hne hst]
  dsimp only
  rw [hbody, andThen_next, rxDeliver_scanAt hr]
  exact mainLines_ready hr.ready

end

end Sys2Proof.Machine
end

section
/-! PROOFS of `POLL_RECEIVE` on skipped bytes, on a whole frame, on an oversized length, and on a frame that arrives in pieces (R143 to
R149, R159, R160). -/

namespace Sys2Proof.Machine

/-! ### Nothing to deliver (R143, R159) -/

/-- R145, R159: bytes that are no token are skipped to the end of the loop. -/
theorem scanAt_skips {s : State} (hr : PollReady s) {rx : Rx} {log : List DiagEvent} (hst : rx.state = .awaitStart)
    (hcap : rx.head ≤ s.build.rxCap) (hle : rx.tail ≤ rx.head)
    (hbytes : ∀ a, rx.tail ≤ a → a < rx.head → ∃ b, memGet rx.buf a = some b ∧ b ≠ s.build.startToken) {n : Nat}
    (hn : rx.head - rx.tail < n) :
    mainLines n (scanAt rx log s) = .next (polled { rx with tail := rx.head } log .inProgress s) := by
  induction n generalizing rx with
  | zero => exact absurd hn (Nat.not_lt_zero _)
  | succ n ih =>
    by_cases hnone : rx.tail = rx.head
    · have hend {a : Nat} (ha : rx.tail = a) : { rx with tail := a } = rx := by subst ha; rfl
      rw [scanAt_ends hr hnone.ge (Nat.succ_pos n), hend hnone]
    · obtain ⟨b, hb, hne⟩ := hbytes rx.tail le_rfl (lt_of_le_of_ne hle hnone)
      rw [scanAt_skip (lt_of_le_of_ne hle hnone) hcap hb hne hst]
      exact ih (rx := { rx with tail := rx.tail + 1 }) hst hcap (by dsimp only; omega)
        (fun a hge => hbytes a (Nat.le_of_succ_le hge)) (by dsimp only; omega)

/-- Settles O21: no byte, and skipped bytes only. -/
theorem pollOfNothingAnswersNoData : Obligations.PollOfNothingAnswersNoData := by
  intro s hi hq hmode
  have hr := hq.pollReady hi hmode
  refine ⟨exec_pollReceive_of_none hr, fun hst hsome hnotoken => ?_⟩
  rw [exec_pollReceive_of_some hr hsome.ne]
  refine scanAt_skips hr hst hi.rx.head_le hi.rx.tail_le (fun a hge hlt => ?_) (by omega)
  obtain ⟨b, hb⟩ := Option.isSome_iff_exists.1 (hi.rx.written a hlt)
  exact ⟨b, hb, fun htok => hnotoken a hge hlt (htok ▸ hb)⟩

/-! ### The header of a frame (R144, R146, R147) -/

theorem setLengthLow_setLengthHigh (old : Len16) (hi lo : Byte) : setLengthLow (setLengthHigh old hi) lo = hi ++ lo :=
  congrArg (· ++ lo) (setLengthHigh_high old hi)

theorem toNat_length (hi lo : Byte) : (hi ++ lo : Len16).toNat = hi.toNat * 256 + lo.toNat := by
  rw [BitVec.toNat_append, ← Nat.shiftLeft_add_eq_or_of_lt lo.isLt, Nat.shiftLeft_eq]

/-- R72: the two length bytes of a frame are the two halves of its length. -/
theorem lengthHi_append_lengthLo {n : Nat} (h : n ≤ 65535) : (lengthHi n ++ lengthLo n : Len16) = BitVec.ofNat 16 n := by
  refine BitVec.eq_of_toNat_eq ?_
  have hlength : (lengthHi n).toNat * 256 + (lengthLo n).toNat = n := lengthOf_lengthHi_lengthLo h
  rw [toNat_length, hlength, BitVec.toNat_ofNat, Nat.mod_eq_of_lt (Nat.lt_succ_of_le h)]

/-- The receive state after a token and the high byte of the length. -/
def halfHeader (hi : Byte) (rx : Rx) : Rx :=
  { rx with
    state := .lengthLow, active := true, tail := rx.tail + 1 + 1, messageLength := setLengthHigh rx.messageLength hi }

/-- The receive state after a whole header whose length fits. -/
def fullHeader (hi lo : Byte) (rx : Rx) : Rx :=
  { rx with state := .body, active := true, tail := rx.tail + 3, messageLength := hi ++ lo, messageStart := rx.tail + 3 }

section
variable {s : State} {rx : Rx} {log : List DiagEvent} {hi lo : Byte} {rest : List Byte} {n : Nat}
variable (hst : rx.state = .awaitStart) (hcap : rx.head ≤ s.build.rxCap) (hhead : rx.tail + 3 ≤ rx.head)
variable (hread : memReadRun .rxBuf s.build.rxCap rx.buf rx.tail n = .next (s.build.startToken :: hi :: lo :: rest))
variable (hhi : hi ≠ s.build.startToken) (hlo : lo ≠ s.build.startToken)

include hread in
/-- The cells that were read hold the header. -/
theorem header_cells : memGet rx.buf rx.tail = some s.build.startToken ∧ memGet rx.buf (rx.tail + 1) = some hi ∧
    memGet rx.buf (rx.tail + 1 + 1) = some lo := by
  obtain ⟨hlen, hcells⟩ := memReadRun_eq_next.1 hread
  have hn : rest.length + 3 = n := hlen
  exact ⟨(hcells 0 (by omega)).2, (hcells 1 (by omega)).2, (hcells 2 (by omega)).2⟩

include hst hcap hhead hread hhi

/-- The token and the high half of the length. -/
theorem scanAt_token_lenH (m : Nat) : mainLines (m + 2) (scanAt rx log s) = mainLines m (scanAt (halfHeader hi rx) log s) := by
  obtain ⟨htoken, hhigh, -⟩ := header_cells hread
  rw [scanAt_token (by omega) hcap htoken hst]
  exact scanAt_lenH (rx := { rx with state := .lengthHigh, active := true, tail := rx.tail + 1 }) (by dsimp only; omega) hcap
    hhigh hhi rfl m

include hlo

theorem scanAt_header_of_fits (hfits : (hi ++ lo : Len16).toNat ≤ s.build.rxCap) (m : Nat) :
    mainLines (m + 3) (scanAt rx log s) = mainLines m (scanAt (fullHeader hi lo rx) log s) := by
  obtain ⟨-, -, hlow⟩ := header_cells hread
  have hlength : setLengthLow (halfHeader hi rx).messageLength lo = hi ++ lo := setLengthLow_setLengthHigh _ hi lo
  rw [scanAt_token_lenH hst hcap hhead hread hhi, scanAt_lenL_of_fits (rx := halfHeader hi rx)
    (show rx.tail + 1 + 1 < rx.head by omega) hcap hlow hlo rfl (hlength ▸ hfits), hlength]
  rfl

theorem scanAt_header_of_oversized (hr : PollReady s) (hover : s.build.rxCap < (hi ++ lo : Len16).toNat) (m : Nat) :
    mainLines (m + 3) (scanAt rx log s) = .next (polled { rx with
      tail := 0, head := 0, messageLength := hi ++ lo, state := .awaitStart, active := false } log .messageExceedsBufferSize s) := by
  obtain ⟨-, -, hlow⟩ := header_cells hread
  have hlength : setLengthLow (halfHeader hi rx).messageLength lo = hi ++ lo := setLengthLow_setLengthHigh _ hi lo
  rw [scanAt_token_lenH hst hcap hhead hread hhi, scanAt_lenL_of_oversized (rx := halfHeader hi rx)
    (show rx.tail + 1 + 1 < rx.head by omega) hcap hlow hlo hr rfl (hlength ▸ hover), hlength]
  rfl

end

/-- R32: outside a frame the indicator is down. -/
theorem RxInv.inactive {b : Build} {rx : Rx} (hi : RxInv b rx) (hst : rx.state = .awaitStart) : rx.active = false :=
  hi.active.trans (by rw [hst]; rfl)

/-- Settles O23: the header alone decides. -/
theorem oversizedLengthIsRejected : Obligations.OversizedLengthIsRejected := by
  intro s hi lo hinv hq hmode hst hhi hlo hover hhead hread
  have hr := hq.pollReady hinv hmode
  rw [exec_pollReceive_of_some hr (by omega)]
  refine (scanAt_header_of_oversized hst hinv.rx.head_le hhead hread hhi hlo hr (by rw [toNat_length]; exact hover) _).trans ?_
  rw [polled, ← hst, ← hinv.rx.inactive hst]

/-- Settles O22: the header, and the payload in one jump. -/
theorem wholeFrameIsDelivered : Obligations.WholeFrameIsDelivered := by
  intro s p hi hq hmode hst hne hcap hlen hfirst hhi hlo hend hread
  have hr := hq.pollReady hi hmode
  obtain ⟨b, hb, hcell⟩ : ∃ b, b ≠ s.build.startToken ∧ memGet s.rx.buf (s.rx.tail + 3) = some b := by
    obtain ⟨b, q, rfl⟩ := List.exists_cons_of_ne_nil hne
    obtain ⟨-, hcells⟩ := memReadRun_eq_next.1 hread
    exact ⟨b, by simpa using hfirst, (hcells 3 (by rw [List.length_cons]; omega)).2⟩
  have hpos := List.length_pos_iff.2 hne
  have hlength := lengthHi_append_lengthLo hlen
  have htoNat : (lengthHi p.length ++ lengthLo p.length : Len16).toNat = p.length := by
    rw [hlength, BitVec.toNat_ofNat, Nat.mod_eq_of_lt (Nat.lt_succ_of_le hlen)]
  have hpayload := memReadRun_drop (k := 3) hread
  rw [Nat.add_sub_cancel, ← htoNat] at hpayload
  have hdelivers := scanAt_body_of_complete (rx := fullHeader (lengthHi p.length) (lengthLo p.length) s.rx)
    (log := s.bnd.diagLog) (show s.rx.tail + 3 < s.rx.head by omega) hi.rx.head_le hcell hb hr rfl
    (e := s.rx.tail + (p.length + 3)) ((congrArg (s.rx.tail + 3 + ·) htoNat).trans (by omega)) hend hpayload
    (feedFuel s.build + s.build.rxCap + s.rx.head + 2)
  rw [exec_pollReceive_of_some hr (by omega)]
  refine ((scanAt_header_of_fits hst hi.rx.head_le (by omega) hread hhi hlo (by rw [htoNat]; exact hcap) _).trans
    hdelivers).trans ?_
  rw [polled, fullHeader, hlength, ← hst, ← hi.rx.inactive hst]
  rfl

/-! ### A frame in pieces (R160) -/

/-- The framing state before the byte `j` of a frame. -/
def stateBefore : Nat → RxState
  | 0 => .awaitStart
  | 1 => .lengthHigh
  | 2 => .lengthLow
  | _ + 3 => .body

/-- The first `h` bytes of the frame of `p` are buffered from offset 0, and those before offset `j` are consumed. -/
structure FrameAt (tok : Byte) (p : List Byte) (j h : Nat) (rx : Rx) : Prop where
  tail : rx.tail = j
  head : rx.head = h
  cells : ∀ a < h, memGet rx.buf a = (frameBytes tok p)[a]?
  state : rx.state = stateBefore j
  high : j = 2 → rx.messageLength.extractLsb' 8 8 = lengthHi p.length
  length : 3 ≤ j → rx.messageLength = BitVec.ofNat 16 p.length
  start : 3 ≤ j → rx.messageStart = 3

section
variable {s : State} {p : List Byte} {rx : Rx} {log : List DiagEvent} {j h : Nat}

/-- A frame in whose length and payload bytes the token does not occur, and that fits the buffer (R160). -/
structure PlainFrame (b : Build) (p : List Byte) : Prop where
  nonempty : p ≠ []
  fits : p.length + 3 ≤ b.rxCap
  short : p.length ≤ 65535
  payload : b.startToken ∉ p
  high : lengthHi p.length ≠ b.startToken
  low : lengthLo p.length ≠ b.startToken

theorem PlainFrame.toNat_length {b : Build} (hp : PlainFrame b p) : (BitVec.ofNat 16 p.length : Len16).toNat = p.length := by
  rw [BitVec.toNat_ofNat, Nat.mod_eq_of_lt (Nat.lt_succ_of_le hp.short)]

variable (hp : PlainFrame s.build p) (hf : FrameAt s.build.startToken p j h rx) (hjh : j < h) (hh : h ≤ p.length + 3)
include hp hf hjh hh

/-- One byte of the header (R144, R146, R147). -/
theorem FrameAt.header_step (hj : j < 3) : ∃ rx', FrameAt s.build.startToken p (j + 1) h rx' ∧ rx'.record = rx.record ∧
    ∀ n, mainLines (n + 1) (scanAt rx log s) = mainLines n (scanAt rx' log s) := by
  have hcap : rx.head ≤ s.build.rxCap := by rw [hf.head]; exact hh.trans hp.fits
  have hsome : rx.tail < rx.head := by rw [hf.head, hf.tail]; exact hjh
  have hcell : memGet rx.buf rx.tail = (frameBytes s.build.startToken p)[j]? := by rw [hf.tail]; exact hf.cells j hjh
  have hst := hf.state
  match j, hj with
  | 0, _ =>
    refine ⟨{ rx with state := .lengthHigh, active := true, tail := rx.tail + 1 }, ?_, rfl,
      scanAt_token hsome hcap hcell hst⟩
    exact ⟨congrArg (· + 1) hf.tail, hf.head, hf.cells, rfl, by simp, by simp, by simp⟩
  | 1, _ =>
    refine ⟨{ rx with
        messageLength := setLengthHigh rx.messageLength (lengthHi p.length), state := .lengthLow, tail := rx.tail + 1 },
      ?_, rfl, scanAt_lenH hsome hcap hcell hp.high hst⟩
    exact ⟨congrArg (· + 1) hf.tail, hf.head, hf.cells, rfl, fun _ => setLengthHigh_high _ _, by simp, by simp⟩
  | 2, _ =>
    have hlen : setLengthLow rx.messageLength (lengthLo p.length) = BitVec.ofNat 16 p.length := by
      rw [setLengthLow, hf.high rfl]; exact lengthHi_append_lengthLo hp.short
    have hfits : (setLengthLow rx.messageLength (lengthLo p.length)).toNat ≤ s.build.rxCap := by
      rw [hlen, hp.toNat_length]; exact le_trans (Nat.le_add_right _ 3) hp.fits
    refine ⟨{ rx with
        messageLength := setLengthLow rx.messageLength (lengthLo p.length)
        tail := rx.tail + 1, messageStart := rx.tail + 1, state := .body },
      ?_, rfl, scanAt_lenL_of_fits hsome hcap hcell hp.low hst hfits⟩
    exact ⟨congrArg (· + 1) hf.tail, hf.head, hf.cells, rfl, by simp, fun _ => hlen, fun _ => congrArg (· + 1) hf.tail⟩

/-- The header, as far as it has arrived: the loop comes to the end of the buffered bytes, or to the payload. -/
theorem FrameAt.header : ∃ j' rx' m, m ≤ 3 ∧ FrameAt s.build.startToken p j' h rx' ∧ rx'.record = rx.record ∧
    (j' = h ∧ h ≤ 3 ∨ 3 ≤ j' ∧ j' < h) ∧ ∀ n, mainLines (n + m) (scanAt rx log s) = mainLines n (scanAt rx' log s) := by
  obtain ⟨d, hd⟩ : ∃ d, d = 3 - j := ⟨_, rfl⟩
  have hm : ∃ j' rx' m, m ≤ d ∧ FrameAt s.build.startToken p j' h rx' ∧ rx'.record = rx.record ∧
      (j' = h ∧ h ≤ 3 ∨ 3 ≤ j' ∧ j' < h) ∧ ∀ n, mainLines (n + m) (scanAt rx log s) = mainLines n (scanAt rx' log s) := by
    induction d generalizing j rx with
    | zero => exact ⟨j, rx, 0, le_rfl, hf, rfl, .inr ⟨by omega, hjh⟩, fun _ => rfl⟩
    | succ d ih =>
      obtain ⟨rx', hf', hrec, hline⟩ := hf.header_step (log := log) hp hjh hh (by omega)
      by_cases hend : j + 1 = h
      · exact ⟨j + 1, rx', 1, by omega, hf', hrec, .inl ⟨hend, by omega⟩, hline⟩
      · obtain ⟨j', rx'', m, hm, hf'', hrec', hat, hlines⟩ := ih hf' (by omega) (by omega)
        refine ⟨j', rx'', m + 1, by omega, hf'', hrec'.trans hrec, hat, fun n => ?_⟩
        rw [← Nat.add_assoc, hline, hlines]
  obtain ⟨j', rx', m, hm, hrest⟩ := hm
  exact ⟨j', rx', m, by omega, hrest⟩

/-- At a payload byte the loop reads on in the frame's payload, and that byte is no token. -/
theorem FrameAt.body_byte (hj : 3 ≤ j) : rx.state = .body ∧ ∃ b, memGet rx.buf rx.tail = some b ∧ b ≠ s.build.startToken := by
  obtain ⟨k, rfl⟩ := Nat.exists_eq_add_of_le' hj
  have hk : k < p.length := by omega
  refine ⟨hf.state, p[k], ?_, fun htok => hp.payload (htok ▸ List.getElem_mem hk)⟩
  rw [hf.tail, hf.cells _ hjh]
  exact List.getElem?_eq_getElem hk

end

/-! ### A `POLL_RECEIVE` after each piece (R160) -/

section
variable {s : State} {p : List Byte} {j h : Nat}
variable (hr : PollReady s) (hp : PlainFrame s.build p) (hf : FrameAt s.build.startToken p j h s.rx) (hjh : j < h)
include hr hp hf hjh

/-- R148: while the frame is not complete, the call consumes what has arrived. -/
theorem exec_pollReceive_of_piece (hh : h < p.length + 3) : ∃ rx, FrameAt s.build.startToken p h h rx ∧
    rx.record = s.rx.record ∧ exec .pollReceive s = .next (polled rx s.bnd.diagLog .inProgress s) := by
  obtain ⟨j', rx, m, hm, hf', hrec, hat, hlines⟩ := hf.header (log := s.bnd.diagLog) hp hjh hh.le
  have hcap : rx.head ≤ s.build.rxCap := by rw [hf'.head]; exact hh.le.trans hp.fits
  have hexec (n : Nat) (hn : n = feedFuel s.build + s.build.rxCap + s.rx.head + 6 - m) :
      exec .pollReceive s = mainLines n (scanAt rx s.bnd.diagLog s) := by
    rw [exec_pollReceive_of_some hr (by rw [hf.tail, hf.head]; exact hjh.ne), ← hlines]
    congr 1; omega
  obtain ⟨rfl, -⟩ | ⟨hj, hlt⟩ := hat
  · exact ⟨rx, hf', hrec, (hexec _ rfl).trans (scanAt_ends hr (by rw [hf'.head, hf'.tail]) (by omega))⟩
  · obtain ⟨hst, b, hb, hne⟩ := hf'.body_byte hp hlt hh.le hj
    refine ⟨{ rx with tail := rx.head }, ⟨hf'.head, hf'.head, hf'.cells, ?_, by omega, fun _ => hf'.length hj,
      fun _ => hf'.start hj⟩, hrec, (hexec (feedFuel s.build + s.build.rxCap + s.rx.head + 5 - m + 1) (by omega)).trans
      (scanAt_body_of_incomplete (by rw [hf'.head, hf'.tail]; exact hlt) hcap hb hne hr hst ?_ _)⟩
    · obtain ⟨k, rfl⟩ := Nat.exists_eq_add_of_le' (hj.trans hlt.le)
      exact hst
    · rw [hf'.head, hf'.start hj, hf'.length hj, hp.toNat_length]; omega

/-- R149: with its last byte the frame is delivered, and the buffer is recycled. -/
theorem exec_pollReceive_of_last (hh : h = p.length + 3) : ∃ rx, rx.tail = 0 ∧ rx.head = 0 ∧ rx.state = .awaitStart ∧
    rx.active = false ∧ rx.record = deliveryRecord s.build p s.rx.record ∧
    exec .pollReceive s =
      .next (polled rx (s.bnd.diagLog ++ deliveryDiag s.build p) (deliveryCode s.build p) s) := by
  obtain ⟨j', rx, m, hm, hf', hrec, hat, hlines⟩ := hf.header (log := s.bnd.diagLog) hp hjh hh.le
  have hcap : rx.head ≤ s.build.rxCap := by rw [hf'.head, hh]; exact hp.fits
  have hpos := List.length_pos_iff.2 hp.nonempty
  obtain ⟨hj, hlt⟩ := hat.resolve_left (by omega)
  obtain ⟨hst, b, hb, hne⟩ := hf'.body_byte hp hlt hh.le hj
  have hread : memReadRun .rxBuf s.build.rxCap rx.buf rx.messageStart rx.messageLength.toNat = .next p := by
    rw [hf'.start hj, hf'.length hj, hp.toNat_length]
    refine memReadRun_eq_next.2 ⟨rfl, fun k hk => ⟨by have := hp.fits; omega, ?_⟩⟩
    rw [hf'.cells _ (by omega), Nat.add_comm]; rfl
  have hend : rx.messageStart + rx.messageLength.toNat = rx.head := by
    rw [hf'.start hj, hf'.length hj, hp.toNat_length, hf'.head, hh, Nat.add_comm]
  have hdelivers := scanAt_body_of_complete (log := s.bnd.diagLog) (by rw [hf'.head, hf'.tail]; exact hlt) hcap hb hne hr hst hend
    le_rfl hread (feedFuel s.build + s.build.rxCap + s.rx.head + 5 - m)
  rw [if_pos rfl, hrec] at hdelivers
  refine ⟨{ rx with
    tail := 0, head := 0, state := .awaitStart, active := false, record := deliveryRecord s.build p s.rx.record },
    rfl, rfl, rfl, rfl, rfl, ?_⟩
  rw [exec_pollReceive_of_some hr (by rw [hf.tail, hf.head]; exact hjh.ne), ← hdelivers, ← hlines]
  congr 1; omega

end

theorem PollReady.arrive {s : State} (hr : PollReady s) (bs : List Byte) : PollReady (arrive bs s) :=
  ⟨⟨hr.ready, hr.noFeed, hr.toTheEnd⟩, hr.mode, hr.idle, hr.unlocked, hr.enabled⟩

theorem PollReady.polled {s : State} (hr : PollReady s) (rx : Rx) (log : List DiagEvent) (c : ReceiveCode) :
    PollReady (polled rx log c s) :=
  ⟨⟨hr.ready, hr.noFeed, hr.toTheEnd⟩, hr.mode, hr.idle, hr.unlocked, hr.enabled⟩

/-- The next bytes of the frame arrive behind the consumed ones. -/
theorem FrameAt.arrive {s : State} {tok : Byte} {p bs rest : List Byte} {k : Nat} (hf : FrameAt tok p k k s.rx)
    (hbs : bs ++ rest = (frameBytes tok p).drop k) : FrameAt tok p k (k + bs.length) (arrive bs s).rx := by
  refine { hf with head := congrArg (· + bs.length) hf.head, cells := fun a ha => ?_ }
  have hcell : memGet (Machine.arrive bs s).rx.buf a = _ := memGet_memSetRun s.rx.buf s.rx.head a bs
  rw [hcell, hf.head]
  split
  · rw [← List.getElem?_append_left (l₂ := rest) (by omega), hbs, List.getElem?_drop, Nat.add_sub_cancel' (by omega)]
  · exact hf.cells a (by omega)

/-- What the pieces of a frame come to, with a call after each: `n` answers, the last of them the delivery. -/
structure ReceivedWhole (p : List Byte) (n : Nat) (s t : State) : Prop where
  results : t.bnd.results = s.bnd.results ++ List.replicate (n - 1) (.pollReceive .inProgress) ++
    [.pollReceive (deliveryCode s.build p)]
  record : t.rx.record = deliveryRecord s.build p s.rx.record
  tail : t.rx.tail = 0
  head : t.rx.head = 0
  state : t.rx.state = .awaitStart
  active : t.rx.active = false
  diagLog : t.bnd.diagLog = s.bnd.diagLog ++ deliveryDiag s.build p

theorem pollAfterEach_receives {p : List Byte} {pieces : List (List Byte)} {s : State} {k : Nat} (hr : PollReady s)
    (hp : PlainFrame s.build p) (hf : FrameAt s.build.startToken p k k s.rx) (hk : k < p.length + 3)
    (hpieces : pieces.flatten = (frameBytes s.build.startToken p).drop k) (hne : ∀ piece ∈ pieces, piece ≠ []) :
    ∃ t, pollAfterEach pieces s = .next t ∧ ReceivedWhole p pieces.length s t := by
  induction pieces generalizing s k with
  | nil =>
    have hlen := congrArg List.length hpieces
    rw [List.length_drop, frameBytes_length, List.flatten_nil, List.length_nil] at hlen
    omega
  | cons bs rest ih =>
    obtain ⟨hbs, hrest⟩ := List.forall_mem_cons.1 hne
    have hpos := List.length_pos_iff.2 hbs
    rw [List.flatten_cons] at hpieces
    have hdrop : rest.flatten = (frameBytes s.build.startToken p).drop (k + bs.length) := by
      rw [← List.drop_drop, ← hpieces, List.drop_left]
    have hlen := congrArg List.length hdrop
    rw [List.length_drop, frameBytes_length] at hlen
    have hlen' := congrArg List.length hpieces
    rw [List.length_append, List.length_drop, frameBytes_length] at hlen'
    have harrived := hf.arrive hpieces
    rw [pollAfterEach]
    cases rest with
    | nil =>
      rw [List.flatten_nil, List.length_nil] at hlen
      obtain ⟨rx, htail, hhead, hst, hactive, hrec, hexec⟩ :=
        exec_pollReceive_of_last (hr.arrive bs) hp harrived (by omega) (by omega)
      exact ⟨_, by rw [hexec, andThen_next, pollAfterEach], ⟨by rw [List.length_singleton, List.replicate_zero, List.append_nil]; rfl,
        hrec, htail, hhead, hst, hactive, rfl⟩⟩
    | cons bs' rest =>
      have hmore : 0 < (bs' :: rest).flatten.length := by
        have hbs' := List.length_pos_iff.2 (hrest bs' List.mem_cons_self)
        rw [List.flatten_cons, List.length_append]; omega
      obtain ⟨rx, hf', hrec, hexec⟩ := exec_pollReceive_of_piece (hr.arrive bs) hp harrived (by omega) (by omega)
      obtain ⟨t, ht, hwhole⟩ := ih ((hr.arrive bs).polled rx s.bnd.diagLog .inProgress) hp hf' (by omega) hdrop hrest
      refine ⟨t, by rw [hexec, andThen_next]; exact ht, { hwhole with results := ?_, record := ?_ }⟩
      · rw [hwhole.results]
        simp only [polled, arrive, List.length_cons, Nat.add_sub_cancel, List.replicate_succ, List.append_assoc, List.cons_append,
          List.nil_append]
      · exact hwhole.record.trans (congrArg (deliveryRecord s.build p) hrec)

/-- Settles O24: from the empty buffer, piece by piece. -/
theorem receptionResumes : Obligations.ReceptionResumes := by
  intro s p pieces hi hq hmode hst htail hhead hne hfits hshort hpayload hhigh hlow hpieces hall
  have hp : PlainFrame s.build p := ⟨hne, hfits, hshort, hpayload, hhigh, hlow⟩
  have hstart : FrameAt s.build.startToken p 0 0 s.rx :=
    ⟨htail, hhead, fun a ha => absurd ha (Nat.not_lt_zero a), hst, by simp, by simp, by simp⟩
  obtain ⟨t, ht, hwhole⟩ := pollAfterEach_receives (hq.pollReady hi hmode) hp hstart (Nat.succ_pos _) hpieces hall
  exact ⟨t, ht, hwhole.results, hwhole.record, hwhole.tail, hwhole.head, hwhole.state, hwhole.active, hwhole.diagLog⟩

end Sys2Proof.Machine
end
